-- ==== Sys2Proof/Word.lean ====
section
/-! DEFINITION. The machine's words (spec/00_scope.md R7, R8): every quantity is unsigned, bit 0 is the least
significant. -/

namespace Sys2Proof

/-- A host register access and the command word, 32 bits (`WORD`, `CNT_BITS`, `ADDR_BITS` of R7). -/
abbrev Word := BitVec 32

/-- A byte of `MEM` and a Symbol (`SYM_BITS` of R7, R80). -/
abbrev Byte := BitVec 8

/-- The index of a `NODE` entry (`IDX_BITS` of R7). -/
abbrev Idx := BitVec 9

/-- The weight of a node (`W_BITS` of R7). -/
abbrev Weight := BitVec 40

end Sys2Proof
end

