-- ==== Sys2Proof/Config.lean ====
section
/-! DEFINITION. The named constants of spec/00_scope.md R7 and spec/30_encoding.md R108, and the one free value of the
model. -/

namespace Sys2Proof.Config

/-- Number of Symbols, `NSYM` (R7). -/
abbrev nsym : Nat := 256

/-- Entries of the tree memory, `NODE_MAX` (R7). -/
abbrev nodeMax : Nat := 511

/-- Width of the stored code field, `CODE_FIELD` (R7). -/
abbrev codeField : Nat := 256

/-- One past the highest byte address of `MEM` (R71, R72). -/
abbrev memSize : Nat := 2 ^ 32

/-- Size of the register window in bytes (R91). -/
abbrev windowSize : Nat := 0x8000

/-- FREE VALUE: what a byte of `MEM` that nobody has written reads as. spec/93_implementation_defined.md I10 gives
those bytes the treatment `any value`, so nothing constrains it (log 3). -/
opaque unwrittenByte : Nat → Byte

end Sys2Proof.Config
end

