-- ==== Sys2Proof/Syntax.lean ====
section
/-! DEFINITION. What a program of HUFFCORE is made of: the seven commands (spec/30_encoding.md R101), the fields of a
command word (R100), the registers of the window (R108), the host's operations (spec/00_scope.md R11) and
the lines of its scripts (R116, R117). -/

namespace Sys2Proof

/-- The seven commands of R101, one constructor per row of spec/opcode_table.json. A command carries no operand
(R100): all operands come from the operand registers (R107). -/
inductive Instr where
  /-- `NOP` -/
  | nop
  /-- `COUNT` -/
  | count
  /-- `BUILD` -/
  | build
  /-- `GEN` -/
  | gen
  /-- `ENCODE` -/
  | encode
  /-- `DECODE.B` -/
  | decodeB
  /-- `DECODE.S` -/
  | decodeS
  deriving DecidableEq, Repr

/-- The fields of a command word, format `CMD32` (R100): `RSV` in bits 31:9, `MODE` in bit 8, `OPC` in bits 7:0. -/
structure CmdFields where
  rsv  : BitVec 23
  mode : BitVec 1
  opc  : BitVec 8
  deriving DecidableEq, Repr

/-- Why a command word is illegal (R104, R114). -/
inductive IllegalCause where
  /-- `OPC` is not defined. -/
  | badOpc
  /-- `OPC` is defined and a reserved bit is set. -/
  | badRsv
  deriving DecidableEq, Repr

/-- What an offset of the register window names (R108 to R111). -/
inductive WindowReg where
  | cmd | status | errInfo | errSticky
  | srcAddr | srcLen | dstAddr | dstCap
  | opBitsLo | opBitsHi | opSyms
  | resBitsLo | resBitsHi | resSyms | resBytes
  | root | nleaf | nnode
  /-- `FREQ[x]` (R109). -/
  | freq (x : Byte)
  /-- Word `w` of `NODE[i]` (R110). -/
  | node (i : Fin 511) (w : Fin 4)
  /-- Word `w` of `CODE[x]` (R111). -/
  | code (x : Byte) (w : Fin 16)
  /-- An offset that R108 does not list. -/
  | unused
  deriving DecidableEq, Repr

/-- The host's operations (R11, R116). Offsets are byte offsets from `REG_BASE`, addresses are byte addresses of
`MEM`. -/
inductive HostOp where
  /-- `HostRead(off)`, the script line `RD`. -/
  | read (off : Nat)
  /-- `HostWrite(off, v)`, the script line `WR`; `off = 0` issues a command. -/
  | write (off : Nat) (v : Word)
  /-- The host stores bytes from address `a` on, the script line `MEMW`. -/
  | store (a : Nat) (bytes : List Byte)
  /-- The host loads `n` bytes from address `a` on, the script line `MEMR`. -/
  | load (a n : Nat)
  deriving DecidableEq, Repr

/-- What the host receives from an operation that answers it. -/
inductive HostReply where
  /-- The word a `HostRead` returned. -/
  | word (v : Word)
  /-- The bytes a load of `MEM` returned. -/
  | bytes (bs : List Byte)
  /-- The platform's bus answered a refused access with an error (R82). -/
  | busError
  deriving DecidableEq, Repr

/-- The names R117 gives to values that a script has read. -/
inductive ScriptVar where
  | x | y
  deriving DecidableEq, Repr

/-- The values a script has read under those names. -/
structure ScriptVars where
  x : Word
  y : Word
  deriving DecidableEq, Repr

/-- A line of a host script (R116, R117). -/
inductive ScriptLine where
  /-- A host operation whose operands stand in the script. -/
  | op (o : HostOp)
  /-- `RD off -> v`: the word that `HostRead(off)` answers becomes the value of `v`. -/
  | readTo (off : Nat) (v : ScriptVar)
  /-- `WR off, v`: `HostWrite` of the value of `v`. -/
  | writeFrom (off : Nat) (v : ScriptVar)
  deriving DecidableEq, Repr

end Sys2Proof
end

