-- ==== Sys2Proof/WellFormed.lean ====
section
/-! DEFINITION. Which command fields and which host operations are well formed. -/

namespace Sys2Proof

/-- A command word is one of the seven (R101) when its reserved bits are 0, its `OPC` is at most `0x05`, and its
`MODE` is 0 unless `OPC` is DECODE's (R103). -/
def CmdFields.wellFormed (f : CmdFields) : Bool :=
  f.rsv == 0 && f.opc ≤ 5 && (f.mode == 0 || f.opc == 5)

/-- A command has no operand (R100), so every one is well formed. -/
def Instr.wellFormed (_ : Instr) : Bool := true

/-- The host accesses the window only by words at a multiple of 4 below `0x8000` (R82), and `MEM` only at addresses
that exist (R71). -/
def HostOp.wellFormed : HostOp → Bool
  | .read off => off % 4 == 0 && decide (off < Config.windowSize)
  | .write off _ => off % 4 == 0 && decide (off < Config.windowSize)
  | .store a bytes => decide (a + bytes.length ≤ Config.memSize)
  | .load a n => decide (a + n ≤ Config.memSize)

end Sys2Proof
end

