-- ==== Sys2Proof/Decode.lean ====
section
/-! DEFINITION. Decoding of command words (spec/30_encoding.md R100 to R106) and of window offsets (R108 to R111), each
total, and the two encoders written from the same tables. -/

namespace Sys2Proof

/-- What the decoder reads from a command word: one of the seven commands, or an illegal word with its cause. -/
inductive Decoded where
  | command (i : Instr)
  | illegal (cause : IllegalCause)
  deriving DecidableEq, Repr

/-- The fields of a command word (R100). -/
def cmdFields (w : Word) : CmdFields :=
  { rsv := w.extractLsb' 9 23, mode := w.extractLsb' 8 1, opc := w.extractLsb' 0 8 }

/-- The command word that has the given fields (R100). -/
def CmdFields.word (f : CmdFields) : Word := f.rsv ++ f.mode ++ f.opc

/-- R101 to R104: the seven command words, and the cause for which any other word is illegal (`BAD_OPC` when both
apply). -/
def decode (w : Word) : Decoded :=
  let f := cmdFields w
  if 5 < f.opc then .illegal .badOpc
  else if f.rsv ≠ 0 then .illegal .badRsv
  else if f.opc = 5 then .command (if f.mode = 0 then .decodeB else .decodeS)
  else if f.mode ≠ 0 then .illegal .badRsv
  else if f.opc = 0 then .command .nop
  else if f.opc = 1 then .command .count
  else if f.opc = 2 then .command .build
  else if f.opc = 3 then .command .gen
  else .command .encode

/-- The fields of each command (R101). -/
def Instr.fields : Instr → CmdFields
  | .nop     => { rsv := 0, mode := 0, opc := 0x00 }
  | .count   => { rsv := 0, mode := 0, opc := 0x01 }
  | .build   => { rsv := 0, mode := 0, opc := 0x02 }
  | .gen     => { rsv := 0, mode := 0, opc := 0x03 }
  | .encode  => { rsv := 0, mode := 0, opc := 0x04 }
  | .decodeB => { rsv := 0, mode := 0, opc := 0x05 }
  | .decodeS => { rsv := 0, mode := 1, opc := 0x05 }

/-- The command word of a command (R101). -/
def encode (i : Instr) : Word := i.fields.word

/-- The instruction the decoder reads from a row of spec/opcode_table.json whose `nbits` bits are `w`. The table's
row is the whole 32-bit command word; bits at and above `nbits` are 0. -/
def decodeTableWord (nbits w : Nat) : Option Instr :=
  match decode (BitVec.ofNat 32 (w % 2 ^ nbits)) with
  | .command i => some i
  | .illegal _ => none

/-- What the offset `off` of the register window names (R108 to R111); `off` is a multiple of 4 (R82). -/
def WindowReg.ofOffset (off : Nat) : WindowReg :=
  match off with
  | 0x0000 => .cmd
  | 0x0004 => .status
  | 0x0008 => .errInfo
  | 0x000C => .errSticky
  | 0x0010 => .srcAddr
  | 0x0014 => .srcLen
  | 0x0018 => .dstAddr
  | 0x001C => .dstCap
  | 0x0020 => .opBitsLo
  | 0x0024 => .opBitsHi
  | 0x0028 => .opSyms
  | 0x0030 => .resBitsLo
  | 0x0034 => .resBitsHi
  | 0x0038 => .resSyms
  | 0x003C => .resBytes
  | 0x0040 => .root
  | 0x0044 => .nleaf
  | 0x0048 => .nnode
  | _ =>
    if 0x0400 ≤ off ∧ off < 0x0800 then .freq (BitVec.ofNat 8 ((off - 0x0400) / 4))
    else if 0x4000 ≤ off ∧ off < 0x8000 then
      .code (BitVec.ofNat 8 ((off - 0x4000) / 64)) (Fin.ofNat 16 ((off - 0x4000) / 4))
    else if h : 0x1000 ≤ off ∧ off < 0x2FF0 then
      .node ⟨(off - 0x1000) / 16, by omega⟩ (Fin.ofNat 4 ((off - 0x1000) / 4))
    else .unused

/-- The byte offset of each listed register (R108 to R111); an unlisted offset has no name of its own. -/
def WindowReg.offset : WindowReg → Option Nat
  | .cmd       => some 0x0000
  | .status    => some 0x0004
  | .errInfo   => some 0x0008
  | .errSticky => some 0x000C
  | .srcAddr   => some 0x0010
  | .srcLen    => some 0x0014
  | .dstAddr   => some 0x0018
  | .dstCap    => some 0x001C
  | .opBitsLo  => some 0x0020
  | .opBitsHi  => some 0x0024
  | .opSyms    => some 0x0028
  | .resBitsLo => some 0x0030
  | .resBitsHi => some 0x0034
  | .resSyms   => some 0x0038
  | .resBytes  => some 0x003C
  | .root      => some 0x0040
  | .nleaf     => some 0x0044
  | .nnode     => some 0x0048
  | .freq x    => some (0x0400 + 4 * x.toNat)
  | .node i w  => some (0x1000 + 16 * i.val + 4 * w.val)
  | .code x w  => some (0x4000 + 64 * x.toNat + 4 * w.val)
  | .unused    => none

end Sys2Proof
end

