-- ==== Sys2Proof/Machine/State.lean ====
section
/-! DEFINITION. The state of HUFFCORE (spec/10_state.md R20 to R52), the platform it sits on, the host that drives it,
and the reasons a step can stop. -/

namespace Sys2Proof.Machine

/-- The fields of `STATUS` (R22). The reserved bits have no storage and read 0. -/
structure Status where
  /-- `ERR`, bits 3:0 (R113). -/
  err       : BitVec 4
  /-- `TREE_VALID`, bit 4 (R41). -/
  treeValid : Bool
  /-- `SUB`, bits 10:8 (R114). -/
  sub       : BitVec 3
  deriving DecidableEq, Repr

/-- The explicit tag of a `NODE` entry (R39). -/
inductive Tag where
  | empty | leaf | internal | placeholder
  deriving DecidableEq, Repr

/-- An entry of the Code Tree memory (R38). -/
structure Node where
  tag    : Tag
  sym    : Byte
  weight : Weight
  left   : Idx
  right  : Idx
  deriving DecidableEq, Repr

/-- The `EMPTY` entry with all fields 0 (R38, R41). -/
abbrev Node.unused : Node := { tag := .empty, sym := 0, weight := 0, left := 0, right := 0 }

/-- An entry of the Code Table (R40): `len = 0` is "no entry"; bit `k` of the code is `bits[255 - k]`. -/
structure CodeEntry where
  len  : BitVec 8
  bits : BitVec 256
  deriving DecidableEq, Repr

/-- The entry of a symbol that has no code (R40). -/
abbrev CodeEntry.none : CodeEntry := { len := 0, bits := 0 }

/-- The sequencer's phases (R49; R145, R168, R187, R210, R233). -/
inductive Phase where
  | idle
  | cClear | cScan
  | bClear | bLoad | bPh | bEx1 | bEx2 | bMerge | bRoot
  | gClear | gDescend | gAscend
  | eFetch | eLookup | eShift | eFlush
  | dCheck | dFetch | dWalk | dEmit | dFinal
  deriving DecidableEq, Repr

/-- The registers of U1 (R45): the priority queue as the list of its members, the next free index `k`, the scan
counter `s`, the extracted indices `a` and `b`. -/
structure MergeRegs where
  pq : List Idx
  k  : BitVec 10
  s  : BitVec 9
  a  : Idx
  b  : Idx
  deriving DecidableEq, Repr

/-- The walker registers of U2 (R46). -/
structure WalkRegs where
  cur   : Idx
  depth : BitVec 9
  path  : BitVec 256
  stk   : Vector Idx 256
  deriving DecidableEq, Repr

/-- The packer registers of U3 (R47). `sym` is the model's own: the symbol fetched in `E_FETCH`, which R47 gives no
register (log 9). -/
structure PackRegs where
  acc  : Byte
  nacc : BitVec 4
  i    : Word
  kbit : BitVec 8
  sym  : Byte
  deriving DecidableEq, Repr

/-- The unpacker and walker registers of U4 (R48). -/
structure UnpackRegs where
  cur : Byte
  j   : BitVec 64
  pos : Idx
  deriving DecidableEq, Repr

/-- The idle values of R50. -/
abbrev MergeRegs.idle : MergeRegs := { pq := [], k := 0, s := 0, a := 0, b := 0 }
abbrev WalkRegs.idle : WalkRegs := { cur := 0, depth := 0, path := 0, stk := Vector.replicate 256 0 }
abbrev PackRegs.idle : PackRegs := { acc := 0, nacc := 0, i := 0, kbit := 0, sym := 0 }
abbrev UnpackRegs.idle : UnpackRegs := { cur := 0, j := 0, pos := 0 }

/-- A range of addresses, `base` to `base + size - 1`. -/
structure Region where
  base : Nat
  size : Nat
  deriving DecidableEq, Repr

/-- What the platform fixes: the 32 KiB unit at which the register window stands when it lies in the engine's own
address space (`REG_BASE`, R91; D31), and the address ranges that do not answer the engine (`MemValid`, R72; D30). -/
structure Platform where
  window : Option (BitVec 17)
  holes  : List Region
  deriving DecidableEq, Repr

/-- The bytes of `MEM` that have been written (R71), as (address, byte) pairs with addresses strictly rising. -/
abbrev Memory := List Host.Cell

/-- The state of the machine. -/
structure State where
  -- command and status registers; `CMD` holds nothing (R21)
  status    : Status
  errInfo   : Word
  errSticky : Word
  -- operand registers
  srcAddr   : Word
  srcLen    : Word
  dstAddr   : Word
  dstCap    : Word
  opBitsLo  : Word
  opBitsHi  : Word
  opSyms    : Word
  -- result registers
  resBits   : BitVec 64
  resSyms   : Word
  resBytes  : Word
  -- tree registers
  root      : Idx
  nleaf     : BitVec 9
  nnode     : BitVec 10
  -- tables
  freq      : Vector Word 256
  node      : Vector Node 511
  code      : Vector CodeEntry 256
  -- sequencer level
  phase     : Phase
  /-- The `MODE` bit of the DECODE that is running; the model's own (log 9). -/
  mode      : Bool
  merge     : MergeRegs
  walk      : WalkRegs
  pack      : PackRegs
  unpack    : UnpackRegs
  -- the platform's
  mem       : Memory
  platform  : Platform
  -- the host's
  /-- The host operations still to be done (R11); the model's own (log 1). -/
  host      : List HostOp
  /-- What the host has received, oldest first; the model's own (log 2). -/
  replies   : List HostReply
  deriving DecidableEq, Repr

/-- R52, R300: after reset every piece of state is 0, the tables are empty and the sequencer is idle. `MEM` lists
nothing (log 3), the platform has no hole and no window in the engine's address space (log 4), and no host
operation is given (log 1). -/
def State.reset : State where
  status    := { err := 0, treeValid := false, sub := 0 }
  errInfo   := 0
  errSticky := 0
  srcAddr   := 0
  srcLen    := 0
  dstAddr   := 0
  dstCap    := 0
  opBitsLo  := 0
  opBitsHi  := 0
  opSyms    := 0
  resBits   := 0
  resSyms   := 0
  resBytes  := 0
  root      := 0
  nleaf     := 0
  nnode     := 0
  freq      := Vector.replicate 256 0
  node      := Vector.replicate 511 Node.unused
  code      := Vector.replicate 256 CodeEntry.none
  phase     := .idle
  mode      := false
  merge     := .idle
  walk      := .idle
  pack      := .idle
  unpack    := .idle
  mem       := []
  platform  := { window := none, holes := [] }
  host      := []
  replies   := []

/-- Why the machine stops. Neither reason can be met by a run from reset. -/
inductive Fault where
  /-- Raised by GEN, DECODE.B and DECODE.S when `TREE_VALID = 1` and `NODE` is not a tree.
  spec/93_implementation_defined.md I5 gives this no meaning (treatment `stuck`). Safe: only BUILD writes `NODE`, so
  no run from reset meets it (INV-T, R42). -/
  | brokenTree
  /-- Raised by a micro-step of BUILD that would extract from an empty queue, which R163's precondition excludes.
  Safe: only a state that no command leads to meets it. -/
  | brokenSequencer
  deriving DecidableEq, Repr

/-- Why an instruction has no meaning. -/
inductive Refusal where
  /-- An instruction whose arm of `exec` is not written yet. Safe. No arm of this model answers it. -/
  | notModelled (mnemonic : String)
  deriving DecidableEq, Repr

/-- The error conditions of R260 with what each one records (R267). -/
inductive Err where
  /-- `IoError(READ, a)` -/
  | ioRead (a : Nat)
  /-- `IoError(WRITE, a)` -/
  | ioWrite (a : Nat)
  /-- `IoError(CAPACITY, a)` -/
  | ioCapacity (a : Nat)
  /-- `UnknownSymbol(0, x)` -/
  | unknownSymbol (x : Byte)
  /-- `FormatError(OFF_ROOT, pos)` -/
  | offRoot (pos : Idx)
  /-- `FormatError(EXHAUSTED, pos)` -/
  | exhausted (pos : Idx)
  /-- `FormatError(OVERRUN, 0)` -/
  | overrun
  /-- `FormatError(PLACEHOLDER, pos)` -/
  | placeholder (pos : Idx)
  /-- `IllegalCommand(sub, w)` -/
  | illegalCommand (cause : IllegalCause) (w : Word)
  deriving DecidableEq, Repr

/-- How a part of a command leaves the machine: it goes on, the command has ended by `raise` (R266), or it has no
meaning. -/
inductive Ctl where
  | go (s : State)
  | ended (s : State)
  | stuck (f : Fault)
  deriving Repr

end Sys2Proof.Machine
end

