-- ==== Sys2Proof/Machine/Flags.lean ====
section
/-! DEFINITION. The flags of HUFFCORE (spec/10_state.md R54): `STATUS` with its fields, and `ERR_STICKY`; and the
numeric codes of the errors (spec/30_encoding.md R112 to R115). -/

namespace Sys2Proof.Machine

/-- R112: `ERR` in bits 3:0, `TREE_VALID` in bit 4, `SUB` in bits 10:8, the rest 0. -/
def Status.word (st : Status) : Word :=
  st.err.zeroExtend 32 ||| ((BitVec.ofBool st.treeValid).zeroExtend 32 <<< 4) ||| (st.sub.zeroExtend 32 <<< 8)

/-- R113: the value of `STATUS.ERR`. -/
def Err.code : Err → BitVec 4
  | .ioRead _ | .ioWrite _ | .ioCapacity _ => 1
  | .unknownSymbol _ => 2
  | .offRoot _ | .exhausted _ | .overrun | .placeholder _ => 3
  | .illegalCommand _ _ => 4

/-- R114: the value of `STATUS.SUB`. -/
def Err.sub : Err → BitVec 3
  | .ioRead _ => 1
  | .ioWrite _ => 2
  | .ioCapacity _ => 3
  | .unknownSymbol _ => 0
  | .offRoot _ => 1
  | .exhausted _ => 2
  | .overrun => 3
  | .placeholder _ => 4
  | .illegalCommand .badOpc _ => 1
  | .illegalCommand .badRsv _ => 2

/-- R267: the value of `ERR_INFO`; an address contributes its low 32 bits. -/
def Err.info : Err → Word
  | .ioRead a | .ioWrite a | .ioCapacity a => BitVec.ofNat 32 a
  | .unknownSymbol x => x.zeroExtend 32
  | .offRoot pos | .exhausted pos | .placeholder pos => pos.zeroExtend 32
  | .overrun => 0
  | .illegalCommand _ w => w

/-- R115: the bit of `ERR_STICKY` that an error sets. -/
def Err.stickyBit (e : Err) : Word := 1#32 <<< e.code.toNat

/-- The bits of `ERR_STICKY` in use, 4:1 (R24). -/
def stickyMask : Word := 0x1E

/-- R256: write-one-to-clear, restricted to bits 4:1. -/
def clearSticky (sticky v : Word) : Word := sticky &&& ~~~(v &&& stickyMask)

/-- R250 step (1): `STATUS.ERR`, `STATUS.SUB` and `ERR_INFO` are cleared, `TREE_VALID` is kept. -/
def clearError (s : State) : State :=
  { s with status := { s.status with err := 0, sub := 0 }, errInfo := 0 }

/-- `STATUS.TREE_VALID <- v`, by BUILD only (R22). -/
def setTreeValid (s : State) (v : Bool) : State :=
  { s with status := { s.status with treeValid := v } }

end Sys2Proof.Machine
end

