-- ==== Sys2Proof/Machine/Operands.lean ====
section
/-! DEFINITION. Operand assembly (spec/30_encoding.md R107), the views of the tables as words (R110, R111), and the bit
order of the stream (spec/20_memory.md R76). -/

namespace Sys2Proof.Machine

/-- R107: `OP_BITS = OP_BITS_HI * 2^32 + OP_BITS_LO`. -/
def State.opBits (s : State) : Nat := s.opBitsHi.toNat * 2 ^ 32 + s.opBitsLo.toNat

/-- The address of source byte `i`, an unbounded integer (R72, R107). -/
def State.srcByteAddr (s : State) (i : Nat) : Nat := s.srcAddr.toNat + i

/-- The address at which the next destination byte is due (R204, R226). -/
def State.dstByteAddr (s : State) : Nat := s.dstAddr.toNat + s.resBytes.toNat

/-- The address one past the destination buffer, which a `CAPACITY` error records (R262). -/
def State.dstEnd (s : State) : Nat := s.dstAddr.toNat + s.dstCap.toNat

/-- `FREQ[x]` (R37). -/
def State.freqAt (s : State) (x : Byte) : Word := s.freq[x.toNat]'x.isLt

/-- `CODE[x]` (R40). -/
def State.codeAt (s : State) (x : Byte) : CodeEntry := s.code[x.toNat]'x.isLt

/-- `NODE[i]` (R38); there is no entry 511. -/
def State.nodeAt (s : State) (i : Idx) : Option Node := s.node[i.toNat]?

/-- Bit `t` of a byte of the stream, `t = 0` being the first: the most significant bit (R76). -/
def streamBit (b : Byte) (t : Nat) : Bool := b.getLsbD (7 - t)

/-- `acc[7 - n] <- bit` (R201). -/
def putStreamBit (acc : Byte) (n : Nat) (bit : Bool) : Byte :=
  let m : Byte := 1#8 <<< (7 - n)
  if bit then acc ||| m else acc &&& ~~~m

/-- Bit `k` of a code, `c[k] = bits[255 - k]` (R40). -/
def CodeEntry.bit (e : CodeEntry) (k : Nat) : Bool := e.bits.getLsbD (255 - k)

/-- `v[i] <- bit` for a 256-bit register (R183). -/
def setPathBit (path : BitVec 256) (i : Nat) (bit : Bool) : BitVec 256 :=
  let m : BitVec 256 := 1#256 <<< i
  if bit then path ||| m else path &&& ~~~m

/-- R183: the 256-bit value with `bits[255 - t] = path[t]` for `t < n`, 0 elsewhere. -/
def leftAligned (path : BitVec 256) : Nat → BitVec 256
  | 0 => 0
  | n + 1 => setPathBit (leftAligned path n) (255 - n) (path.getLsbD n)

/-- R110: the numeric value of a tag. -/
def Tag.code : Tag → BitVec 2
  | .empty => 0
  | .leaf => 1
  | .internal => 2
  | .placeholder => 3

/-- R110: word `w` of a `NODE` record. -/
def Node.word (n : Node) (w : Fin 4) : Word :=
  match w with
  | 0 => n.tag.code.zeroExtend 32 ||| (n.sym.zeroExtend 32 <<< 8)
  | 1 => n.weight.extractLsb' 0 32
  | 2 => (n.weight.extractLsb' 32 8).zeroExtend 32
  | 3 => n.left.zeroExtend 32 ||| (n.right.zeroExtend 32 <<< 16)

/-- R111: word `w` of a `CODE` record; words 8 to 15 hold the code field, its most significant part first. -/
def CodeEntry.word (e : CodeEntry) (w : Fin 16) : Word :=
  if w.val = 0 then e.len.zeroExtend 32
  else if w.val < 8 then 0
  else e.bits.extractLsb' (224 - 32 * (w.val - 8)) 32

end Sys2Proof.Machine
end

