-- ==== Sys2Proof/Machine/Ops.lean ====
section
/-! DEFINITION. The operations every command shares: `MEM` and its validity (spec/20_memory.md R71 to R74), `raise`
(spec/60_exceptions.md R266, R270), the common start and end of a command (spec/45_system.md R250), and `PutByte`
(spec/43_encode.md R204). -/

namespace Sys2Proof.Machine

/-! ### Memory as data -/

/-- What is listed at an address; `none` is a byte nobody has written. -/
def Memory.find : Memory → Nat → Option Byte
  | [], _ => none
  | (a, v) :: rest, x => if a = x then some v else Memory.find rest x

/-- Writing a byte keeps the addresses strictly rising. -/
def Memory.write : Memory → Nat → Byte → Memory
  | [], x, v => [(x, v)]
  | (a, w) :: rest, x, v =>
    if x < a then (x, v) :: (a, w) :: rest
    else if x = a then (x, v) :: rest
    else (a, w) :: Memory.write rest x v

/-- Writing a row of bytes from address `x` on. -/
def Memory.writeAll : Memory → Nat → List Byte → Memory
  | m, _, [] => m
  | m, x, v :: vs => Memory.writeAll (Memory.write m x v) (x + 1) vs

/-- What a byte of `MEM` reads as: what was written there, else the free value of log 3. -/
def Memory.byte (m : Memory) (x : Nat) : Byte := (Memory.find m x).getD (Config.unwrittenByte x)

/-- The canonical form: addresses strictly rising and below 2^32. An unlisted address reads as "not written", which no
entry says. -/
abbrev Memory.wf (m : Memory) : Prop :=
  m.Pairwise (fun c d => c.1 < d.1) ∧ ∀ c ∈ m, c.1 < Config.memSize

/-! ### The platform -/

/-- The register window holds address `a` of the engine's address space (R70, R72). -/
def Platform.inWindow (p : Platform) (a : Nat) : Bool :=
  match p.window with
  | none => false
  | some base => decide (base.toNat * Config.windowSize ≤ a ∧ a < (base.toNat + 1) * Config.windowSize)

/-- The address lies in the range. -/
def Region.holds (r : Region) (a : Nat) : Bool := decide (r.base ≤ a ∧ a < r.base + r.size)

/-- R72: `MemValid(a)`: false at and above 2^32 and on the register window; the platform decides the rest. -/
def Platform.memValid (p : Platform) (a : Nat) : Bool :=
  decide (a < Config.memSize) && !p.inWindow a && !p.holes.any (fun r => r.holds a)

/-! ### The engine's accesses -/

/-- R73: `MemRead(a, 1)`: the byte, or `none` where `IoError(READ, a)` is raised. -/
def memRead (s : State) (a : Nat) : Option Byte :=
  if s.platform.memValid a then some (s.mem.byte a) else none

/-- R74: `MemWrite(a, 1, v)`: the byte is stored, or `none` where `IoError(WRITE, a)` is raised. -/
def memWrite (s : State) (a : Nat) (v : Byte) : Option State :=
  if s.platform.memValid a then some { s with mem := s.mem.write a v } else none

/-! ### Errors -/

/-- R266, R270: `raise`. The sticky bit is set; `STATUS.ERR`, `STATUS.SUB` and `ERR_INFO` are recorded unless an
error of this command is recorded already. The command ends; all else keeps its value. -/
def raise (s : State) (e : Err) : State :=
  let s := { s with errSticky := s.errSticky ||| e.stickyBit }
  if s.status.err = 0 then
    { s with status := { s.status with err := e.code, sub := e.sub }, errInfo := e.info }
  else s

/-! ### The start and the end of a command -/

/-- R250 step (1), the common start of every command; it is also the nearest thing to a return from an error
(R257, R271). -/
def beginCommand (s : State) : State := clearError s

/-- R250 step (4), R50: the sequencer is idle and the internal registers take their idle values. -/
def toIdle (s : State) : State :=
  { s with phase := .idle, mode := false, merge := .idle, walk := .idle, pack := .idle, unpack := .idle }

/-- The result registers are zeroed at the start of COUNT, ENCODE and DECODE (R31 to R33, D33). -/
def clearResults (s : State) : State := { s with resBits := 0, resSyms := 0, resBytes := 0 }

/-- One part of a command after another: the second runs only if the first goes on. -/
def Ctl.andThen (c : Ctl) (f : State → Ctl) : Ctl :=
  match c with
  | .go s => f s
  | .ended s => .ended s
  | .stuck e => .stuck e

/-- A bounded loop `for ... do body`: `n` iterations, less after a `raise`. -/
def Ctl.loop (body : State → Ctl) : Nat → State → Ctl
  | 0, s => .go s
  | n + 1, s => (body s).andThen (Ctl.loop body n)

/-- The end of a command, normal or by `raise` (R250 step (4)). -/
def Ctl.finish : Ctl → Host.Outcome State Fault Refusal
  | .go s => .next (toIdle s)
  | .ended s => .next (toIdle s)
  | .stuck f => .fault f

/-! ### The destination buffer -/

/-- R204, R226: a byte is put at `DST_ADDR + RES_BYTES`: first the capacity test, then the write, then the count. -/
def putByte (s : State) (v : Byte) : Ctl :=
  if s.resBytes = s.dstCap then .ended (raise s (.ioCapacity s.dstEnd))
  else
    match memWrite s s.dstByteAddr v with
    | none => .ended (raise s (.ioWrite s.dstByteAddr))
    | some t => .go { t with resBytes := t.resBytes + 1 }

end Sys2Proof.Machine
end

