-- ==== Sys2Proof/Machine/CodeGen.lean ====
section
/-! DEFINITION. U2, the code-table generator: GEN (spec/42_codegen.md R183). -/

namespace Sys2Proof.Machine

/-- Phase `G_CLEAR` (R183): `CODE` is emptied. -/
def clearCodes (s : State) : State := { s with code := Vector.replicate 256 CodeEntry.none }

/-- The walk starts at the root (R183). -/
def startWalk (s : State) : State :=
  { s with phase := .gDescend, walk := { WalkRegs.idle with cur := s.root } }

/-- `CODE[s]` for the leaf reached: `len` is the depth and `bits` the path, left-aligned (R183). -/
def recordCode (s : State) (x : Byte) : State :=
  let e : CodeEntry :=
    { len := s.walk.depth.truncate 8, bits := leftAligned s.walk.path s.walk.depth.toNat }
  { s with code := s.code.set x.toNat e x.isLt }

/-- `G_DESCEND` (R183), one node visit. A node that is `EMPTY` or no entry at all, a leaf at the root or a path
longer than `STK` has no meaning (I5, R187). -/
def walkDescend (s : State) : Ctl :=
  match s.nodeAt s.walk.cur with
  | none => .stuck .brokenTree
  | some n =>
    match n.tag with
    | .internal =>
      if h : s.walk.depth.toNat < 255 then
        .go { s with walk :=
          { cur := n.left
            depth := s.walk.depth + 1
            path := setPathBit s.walk.path s.walk.depth.toNat false
            stk := s.walk.stk.set s.walk.depth.toNat s.walk.cur (by omega) } }
      else .stuck .brokenTree
    | .leaf =>
      if s.walk.depth = 0 then .stuck .brokenTree
      else .go { recordCode s n.sym with phase := .gAscend }
    | .placeholder =>
      if s.walk.depth = 0 then .stuck .brokenTree
      else .go { s with phase := .gAscend }
    | .empty => .stuck .brokenTree

/-- `G_ASCEND` (R183), one level climbed; at depth 0 the walk is done and the phase is `IDLE` again. -/
def walkAscend (s : State) : Ctl :=
  if s.walk.depth = 0 then .go { s with phase := .idle }
  else
    let d := s.walk.depth - 1
    if s.walk.path.getLsbD d.toNat then .go { s with walk := { s.walk with depth := d } }
    else
      match s.nodeAt (s.walk.stk[d.toNat]?.getD 0) with
      | none => .stuck .brokenTree
      | some n =>
        .go { s with
          phase := .gDescend
          walk := { s.walk with
            path := setPathBit s.walk.path d.toNat true
            cur := n.right
            depth := d + 1 } }

/-- The loop of R183, at most `n` micro-steps. A walk of a tree takes `2 * NNODE` (R187); a walk that takes more is
no walk of a tree. -/
def walkLoop : Nat → State → Ctl
  | 0, s => if s.phase = .idle then .go s else .stuck .brokenTree
  | n + 1, s =>
    match s.phase with
    | .gDescend => (walkDescend s).andThen (walkLoop n)
    | .gAscend => (walkAscend s).andThen (walkLoop n)
    | _ => .go s

/-- `GEN` (R183); with no tree it ends after `G_CLEAR` (R182). -/
def execGen (s : State) : Host.Outcome State Fault Refusal :=
  let s := clearCodes (beginCommand s)
  if s.status.treeValid then (walkLoop (2 * 511) (startWalk s)).finish
  else (Ctl.go s).finish

end Sys2Proof.Machine
end

