-- ==== Sys2Proof/Machine/Counter.lean ====
section
/-! DEFINITION. U0, the frequency counter: COUNT (spec/40_count.md R141). -/

namespace Sys2Proof.Machine

/-- Phase `C_CLEAR` (R141): the result registers and every count are zeroed. -/
def clearCounts (s : State) : State :=
  { clearResults s with freq := Vector.replicate 256 0 }

/-- Phase `C_SCAN` (R141), one source byte; its index `i` is `RES_SYMS`. -/
def countByte (s : State) : Ctl :=
  let a := s.srcByteAddr s.resSyms.toNat
  match memRead s a with
  | none => .ended (raise s (.ioRead a))
  | some b =>
    .go { s with freq := s.freq.set b.toNat (s.freqAt b + 1) b.isLt, resSyms := s.resSyms + 1 }

/-- `COUNT` (R141). -/
def execCount (s : State) : Host.Outcome State Fault Refusal :=
  (Ctl.loop countByte s.srcLen.toNat (clearCounts (beginCommand s))).finish

end Sys2Proof.Machine
end

