-- ==== Sys2Proof/Machine/Decoder.lean ====
section
/-! DEFINITION. U4, the bitstream decoder: DECODE.B and DECODE.S (spec/44_decode.md R222 to R224). -/

namespace Sys2Proof.Machine

/-- The start of both DECODE commands (R222, R223): results zeroed, `pos <- ROOT`, `j <- 0`. -/
def startDecode (s : State) : State :=
  { clearResults s with unpack := { UnpackRegs.idle with pos := s.root } }

/-- Phase `D_FETCH` (R224, R225): the byte of bit `j` is read when its first bit is needed. -/
def fetchByte (s : State) : Ctl :=
  if s.unpack.j.toNat % 8 = 0 then
    let a := s.srcByteAddr (s.unpack.j.toNat / 8)
    match memRead s a with
    | none => .ended (raise s (.ioRead a))
    | some b => .go { s with unpack := { s.unpack with cur := b } }
  else .go s

/-- Phase `D_WALK` (R224): one bit down the tree, and `RES_BITS <- j + 1`. Reaching the placeholder raises (R228); a
walk that does not start at an internal node or reaches no node has no meaning (R224, I5). -/
def walkBit (s : State) : Ctl :=
  match s.nodeAt s.unpack.pos with
  | none => .stuck .brokenTree
  | some n =>
    if n.tag = .internal then
      let pos := if streamBit s.unpack.cur (s.unpack.j.toNat % 8) then n.right else n.left
      let t := { s with unpack := { s.unpack with pos := pos }, resBits := s.unpack.j + 1 }
      match s.nodeAt pos with
      | none => .stuck .brokenTree
      | some c =>
        match c.tag with
        | .internal => .go t
        | .leaf => .go t
        | .placeholder => .ended (raise t (.placeholder pos))
        | .empty => .stuck .brokenTree
    else .stuck .brokenTree

/-- Phase `D_EMIT` (R224, R226): at a leaf its symbol is written and the walk returns to the root. -/
def emitSymbol (s : State) : Ctl :=
  match s.nodeAt s.unpack.pos with
  | none => .go s
  | some n =>
    if n.tag = .leaf then
      (putByte s n.sym).andThen fun t =>
        .go { t with resSyms := t.resSyms + 1, unpack := { t.unpack with pos := t.root } }
    else .go s

/-- The next bit. -/
def nextBit (s : State) : State := { s with unpack := { s.unpack with j := s.unpack.j + 1 } }

/-- `Step(j)` (R224). -/
def decodeBit (s : State) : Ctl :=
  (((fetchByte s).andThen walkBit).andThen emitSymbol).andThen fun t => .go (nextBit t)

/-- `D_FINAL` of DECODE.B (R227): the walk must be back at the root. -/
def checkAtRoot (s : State) : Ctl :=
  if s.unpack.pos = s.root then .go s else .ended (raise s (.offRoot s.unpack.pos))

/-- `DECODE.B` (R222): no tree is no error (R221); more meaningful bits than bits is `OVERRUN` (R229). -/
def execDecodeB (s : State) : Host.Outcome State Fault Refusal :=
  let s := startDecode (beginCommand s)
  if !s.status.treeValid then (Ctl.go s).finish
  else if 8 * s.srcLen.toNat < s.opBits then (Ctl.ended (raise s .overrun)).finish
  else ((Ctl.loop decodeBit s.opBits s).andThen checkAtRoot).finish

/-- The loop of DECODE.S (R223) with `n` bits left in the source, `j = 8 * SRC_LEN - n`: it ends when `OP_SYMS`
symbols are written, and bits that run out before raise `EXHAUSTED` (R230). -/
def decodeUntilSyms : Nat → State → Ctl
  | 0, s => if s.resSyms < s.opSyms then .ended (raise s (.exhausted s.unpack.pos)) else .go s
  | n + 1, s =>
    if s.resSyms < s.opSyms then (decodeBit s).andThen (decodeUntilSyms n) else .go s

/-- `DECODE.S` (R223). -/
def execDecodeS (s : State) : Host.Outcome State Fault Refusal :=
  let s := startDecode (beginCommand s)
  if !s.status.treeValid then (Ctl.go s).finish
  else (decodeUntilSyms (8 * s.srcLen.toNat) s).finish

end Sys2Proof.Machine
end

