-- ==== Sys2Proof/Machine/Encoder.lean ====
section
/-! DEFINITION. U3, the bitstream encoder: ENCODE (spec/43_encode.md R201). -/

namespace Sys2Proof.Machine

/-- The start of ENCODE (R201): results, `acc` and `nacc` are zeroed. -/
def startEncode (s : State) : State := { clearResults s with pack := .idle }

/-- Phase `E_FETCH` (R201): the source symbol `i` is read; an invalid address raises `IoError(READ)`. -/
def fetchSymbol (s : State) : Ctl :=
  let a := s.srcByteAddr s.pack.i.toNat
  match memRead s a with
  | none => .ended (raise s (.ioRead a))
  | some x => .go { s with pack := { s.pack with sym := x } }

/-- Phase `E_LOOKUP` (R202, R205): a symbol without a code raises `UnknownSymbol`. -/
def lookupSymbol (s : State) : Ctl :=
  if (s.codeAt s.pack.sym).len = 0 then .ended (raise s (.unknownSymbol s.pack.sym))
  else .go { s with pack := { s.pack with kbit := 0 } }

/-- `acc <- 0 ; nacc <- 0`. -/
def emptyAcc (s : State) : State := { s with pack := { s.pack with acc := 0, nacc := 0 } }

/-- `PutByte(acc) ; acc <- 0 ; nacc <- 0` (R201). -/
def putAcc (s : State) : Ctl := (putByte s s.pack.acc).andThen fun t => .go (emptyAcc t)

/-- Phase `E_SHIFT` (R201, R203): one code bit enters the packer; the eighth bit of a byte writes it. -/
def shiftBit (s : State) : Ctl :=
  let bit := (s.codeAt s.pack.sym).bit s.pack.kbit.toNat
  let t := { s with
    pack := { s.pack with
      acc := putStreamBit s.pack.acc s.pack.nacc.toNat bit
      nacc := s.pack.nacc + 1
      kbit := s.pack.kbit + 1 }
    resBits := s.resBits + 1 }
  if t.pack.nacc = 8 then putAcc t else .go t

/-- `RES_SYMS <- i + 1`, and the next symbol. -/
def nextSymbol (s : State) : State :=
  { s with resSyms := s.pack.i + 1, pack := { s.pack with i := s.pack.i + 1 } }

/-- Phase `E_FLUSH` (R206): the partly filled byte is put, its low bits 0. -/
def flushAcc (s : State) : Ctl := if s.pack.nacc = 0 then .go s else putAcc s

/-- `IoError(READ)` and `UnknownSymbol` exit through the flush (R206); the error stays the one recorded (R270). -/
def exitThroughFlush (c : Ctl) : Ctl :=
  match c with
  | .go s => .go s
  | .ended s => (flushAcc s).andThen fun t => .ended t
  | .stuck f => .stuck f

/-- One source symbol: fetch, lookup, and its code bit by bit (R201). -/
def encodeSymbol (s : State) : Ctl :=
  (exitThroughFlush ((fetchSymbol s).andThen lookupSymbol)).andThen fun t =>
    (Ctl.loop shiftBit (t.codeAt t.pack.sym).len.toNat t).andThen fun u => .go (nextSymbol u)

/-- `ENCODE` (R201). -/
def execEncode (s : State) : Host.Outcome State Fault Refusal :=
  ((Ctl.loop encodeSymbol s.srcLen.toNat (startEncode (beginCommand s))).andThen flushAcc).finish

end Sys2Proof.Machine
end

