-- ==== Sys2Proof/Machine/System.lean ====
section
/-! DEFINITION. NOP and the illegal command (spec/45_system.md R254, R255). -/

namespace Sys2Proof.Machine

/-- `NOP` (R254): nothing beyond the common start of every command. -/
def execNop (s : State) : Host.Outcome State Fault Refusal :=
  (Ctl.go (beginCommand s)).finish

/-- R255: a word that is no command raises `IllegalCommand` and changes nothing else. -/
def illegalCommand (cause : IllegalCause) (w : Word) (s : State) : Host.Outcome State Fault Refusal :=
  (Ctl.ended (raise (beginCommand s) (.illegalCommand cause w))).finish

end Sys2Proof.Machine
end

