-- ==== Sys2Proof/Machine/TreeBuilder.lean ====
section
/-! DEFINITION. U1, the tree builder: BUILD (spec/41_build.md R153) with its priority queue (R157, R163). -/

namespace Sys2Proof.Machine

/-- The weight of node `i`, read for its key. Members of the queue are entries of `NODE` (R163), so an index
without an entry does not occur. -/
def nodeWeight (node : Vector Node 511) (i : Idx) : Weight :=
  (node[i.toNat]?.getD Node.unused).weight

/-- R157: the key of `i` is less than the key of `j`, the pairs (weight, index) compared lexicographically and
unsigned. -/
def keyLess (node : Vector Node 511) (i j : Idx) : Bool :=
  let wi := nodeWeight node i
  let wj := nodeWeight node j
  decide (wi < wj) || (decide (wi = wj) && decide (i < j))

/-- `PQ.insert(i)` (R163). The order in which the list holds the members means nothing. -/
def pqInsert (pq : List Idx) (i : Idx) : List Idx := i :: pq

/-- The member with the least key among `m` and `rest` (R163). -/
def pqLeast (node : Vector Node 511) (m : Idx) : List Idx → Idx
  | [] => m
  | i :: rest => pqLeast node (if keyLess node i m then i else m) rest

/-- `PQ.extractMin()` (R163): the member with the least key and the queue without it; `none` on the empty queue,
which the precondition excludes. -/
def pqExtractMin (node : Vector Node 511) : List Idx → Option (Idx × List Idx)
  | [] => none
  | i :: rest =>
    let m := pqLeast node i rest
    some (m, (i :: rest).erase m)

/-- Phase `B_CLEAR` (R153, R162): every `NODE` entry becomes `EMPTY`, `CODE` is emptied, `PQ` is empty and `k` is 0. -/
def clearTree (s : State) : State :=
  { s with
    node := Vector.replicate 511 Node.unused
    code := Vector.replicate 256 CodeEntry.none
    merge := .idle }

/-- `NODE[k] <- n ; PQ.insert(k) ; k <- k + 1` (R153). -/
def newNode (s : State) (n : Node) : State :=
  { s with
    node := s.node.setIfInBounds s.merge.k.toNat n
    merge := { s.merge with
      pq := pqInsert s.merge.pq (s.merge.k.truncate 9)
      k := s.merge.k + 1 } }

/-- Phase `B_LOAD` (R152), one symbol value: the scan counter `s` of U1. -/
def loadSymbol (s : State) : State :=
  let x : Byte := s.merge.s.truncate 8
  let f := s.freqAt x
  let t := if 0 < f then
      newNode s { tag := .leaf, sym := x, weight := f.zeroExtend 40, left := 0, right := 0 }
    else s
  { t with merge := { t.merge with s := t.merge.s + 1 } }

/-- `n` symbol values. -/
def loadSymbols : Nat → State → State
  | 0, s => s
  | n + 1, s => loadSymbols n (loadSymbol s)

/-- R151: "no tree". `NODE` and `CODE` are cleared already. -/
def noTree (s : State) : State :=
  { setTreeValid s false with root := 0, nleaf := 0, nnode := 0 }

/-- Phase `B_PH` (R155): the zero-weight placeholder leaf, which is `NODE[1]`. -/
def addPlaceholder (s : State) : State :=
  newNode s { tag := .placeholder, sym := 0, weight := 0, left := 0, right := 0 }

/-- `NLEAF <- k` (R153). -/
def setLeafCount (s : State) : State := { s with nleaf := s.merge.k.truncate 9 }

/-- Phase `B_EX1` (R153): `a <- PQ.extractMin()`; `none` if the precondition fails. -/
def extractFirst (s : State) : Option State :=
  (pqExtractMin s.node s.merge.pq).map fun (m, rest) =>
    { s with merge := { s.merge with a := m, pq := rest } }

/-- Phase `B_EX2` (R153): `b <- PQ.extractMin()`. -/
def extractSecond (s : State) : Option State :=
  (pqExtractMin s.node s.merge.pq).map fun (m, rest) =>
    { s with merge := { s.merge with b := m, pq := rest } }

/-- Phase `B_MERGE` (R153, R156, R159): the new internal node; the first-extracted child is `left`. -/
def mergePair (s : State) : State :=
  newNode s
    { tag := .internal, sym := 0
      weight := nodeWeight s.node s.merge.a + nodeWeight s.node s.merge.b
      left := s.merge.a, right := s.merge.b }

/-- One iteration of the `while |PQ| > 1` loop (R156). -/
def mergeOnce (s : State) : Option State :=
  ((extractFirst s).bind extractSecond).map mergePair

/-- `while |PQ| > 1`, at most `n` merges; each merge makes `PQ` one smaller (R156). -/
def mergeLoop : Nat → State → State
  | 0, s => s
  | n + 1, s =>
    if 1 < s.merge.pq.length then
      match mergeOnce s with
      | some t => mergeLoop n t
      | none => s
    else s

/-- Phase `B_ROOT` (R153): `ROOT <- PQ.extractMin() ; NNODE <- k ; TREE_VALID <- 1`; `none` if the precondition
fails. -/
def takeRoot (s : State) : Option State :=
  (pqExtractMin s.node s.merge.pq).map fun (m, rest) =>
    { setTreeValid s true with
      root := m, nnode := s.merge.k, merge := { s.merge with pq := rest } }

/-- What follows the leaves (R153): no tree, or the placeholder if there is one leaf, the merges and the root. -/
def buildFromLeaves (s : State) : State :=
  if s.merge.k = 0 then noTree s
  else
    let s := setLeafCount (if s.merge.k = 1 then addPlaceholder s else s)
    let s := mergeLoop s.merge.pq.length s
    (takeRoot s).getD s

/-- `BUILD` (R153). It raises nothing. -/
def execBuild (s : State) : Host.Outcome State Fault Refusal :=
  (Ctl.go (buildFromLeaves (loadSymbols 256 (clearTree (beginCommand s))))).finish

end Sys2Proof.Machine
end

