-- ==== Sys2Proof/Machine/HostPort.lean ====
section
/-! DEFINITION. The host's side: command issue (spec/45_system.md R250), `HostRead` (R252), `HostWrite` (R253), and the
host's own accesses to `MEM` (spec/20_memory.md R70). -/

namespace Sys2Proof.Machine

/-- R252, R108 to R112: the word a register of the window reads as; unused bits and unlisted offsets read 0. -/
def windowWord (s : State) : WindowReg → Word
  | .cmd       => 0
  | .status    => s.status.word
  | .errInfo   => s.errInfo
  | .errSticky => s.errSticky &&& stickyMask
  | .srcAddr   => s.srcAddr
  | .srcLen    => s.srcLen
  | .dstAddr   => s.dstAddr
  | .dstCap    => s.dstCap
  | .opBitsLo  => s.opBitsLo
  | .opBitsHi  => s.opBitsHi
  | .opSyms    => s.opSyms
  | .resBitsLo => s.resBits.extractLsb' 0 32
  | .resBitsHi => s.resBits.extractLsb' 32 32
  | .resSyms   => s.resSyms
  | .resBytes  => s.resBytes
  | .root      => s.root.zeroExtend 32
  | .nleaf     => s.nleaf.zeroExtend 32
  | .nnode     => s.nnode.zeroExtend 32
  | .freq x    => s.freqAt x
  | .node i w  => (s.node[i]).word w
  | .code x w  => (s.codeAt x).word w
  | .unused    => 0

/-- `HostRead(off)` (R252). -/
def hostRead (s : State) (off : Nat) : Word := windowWord s (WindowReg.ofOffset off)

/-- R81: the window seen as bytes by a platform that allows it, little-endian. -/
def windowByte (s : State) (a : Nat) : Byte := (hostRead s (a / 4 * 4)).extractLsb' (8 * (a % 4)) 8

/-- R253, R256: a write to a register other than `CMD`; a write to a read-only register or an unlisted offset is
ignored. -/
def windowWrite (s : State) (r : WindowReg) (v : Word) : State :=
  match r with
  | .errSticky => { s with errSticky := clearSticky s.errSticky v }
  | .srcAddr   => { s with srcAddr := v }
  | .srcLen    => { s with srcLen := v }
  | .dstAddr   => { s with dstAddr := v }
  | .dstCap    => { s with dstCap := v }
  | .opBitsLo  => { s with opBitsLo := v }
  | .opBitsHi  => { s with opBitsHi := v }
  | .opSyms    => { s with opSyms := v }
  | .freq x    => { s with freq := s.freq.set x.toNat v x.isLt }
  | .cmd | .status | .errInfo | .resBitsLo | .resBitsHi | .resSyms | .resBytes
  | .root | .nleaf | .nnode | .node _ _ | .code _ _ | .unused => s

/-- R250: a word written to `CMD` is decoded and its command runs to its end; any other word is illegal. -/
def issueCommand (s : State) (w : Word) : Host.Outcome State Fault Refusal :=
  match decode w with
  | .command i => exec i s
  | .illegal cause => illegalCommand cause w s

/-- `HostWrite(off, v)` (R253). -/
def hostWrite (s : State) (off : Nat) (v : Word) : Host.Outcome State Fault Refusal :=
  match WindowReg.ofOffset off with
  | .cmd => issueCommand s v
  | r => .next (windowWrite s r v)

/-- The bytes of `MEM` from address `a` on. -/
def Memory.bytesFrom (m : Memory) (a n : Nat) : List Byte := (List.range n).map fun i => m.byte (a + i)

/-- The host receives an answer. -/
def answer (s : State) (r : HostReply) : State := { s with replies := s.replies ++ [r] }

/-- One host operation with the engine idle (R11, R86). An access that R82 refuses is answered with a bus error and
changes nothing else. -/
def hostAccess (s : State) (op : HostOp) : Host.Outcome State Fault Refusal :=
  if op.wellFormed then
    match op with
    | .read off => .next (answer s (.word (hostRead s off)))
    | .write off v => hostWrite s off v
    | .store a bytes => .next { s with mem := s.mem.writeAll a bytes }
    | .load a n => .next (answer s (.bytes (s.mem.bytesFrom a n)))
  else .next (answer s .busError)

end Sys2Proof.Machine
end

