-- ==== Sys2Proof/Machine/Sequencer.lean ====
section
/-! DEFINITION. The sequencer level (spec/00_scope.md R6): the phases of spec/10_state.md R49 and one micro-step. The
command level (`exec`) is the composition of these from `IDLE` back to `IDLE`. -/

namespace Sys2Proof.Machine

/-- `phase <- P`; the phase `IDLE` is the end of the command (R250 step (4)). -/
def enterPhase (s : State) (p : Phase) : State :=
  if p = .idle then toIdle s else { s with phase := p }

/-- What a micro-step leaves: the next phase if the command goes on, `IDLE` if it has ended. -/
def Ctl.enter (c : Ctl) (next : State → Phase) : Host.Outcome State Fault Refusal :=
  match c with
  | .go s => .next (enterPhase s (next s))
  | .ended s => .next (toIdle s)
  | .stuck f => .fault f

/-- From `E_FETCH` and `E_LOOKUP` an error goes to `E_FLUSH` (R210). -/
def Ctl.enterOrFlush (c : Ctl) (next : State → Phase) : Host.Outcome State Fault Refusal :=
  match c with
  | .go s => .next (enterPhase s (next s))
  | .ended s => .next (enterPhase s .eFlush)
  | .stuck f => .fault f

/-- The issue of a command at the sequencer level (R49, R250): the common start, and the phase the command starts in
(R145, R168, R187, R210, R233). NOP goes straight back to `IDLE`, and ENCODE of an empty input starts in `E_FLUSH`. -/
def issueMicro (i : Instr) (s : State) : State :=
  let s := beginCommand s
  match i with
  | .nop => toIdle s
  | .count => enterPhase s .cClear
  | .build => enterPhase s .bClear
  | .gen => enterPhase s .gClear
  | .encode => enterPhase (startEncode s) (if s.srcLen = 0 then .eFlush else .eFetch)
  | .decodeB => enterPhase { startDecode s with mode := false } .dCheck
  | .decodeS => enterPhase { startDecode s with mode := true } .dCheck

/-- `G_CLEAR` (R187): with a tree the walk follows, else `IDLE`. -/
def microClearCodes (s : State) : Ctl :=
  let t := clearCodes s
  if t.status.treeValid then .go (startWalk t) else .go { t with phase := .idle }

/-- After `C_CLEAR` and after each source byte of COUNT: the next byte, or the end (R145). -/
def afterScan (s : State) : Phase := if s.resSyms = s.srcLen then .idle else .cScan

/-- After the leaves and the placeholder, and after each merge (R168): another merge while `|PQ| > 1`. -/
def afterMerge (s : State) : Phase := if 1 < s.merge.pq.length then .bEx1 else .bRoot

/-- A micro-step that needs a member of `PQ`. -/
def needQueue (s : Option State) : Ctl :=
  match s with
  | some t => .go t
  | none => .stuck .brokenSequencer

/-- `B_LOAD` (R168): the last symbol value is followed by no tree, the placeholder or the merges. -/
def microLoad (s : State) : Ctl :=
  let s := loadSymbol s
  if s.merge.s = 256 then
    if s.merge.k = 0 then .go { noTree s with phase := .idle }
    else if s.merge.k = 1 then .go { s with phase := .bPh }
    else
      let t := setLeafCount s
      .go { t with phase := afterMerge t }
  else .go { s with phase := .bLoad }

/-- `E_SHIFT` (R210): once per code bit; the last bit of the symbol is followed by the next symbol or the flush. -/
def microShift (s : State) : Ctl :=
  (shiftBit s).andThen fun t =>
    if t.pack.kbit = (t.codeAt t.pack.sym).len then
      let u := nextSymbol t
      .go { u with phase := if u.pack.i = u.srcLen then .eFlush else .eFetch }
    else .go { t with phase := .eShift }

/-- Before bit `j` (R222, R223, R233): the end of the loop, `EXHAUSTED` in DECODE.S, or the bit itself. -/
def beforeBit (s : State) : Ctl :=
  let bit : Phase := if s.unpack.j.toNat % 8 = 0 then .dFetch else .dWalk
  if s.mode then
    if s.resSyms < s.opSyms then
      if s.unpack.j.toNat = 8 * s.srcLen.toNat then .ended (raise s (.exhausted s.unpack.pos))
      else .go { s with phase := bit }
    else .go { s with phase := .dFinal }
  else if s.unpack.j.toNat = s.opBits then .go { s with phase := .dFinal }
  else .go { s with phase := bit }

/-- `D_CHECK` (R233): tree present, and the `OVERRUN` test of DECODE.B. -/
def microCheck (s : State) : Ctl :=
  if !s.status.treeValid then .go { s with phase := .idle }
  else if !s.mode && decide (8 * s.srcLen.toNat < s.opBits) then .ended (raise s .overrun)
  else beforeBit s

/-- `D_WALK` (R233): `D_EMIT` follows when a `LEAF` was reached. -/
def microWalk (s : State) : Ctl :=
  (walkBit s).andThen fun t =>
    if (t.nodeAt t.unpack.pos).map Node.tag = some .leaf then .go { t with phase := .dEmit }
    else beforeBit (nextBit t)

/-- One micro-step of the running command. -/
def microStep (s : State) : Host.Outcome State Fault Refusal :=
  match s.phase with
  | .idle => .next s
  | .cClear => (Ctl.go (clearCounts s)).enter afterScan
  | .cScan => (countByte s).enter afterScan
  | .bClear => (Ctl.go (clearTree s)).enter fun _ => .bLoad
  | .bLoad => (microLoad s).enter State.phase
  | .bPh => (Ctl.go (setLeafCount (addPlaceholder s))).enter afterMerge
  | .bEx1 => (needQueue (extractFirst s)).enter fun _ => .bEx2
  | .bEx2 => (needQueue (extractSecond s)).enter fun _ => .bMerge
  | .bMerge => (Ctl.go (mergePair s)).enter afterMerge
  | .bRoot => (needQueue (takeRoot s)).enter fun _ => .idle
  | .gClear => (microClearCodes s).enter State.phase
  | .gDescend => (walkDescend s).enter State.phase
  | .gAscend => (walkAscend s).enter State.phase
  | .eFetch => (fetchSymbol s).enterOrFlush fun _ => .eLookup
  | .eLookup => (lookupSymbol s).enterOrFlush fun _ => .eShift
  | .eShift => (microShift s).enter State.phase
  | .eFlush => (flushAcc s).enter fun _ => .idle
  | .dCheck => (microCheck s).enter State.phase
  | .dFetch => (fetchByte s).enter fun _ => .dWalk
  | .dWalk => (microWalk s).enter State.phase
  | .dEmit => ((emitSymbol s).andThen fun t => beforeBit (nextBit t)).enter State.phase
  | .dFinal => (if s.mode then Ctl.go s else checkAtRoot s).enter fun _ => .idle

/-- Micro-steps until the phase is `IDLE`, at most `n`. -/
def runMicro : Nat → State → Host.Outcome State Fault Refusal
  | 0, s => .next s
  | n + 1, s =>
    if s.phase = .idle then .next s
    else
      match microStep s with
      | .next t => runMicro n t
      | .fault f => .fault f
      | .refused r => .refused r

/-- R321: a bound on the micro-steps of a command, from its operands. -/
def microBound (i : Instr) (s : State) : Nat :=
  match i with
  | .nop => 0
  | .count => 256 + s.srcLen.toNat
  | .build => 1 + 256 + 1 + 3 * 255 + 1
  | .gen => 256 + 2 * 511
  | .encode => 257 * s.srcLen.toNat + 1
  | .decodeB => 3 * 8 * s.srcLen.toNat + 2
  | .decodeS => 3 * 8 * s.srcLen.toNat + 2

end Sys2Proof.Machine
end

