-- ==== Sys2Proof/Machine/Step.lean ====
section
/-! DEFINITION. One step of the machine (spec/20_memory.md R86): the host moves while the engine is idle, the engine
while it is not. -/

namespace Sys2Proof.Machine

/-- With the engine idle, the first host operation is done, a write to `CMD` running its whole command (R251); with no
operation left the engine waits (R302). In a phase other than `IDLE`, which no step from an idle state leaves, the
running command makes one micro-step (R6). -/
def step (s : State) : Host.Outcome State Fault Refusal :=
  match s.phase with
  | .idle =>
    match s.host with
    | [] => .next s
    | op :: rest => hostAccess { s with host := rest } op
  | _ => microStep s

/-- `s` with the host about to write the command word `w` to `CMD`, the place HUFFCORE takes its next command from
(R100, R250); nothing else changes. -/
def State.withFetchWord (s : State) (nbits w : Nat) : State :=
  { s with host := .write 0x0000 (BitVec.ofNat 32 (w % 2 ^ nbits)) :: s.host }

end Sys2Proof.Machine
end

