-- ==== Sys2Proof/Machine/Heap.lean ====
section
/-! DEFINITION. The heap organisation of the priority queue (spec/41_build.md R164): `HEAP[0 .. HEAPN-1]` is a list and
`HEAPN` its length. The abstract queue of `TreeBuilder` is normative; this is the conforming organisation R164 gives. -/

namespace Sys2Proof.Machine

/-- `HEAP[p]`; read only at positions below `HEAPN`. -/
def heapAt (h : List Idx) (p : Nat) : Idx := h.getD p 0

/-- `key(HEAP[p]) < key(HEAP[q])`. -/
def heapLess (node : Vector Node 511) (h : List Idx) (p q : Nat) : Bool :=
  keyLess node (heapAt h p) (heapAt h q)

/-- `swap HEAP[p], HEAP[q]`. -/
def heapSwap (h : List Idx) (p q : Nat) : List Idx := (h.set p (heapAt h q)).set q (heapAt h p)

/-- The `while` loop of `insert`, from position `c` up; at most `c` rounds. -/
def siftUp (node : Vector Node 511) : Nat → Nat → List Idx → List Idx
  | 0, _, h => h
  | fuel + 1, c, h =>
    if 0 < c && heapLess node h c ((c - 1) / 2) then
      siftUp node fuel ((c - 1) / 2) (heapSwap h c ((c - 1) / 2))
    else h

/-- `insert(i)`. -/
def heapInsert (node : Vector Node 511) (h : List Idx) (i : Idx) : List Idx :=
  siftUp node h.length h.length (h ++ [i])

/-- The position `t` of one round of `extractMin`'s loop at `p`: the least of `p` and its children. -/
def leastChild (node : Vector Node 511) (h : List Idx) (p : Nat) : Nat :=
  let t := if decide (2 * p + 1 < h.length) && heapLess node h (2 * p + 1) p then 2 * p + 1 else p
  if decide (2 * p + 2 < h.length) && heapLess node h (2 * p + 2) t then 2 * p + 2 else t

/-- The loop of `extractMin`, from position `p` down. -/
def siftDown (node : Vector Node 511) : Nat → Nat → List Idx → List Idx
  | 0, _, h => h
  | fuel + 1, p, h =>
    let t := leastChild node h p
    if t = p then h else siftDown node fuel t (heapSwap h t p)

/-- `extractMin()`; `none` on the empty heap. -/
def heapExtractMin (node : Vector Node 511) : List Idx → Option (Idx × List Idx)
  | [] => none
  | m :: rest =>
    match rest.getLast? with
    | none => some (m, [])
    | some last => some (m, siftDown node rest.length 0 (last :: rest.dropLast))

end Sys2Proof.Machine
end

