-- ==== Sys2Proof/Machine/Script.lean ====
section
/-! DEFINITION. Host scripts (spec/30_encoding.md R116, R117): the pseudo-instructions that stand for the document's
driver, as lists of script lines, and their running. -/

namespace Sys2Proof

/-- The value of a name. -/
def ScriptVars.get (e : ScriptVars) : ScriptVar → Word
  | .x => e.x
  | .y => e.y

/-- A name takes a value. -/
def ScriptVars.set (e : ScriptVars) (v : ScriptVar) (w : Word) : ScriptVars :=
  match v with
  | .x => { e with x := w }
  | .y => { e with y := w }

/-- The host operation of a line. -/
def ScriptLine.hostOp (e : ScriptVars) : ScriptLine → HostOp
  | .op o => o
  | .readTo off _ => .read off
  | .writeFrom off v => .write off (e.get v)

/-- The operation is a write to `CMD`. -/
def HostOp.isCommand : HostOp → Bool
  | .write 0 _ => true
  | _ => false

end Sys2Proof

namespace Sys2Proof.Machine

/-- A command line of a script: its word written to `CMD` (R116). -/
def Script.command (i : Instr) : ScriptLine := .op (.write 0x0000 (encode i))

/-- `SETSRC a, n` (R117). -/
def Script.setSrc (a n : Word) : List ScriptLine := [.op (.write 0x0010 a), .op (.write 0x0014 n)]

/-- `SETDST a, n` (R117). -/
def Script.setDst (a n : Word) : List ScriptLine := [.op (.write 0x0018 a), .op (.write 0x001C n)]

/-- `TABLES` (R117). -/
def Script.tables : List ScriptLine := [Script.command .count, Script.command .build, Script.command .gen]

/-- `COMPRESS` (R117). -/
def Script.compress : List ScriptLine := Script.tables ++ [Script.command .encode]

/-- `USEBITS` (R117): `OP_BITS` takes the value of `RES_BITS`. -/
def Script.useBits : List ScriptLine :=
  [.readTo 0x0030 .x, .readTo 0x0034 .y, .writeFrom 0x0020 .x, .writeFrom 0x0024 .y]

/-- `USESYMS` (R117): `OP_SYMS` takes the value of `RES_SYMS`. -/
def Script.useSyms : List ScriptLine := [.readTo 0x0038 .x, .writeFrom 0x0028 .x]

/-- `DECOMPRESS.B` (R117). -/
def Script.decompressB : List ScriptLine := [Script.command .decodeB]

/-- `DECOMPRESS.S` (R117). -/
def Script.decompressS : List ScriptLine := [Script.command .decodeS]

/-- The values after a line whose operation left the state `t`: a name that was read takes the word the host received. A
read that is refused binds nothing (log 18). -/
def bindRead (e : ScriptVars) (t : State) : ScriptLine → ScriptVars
  | .op _ => e
  | .readTo _ v =>
    match t.replies.getLast? with
    | some (.word w) => e.set v w
    | _ => e
  | .writeFrom _ _ => e

/-- The lines run in order; a script stops at the first command that leaves `STATUS.ERR` not 0 (R117). -/
def runScript : List ScriptLine → ScriptVars → State → Host.Outcome State Fault Refusal
  | [], _, s => .next s
  | line :: rest, e, s =>
    match hostAccess s (line.hostOp e) with
    | .next t =>
      if HostOp.isCommand (line.hostOp e) && t.status.err != 0 then .next t
      else runScript rest (bindRead e t line) t
    | .fault f => .fault f
    | .refused r => .refused r

/-- A script from its first line. A name that no line has read has the value 0 (log 18). -/
def Script.run (lines : List ScriptLine) (s : State) : Host.Outcome State Fault Refusal :=
  runScript lines { x := 0, y := 0 } s

end Sys2Proof.Machine
end

