-- ==== Sys2Proof/Safety.lean ====
section
/-! DEFINITION. The terms claims are stated in: the stream formats of spec/20_memory.md section 2, codes as paths
(spec/42_codegen.md R181), and the invariants of spec/10_state.md section 6. -/

namespace Sys2Proof.Machine

/-! ### The stream -/

/-- Byte `q` of the packing of `b` (R77, R78): bit `7 - t` is `b[8q + t]`, and 0 where `b` has no such bit. -/
def packByte (b : List Bool) (q : Nat) : Byte :=
  (List.range 8).foldl (fun acc t => putStreamBit acc t (b.getD (8 * q + t) false)) 0

/-- `pack(b)` (R77). -/
def packBits (b : List Bool) : List Byte := (List.range ((b.length + 7) / 8)).map (packByte b)

/-- The first `n` bits of the Bitstream stored from address `a` (R76). -/
def streamFrom (m : Memory) (a n : Nat) : List Bool :=
  (List.range n).map fun j => streamBit (m.byte (a + j / 8)) (j % 8)

/-- The bit sequence of a Code Table entry (R40). -/
def CodeEntry.bitList (e : CodeEntry) : List Bool := (List.range e.len.toNat).map e.bit

/-- The Bitstream of a symbol sequence (R200): the codes concatenated in input order. -/
def encodedBits (s : State) (xs : List Byte) : List Bool := xs.flatMap fun x => (s.codeAt x).bitList

/-- The bytes of the source buffer (R80, R83). -/
def State.srcBytes (s : State) : List Byte := s.mem.bytesFrom s.srcAddr.toNat s.srcLen.toNat

/-- The first `n` source bytes are at valid addresses (R72). -/
def State.srcValid (s : State) (n : Nat) : Prop := ∀ i < n, s.platform.memValid (s.srcByteAddr i) = true

/-- The first `n` destination bytes are at valid addresses. -/
def State.dstValid (s : State) (n : Nat) : Prop := ∀ i < n, s.platform.memValid (s.dstAddr.toNat + i) = true

/-- The first `n` source bytes and the first `m` destination bytes do not overlap (R85, R314). -/
def State.disjointBuffers (s : State) (n m : Nat) : Prop :=
  ∀ i < n, ∀ k < m, s.srcByteAddr i ≠ s.dstAddr.toNat + k

/-- `m'` holds `bs` from address `a` on and every other byte as `m` does. -/
def Memory.storedAt (m m' : Memory) (a : Nat) (bs : List Byte) : Prop :=
  (∀ i (h : i < bs.length), m'.byte (a + i) = bs[i]) ∧
  ∀ x, (x < a ∨ a + bs.length ≤ x) → m'.byte x = m.byte x

/-! ### How a command ends -/

/-- `s` at the end of a command that changed nothing but what every command writes: `STATUS.ERR`, `STATUS.SUB` and
`ERR_INFO` as given, the given bits of `ERR_STICKY` set, the engine idle (R250, R266, R50). `commandEnd s 0 0 0 0` is
the end without error. -/
def State.commandEnd (s : State) (err : BitVec 4) (sub : BitVec 3) (info sticky : Word) : State :=
  { s with
    status := { err := err, treeValid := s.status.treeValid, sub := sub }
    errInfo := info
    errSticky := s.errSticky ||| sticky
    phase := .idle
    mode := false
    merge := .idle
    walk := .idle
    pack := .idle
    unpack := .idle }

/-- The Frequency Table of a byte sequence (R140, R141): every entry is the number of occurrences. -/
def isFreqOf (f : Vector Word 256) (bs : List Byte) : Prop :=
  ∀ x : Byte, (f[x.toNat]'x.isLt).toNat = bs.count x

/-- The keys of the Frequency Table in ascending order (R37, R152). -/
def presentSymbols (s : State) : List Byte :=
  ((List.range 256).map (BitVec.ofNat 8)).filter fun x => decide (0 < s.freqAt x)

/-! ### Paths -/

/-- R181: the node reached from `p` by a bit sequence, 0 to the left and 1 to the right, passing only `INTERNAL`
nodes. -/
def followPath (node : Vector Node 511) : Idx → List Bool → Option Idx
  | p, [] => some p
  | p, b :: bs =>
    match node[p.toNat]? with
    | none => none
    | some n => if n.tag = .internal then followPath node (if b then n.right else n.left) bs else none

/-- Entry `i` is the `LEAF` of symbol `x`. -/
def leafOf (node : Vector Node 511) (i : Idx) (x : Byte) : Prop :=
  ∃ n, node[i.toNat]? = some n ∧ n.tag = .leaf ∧ n.sym = x

/-- R181: `c` is the code of `x`, its path from the root. -/
def isCodeOf (s : State) (c : List Bool) (x : Byte) : Prop :=
  ∃ i, followPath s.node s.root c = some i ∧ leafOf s.node i x

/-! ### Invariants -/

/-- R41: "no tree". -/
def NoTree (s : State) : Prop :=
  s.status.treeValid = false ∧ s.root = 0 ∧ s.nleaf = 0 ∧ s.nnode = 0 ∧
    s.node = Vector.replicate 511 Node.unused

/-- All `left` and `right` fields of the `INTERNAL` entries. -/
def childList (node : Vector Node 511) : List Nat :=
  node.toList.flatMap fun n => if n.tag = .internal then [n.left.toNat, n.right.toNat] else []

/-- R42, the case `TREE_VALID = 1`. -/
structure TreeShape (s : State) : Prop where
  valid : s.status.treeValid = true
  leaves_ge : 2 ≤ s.nleaf.toNat
  leaves_le : s.nleaf.toNat ≤ 256
  nodes : s.nnode.toNat + 1 = 2 * s.nleaf.toNat
  root_last : s.root.toNat + 1 = s.nnode.toNat
  leaf : ∀ i (h : i < 511), i < s.nleaf.toNat →
    (s.node[i].tag = .leaf ∨ (s.node[i].tag = .placeholder ∧ s.node[i].sym = 0 ∧ i = 1 ∧ s.nleaf.toNat = 2)) ∧
      s.node[i].left = 0 ∧ s.node[i].right = 0
  ascending : ∀ i j (hi : i < 511) (hj : j < 511), i < j → j < s.nleaf.toNat →
    s.node[i].tag = .leaf → s.node[j].tag = .leaf → s.node[i].sym < s.node[j].sym
  internal : ∀ i (h : i < 511), s.nleaf.toNat ≤ i → i < s.nnode.toNat →
    s.node[i].tag = .internal ∧ s.node[i].sym = 0 ∧
      s.node[i].left.toNat < i ∧ s.node[i].right.toNat < i ∧ s.node[i].left ≠ s.node[i].right
  once : ∀ c, c + 1 < s.nnode.toNat → (childList s.node).count c = 1
  rest_empty : ∀ i (h : i < 511), s.nnode.toNat ≤ i → s.node[i] = Node.unused

/-- INV-T (R42). -/
def InvT (s : State) : Prop := NoTree s ∨ TreeShape s

/-- INV-W (R43): an internal weight is the exact sum of its children's, a leaf's weight is a count of at least 1, the
placeholder's is 0. That a leaf's weight is the count `FREQ` had when BUILD ran is said of BUILD itself. -/
def InvW (s : State) : Prop :=
  ∀ i (h : i < 511),
    (s.node[i].tag = .internal →
      s.node[i].weight.toNat =
        (nodeWeight s.node s.node[i].left).toNat + (nodeWeight s.node s.node[i].right).toNat) ∧
    (s.node[i].tag = .leaf → 1 ≤ s.node[i].weight.toNat ∧ s.node[i].weight.toNat < 2 ^ 32) ∧
    (s.node[i].tag = .placeholder → s.node[i].weight = 0)

/-- INV-C (R44): the Code Table is empty, or it is the table of the present tree. -/
def InvC (s : State) : Prop :=
  (∀ x, s.codeAt x = CodeEntry.none) ∨
  (s.status.treeValid = true ∧ ∀ x,
    (0 < (s.codeAt x).len.toNat ↔ ∃ i, leafOf s.node i x) ∧
    (0 < (s.codeAt x).len.toNat → isCodeOf s (s.codeAt x).bitList x) ∧
    ∀ k, (s.codeAt x).len.toNat ≤ k → k < 256 → (s.codeAt x).bit k = false)

/-- R114: the (`ERR`, `SUB`) pairs that are produced, with no sub-cause and no information when `ERR = 0`. -/
def StatusLegal (s : State) : Prop :=
  (s.status.err = 0 ∧ s.status.sub = 0 ∧ s.errInfo = 0) ∨
  (s.status.err = 1 ∧ (s.status.sub = 1 ∨ s.status.sub = 2 ∨ s.status.sub = 3)) ∨
  (s.status.err = 2 ∧ s.status.sub = 0) ∨
  (s.status.err = 3 ∧ (s.status.sub = 1 ∨ s.status.sub = 2 ∨ s.status.sub = 3 ∨ s.status.sub = 4)) ∨
  (s.status.err = 4 ∧ (s.status.sub = 1 ∨ s.status.sub = 2))

/-- R24: bits 0 and 31:5 of `ERR_STICKY` are 0. -/
def StickyLegal (s : State) : Prop := s.errSticky &&& ~~~stickyMask = 0

/-- What every step keeps. -/
structure Inv (s : State) : Prop where
  /-- The internal state has its idle values (R50). -/
  idle : toIdle s = s
  tree : InvT s
  weights : InvW s
  codes : InvC s
  status : StatusLegal s
  sticky : StickyLegal s
  memory : s.mem.wf

end Sys2Proof.Machine
end

