-- ==== Sys2Proof/Certificates/Slice0/Obligations.lean ====
section
/-! DEFINITION. The statements for the provers. Each formalises rules of `spec/`, named in its comment; what the model
chose is said to be the model's. `s.commandEnd 0 0 0 0` is `s` at the end of a command without error. -/

open Sys2Proof Sys2Proof.Machine

/-! ### Encoding -/

/-- R101, R104: the seven command words; a word decodes to a command exactly when it is that command's word, and to
`BAD_OPC` or `BAD_RSV` when it is none of them. -/
def Obligations.DecodeAcceptsExactlyTheSevenWords : Prop :=
  (encode .nop = 0x00000000 ∧ encode .count = 0x00000001 ∧ encode .build = 0x00000002 ∧ encode .gen = 0x00000003 ∧
    encode .encode = 0x00000004 ∧ encode .decodeB = 0x00000005 ∧ encode .decodeS = 0x00000105) ∧
  (∀ (w : Word) (i : Instr), decode w = .command i ↔ w = encode i) ∧
  ∀ w : Word, (∀ i, w ≠ encode i) → decode w = .illegal (if 5 < w.toNat % 256 then .badOpc else .badRsv)

/-- R101, R104: the seven words of the table, and four illegal words with their causes. -/
def Obligations.SpecWordsDecode : Prop :=
  decode 0x00000000 = .command .nop ∧ decode 0x00000001 = .command .count ∧
  decode 0x00000002 = .command .build ∧ decode 0x00000003 = .command .gen ∧
  decode 0x00000004 = .command .encode ∧ decode 0x00000005 = .command .decodeB ∧
  decode 0x00000105 = .command .decodeS ∧
  decode 0x00000006 = .illegal .badOpc ∧ decode 0x00000104 = .illegal .badRsv ∧
  decode 0x80000002 = .illegal .badRsv ∧ decode 0x80000106 = .illegal .badOpc

/-- R108 to R111: every listed register has an aligned offset inside the window that names it again, and an offset that
names a listed register is that register's. -/
def Obligations.WindowOffsetsRoundTrip : Prop :=
  (∀ (r : WindowReg) (off : Nat), r.offset = some off →
    off % 4 = 0 ∧ off < 0x8000 ∧ WindowReg.ofOffset off = r) ∧
  (∀ off, off % 4 = 0 → off < 0x8000 → WindowReg.ofOffset off ≠ .unused →
    (WindowReg.ofOffset off).offset = some off)

/-! ### The step and the host -/

/-- R250: with the engine idle, a write to `CMD` of a word that decodes to a command runs that command's meaning on the
state without the host operation; and so does the word `withFetchWord` places. -/
def Obligations.StepRunsTheDecodedCommand : Prop :=
  (∀ (s : State) (w : Word) (i : Instr) (rest : List HostOp),
    s.phase = .idle → s.host = .write 0x0000 w :: rest → decode w = .command i → i.wellFormed = true →
    step s = exec i { s with host := rest }) ∧
  (∀ (s : State) (nbits w : Nat) (i : Instr),
    s.phase = .idle → decodeTableWord nbits w = some i → step (s.withFetchWord nbits w) = exec i s)

/-- R255: any other word written to `CMD` raises `IllegalCommand` and changes nothing else. -/
def Obligations.IllegalWordIsRecorded : Prop :=
  ∀ (s : State) (w : Word) (rest : List HostOp),
    s.phase = .idle → s.host = .write 0x0000 w :: rest → (∀ i, w ≠ encode i) →
    step s = .next ({ s with host := rest }.commandEnd 4 (if 5 < w.toNat % 256 then 1 else 2) w 0x10)

/-- R82: a host access that is not an aligned word inside the window (or, the model's choice of log 5, bytes of `MEM`
that do not exist) is answered with a bus error, and nothing else changes. -/
def Obligations.RefusedAccessChangesNothing : Prop :=
  ∀ (s : State) (op : HostOp) (rest : List HostOp),
    s.phase = .idle → s.host = op :: rest →
    (match op with
      | .read off => off % 4 ≠ 0 ∨ 0x8000 ≤ off
      | .write off _ => off % 4 ≠ 0 ∨ 0x8000 ≤ off
      | .store a bytes => 2 ^ 32 < a + bytes.length
      | .load a n => 2 ^ 32 < a + n) →
    step s = .next { s with host := rest, replies := s.replies ++ [.busError] }

/-- R252, R108, R112: `HostRead` of an aligned offset answers the word there and changes no state; and the words of the
registers and of `FREQ`. -/
def Obligations.HostReadAnswersTheRegister : Prop :=
  (∀ (s : State) (off : Nat) (rest : List HostOp),
    s.phase = .idle → s.host = .read off :: rest → off % 4 = 0 → off < 0x8000 →
    step s = .next { s with host := rest, replies := s.replies ++ [.word (hostRead s off)] }) ∧
  ∀ s : State,
    hostRead s 0x0000 = 0 ∧
    (hostRead s 0x0004).toNat = s.status.err.toNat + 16 * s.status.treeValid.toNat + 256 * s.status.sub.toNat ∧
    hostRead s 0x0008 = s.errInfo ∧
    (∀ k, (hostRead s 0x000C).getLsbD k = (decide (1 ≤ k ∧ k ≤ 4) && s.errSticky.getLsbD k)) ∧
    hostRead s 0x0010 = s.srcAddr ∧ hostRead s 0x0014 = s.srcLen ∧
    hostRead s 0x0018 = s.dstAddr ∧ hostRead s 0x001C = s.dstCap ∧
    hostRead s 0x0020 = s.opBitsLo ∧ hostRead s 0x0024 = s.opBitsHi ∧ hostRead s 0x0028 = s.opSyms ∧
    (hostRead s 0x0034).toNat * 2 ^ 32 + (hostRead s 0x0030).toNat = s.resBits.toNat ∧
    hostRead s 0x0038 = s.resSyms ∧ hostRead s 0x003C = s.resBytes ∧
    (hostRead s 0x0040).toNat = s.root.toNat ∧ (hostRead s 0x0044).toNat = s.nleaf.toNat ∧
    (hostRead s 0x0048).toNat = s.nnode.toNat ∧
    ∀ x : Byte, hostRead s (0x0400 + 4 * x.toNat) = s.freqAt x

/-- R110, R111: the words of the `NODE` and `CODE` records, and the unused offsets after `NODE`. -/
def Obligations.TableRecordsRead : Prop :=
  ∀ s : State,
    (∀ off, off % 4 = 0 → 0x2FF0 ≤ off → off < 0x4000 → hostRead s off = 0) ∧
    (∀ (i : Nat) (h : i < 511),
      (hostRead s (0x1000 + 16 * i)).toNat =
        (match s.node[i].tag with | .empty => 0 | .leaf => 1 | .internal => 2 | .placeholder => 3)
          + 256 * s.node[i].sym.toNat ∧
      (hostRead s (0x1000 + 16 * i + 4)).toNat = s.node[i].weight.toNat % 2 ^ 32 ∧
      (hostRead s (0x1000 + 16 * i + 8)).toNat = s.node[i].weight.toNat / 2 ^ 32 ∧
      (hostRead s (0x1000 + 16 * i + 12)).toNat =
        s.node[i].left.toNat + 65536 * s.node[i].right.toNat) ∧
    ∀ x : Byte,
      (hostRead s (0x4000 + 64 * x.toNat)).toNat = (s.codeAt x).len.toNat ∧
      (∀ w, 1 ≤ w → w ≤ 7 → hostRead s (0x4000 + 64 * x.toNat + 4 * w) = 0) ∧
      ∀ k, k < 256 →
        (hostRead s (0x4000 + 64 * x.toNat + 4 * (8 + k / 32))).getLsbD (31 - k % 32) =
          (s.codeAt x).bits.getLsbD (255 - k)

/-- R108, R252, R253: an offset that the map does not list reads 0; a write to it, to a read-only register, to `NODE` or
to `CODE` is ignored. -/
def Obligations.OtherOffsetsReadZeroAndIgnoreWrites : Prop :=
  (∀ (s : State) (off : Nat), off % 4 = 0 →
    (off = 0x002C ∨ (0x004C ≤ off ∧ off < 0x0400) ∨ (0x0800 ≤ off ∧ off < 0x1000) ∨
      (0x2FF0 ≤ off ∧ off < 0x4000)) → hostRead s off = 0) ∧
  (∀ (s : State) (off : Nat) (v : Word) (rest : List HostOp),
    s.phase = .idle → s.host = .write off v :: rest → off % 4 = 0 → off < 0x8000 →
    (off = 0x0004 ∨ off = 0x0008 ∨ (0x002C ≤ off ∧ off < 0x0400) ∨ 0x0800 ≤ off) →
    step s = .next { s with host := rest })

/-- R253: a write to an operand register or to an entry of `FREQ` sets it and changes nothing else. -/
def Obligations.HostWriteSetsTheRegister : Prop :=
  ∀ (s : State) (v : Word), s.phase = .idle →
    step { s with host := .write 0x0010 v :: s.host } = .next { s with srcAddr := v } ∧
    step { s with host := .write 0x0014 v :: s.host } = .next { s with srcLen := v } ∧
    step { s with host := .write 0x0018 v :: s.host } = .next { s with dstAddr := v } ∧
    step { s with host := .write 0x001C v :: s.host } = .next { s with dstCap := v } ∧
    step { s with host := .write 0x0020 v :: s.host } = .next { s with opBitsLo := v } ∧
    step { s with host := .write 0x0024 v :: s.host } = .next { s with opBitsHi := v } ∧
    step { s with host := .write 0x0028 v :: s.host } = .next { s with opSyms := v } ∧
    ∀ x : Byte,
      step { s with host := .write (0x0400 + 4 * x.toNat) v :: s.host } =
        .next { s with freq := s.freq.set x.toNat v x.isLt }

/-- R256: a write of `v` to `ERR_STICKY` clears exactly the bits among 4:1 that are 1 in `v`, and no other step clears a
bit of it. -/
def Obligations.StickyBitsAreClearedOnlyByTheHost : Prop :=
  (∀ (s : State) (v : Word) (rest : List HostOp), s.phase = .idle → s.host = .write 0x000C v :: rest →
    ∃ x : Word, step s = .next { s with host := rest, errSticky := x } ∧
      ∀ k, x.getLsbD k = (s.errSticky.getLsbD k && !(decide (1 ≤ k ∧ k ≤ 4) && v.getLsbD k))) ∧
  (∀ (s t : State) (k : Nat), step s = .next t →
    s.errSticky.getLsbD k = true → t.errSticky.getLsbD k = false →
    s.phase = .idle ∧ 1 ≤ k ∧ k ≤ 4 ∧ ∃ v rest, s.host = .write 0x000C v :: rest ∧ v.getLsbD k = true)

/-- R11, R70, R116 (the host's own accesses to `MEM`; that `MemValid` does not restrain them is the model's choice of
log 5): a store leaves the bytes it stored and changes no other byte, and a load answers what the bytes read as. -/
def Obligations.HostStoresAndLoadsMem : Prop :=
  (∀ (s : State) (a : Nat) (bs : List Byte) (rest : List HostOp), s.phase = .idle →
    s.host = .store a bs :: rest → a + bs.length ≤ 2 ^ 32 →
    ∃ m, step s = .next { s with host := rest, mem := m } ∧ Memory.storedAt s.mem m a bs) ∧
  (∀ (s : State) (a n : Nat) (rest : List HostOp), s.phase = .idle → s.host = .load a n :: rest →
    a + n ≤ 2 ^ 32 →
    ∃ bs : List Byte, step s = .next { s with host := rest, replies := s.replies ++ [.bytes bs] } ∧
      bs.length = n ∧ ∀ i (h : i < bs.length), bs[i] = s.mem.byte (a + i))

/-! ### Reset and the invariants -/

/-- R52, R300, R302: after reset every word of the window reads 0, there is no tree, the internal state is idle, and the
engine waits. That the wait is a step that changes nothing, and that the host has no operation at reset, is the model's
(log 1). -/
def Obligations.ResetIsAllZero : Prop :=
  (∀ off, off % 4 = 0 → off < 0x8000 → hostRead State.reset off = 0) ∧
  NoTree State.reset ∧ toIdle State.reset = State.reset ∧ step State.reset = .next State.reset

/-- R52: the invariants hold in the reset state. -/
def Obligations.ResetMeetsTheInvariants : Prop := Inv State.reset

/-- R50, R114, R24, R71: every step keeps the internal state idle, the (`ERR`, `SUB`) pair among those that are
produced, the unused bits of `ERR_STICKY` 0, and the memory in its canonical form (the form is the model's, log 3). -/
def Obligations.StepKeepsTheMachineForm : Prop :=
  ∀ s t : State, toIdle s = s → StatusLegal s → StickyLegal s → s.mem.wf → step s = .next t →
    toIdle t = t ∧ StatusLegal t ∧ StickyLegal t ∧ t.mem.wf

/-- R42, R43, R44: every step keeps INV-T, INV-W and INV-C. -/
def Obligations.StepKeepsTheTableInvariants : Prop :=
  ∀ s t : State, toIdle s = s → InvT s → InvW s → InvC s → step s = .next t → InvT t ∧ InvW t ∧ InvC t

/-- R37, R38, R40, R53: with the engine idle, `FREQ` changes only by COUNT and a host write to it, the tree only by
BUILD, `CODE` only by BUILD and GEN, the bytes of `MEM` only by ENCODE, DECODE and a host store, and an operand register
only by a host write to it. -/
def Obligations.StateHasItsWriters : Prop :=
  ∀ s t : State, s.phase = .idle → step s = .next t →
    (t.freq ≠ s.freq → ∃ rest, s.host = .write 0x0000 (encode .count) :: rest ∨
      ∃ off v, s.host = .write off v :: rest ∧ 0x0400 ≤ off ∧ off < 0x0800) ∧
    ((t.node ≠ s.node ∨ t.root ≠ s.root ∨ t.nleaf ≠ s.nleaf ∨ t.nnode ≠ s.nnode ∨
        t.status.treeValid ≠ s.status.treeValid) →
      ∃ rest, s.host = .write 0x0000 (encode .build) :: rest) ∧
    (t.code ≠ s.code → ∃ rest, s.host = .write 0x0000 (encode .build) :: rest ∨
      s.host = .write 0x0000 (encode .gen) :: rest) ∧
    (t.mem ≠ s.mem → ∃ rest, s.host = .write 0x0000 (encode .encode) :: rest ∨
      s.host = .write 0x0000 (encode .decodeB) :: rest ∨ s.host = .write 0x0000 (encode .decodeS) :: rest ∨
      ∃ a bs, s.host = .store a bs :: rest) ∧
    ((t.srcAddr ≠ s.srcAddr ∨ t.srcLen ≠ s.srcLen ∨ t.dstAddr ≠ s.dstAddr ∨ t.dstCap ≠ s.dstCap ∨
        t.opBitsLo ≠ s.opBitsLo ∨ t.opBitsHi ≠ s.opBitsHi ∨ t.opSyms ≠ s.opSyms) →
      ∃ off v rest, s.host = .write off v :: rest ∧ 0x0010 ≤ off ∧ off ≤ 0x0028) ∧
    t.platform = s.platform

/-! ### NOP -/

/-- R254: NOP clears `STATUS.ERR`, `STATUS.SUB` and `ERR_INFO` and changes nothing else. -/
def Obligations.NopClearsTheError : Prop :=
  ∀ s : State, exec .nop s = .next (s.commandEnd 0 0 0 0)

/-! ### COUNT -/

/-- R140, R141: COUNT of a source buffer at valid addresses leaves its Frequency Table in `FREQ`, whatever was there
before, `RES_SYMS = SRC_LEN`, the other results 0, no error, and changes nothing else. -/
def Obligations.CountCountsTheSource : Prop :=
  ∀ s : State, s.srcValid s.srcLen.toNat →
    ∃ f, exec .count s = .next
        { s.commandEnd 0 0 0 0 with freq := f, resBits := 0, resSyms := s.srcLen, resBytes := 0 } ∧
      isFreqOf f s.srcBytes ∧ (f.toList.map BitVec.toNat).sum = s.srcLen.toNat

/-- R144: if source byte `i` is the first at an invalid address, COUNT ends there with `IoError(READ)`, the counts of the
bytes before it and `RES_SYMS = i`. -/
def Obligations.CountStopsAtAnInvalidByte : Prop :=
  ∀ (s : State) (i : Nat), i < s.srcLen.toNat → s.srcValid i →
    s.platform.memValid (s.srcAddr.toNat + i) = false →
    ∃ f, exec .count s = .next
        { s.commandEnd 1 1 (BitVec.ofNat 32 (s.srcAddr.toNat + i)) 0x02 with
          freq := f, resBits := 0, resSyms := BitVec.ofNat 32 i, resBytes := 0 } ∧
      isFreqOf f (s.mem.bytesFrom s.srcAddr.toNat i)

/-! ### BUILD -/

/-- R151: BUILD of the empty table leaves "no tree", empty tables and no error, and changes nothing else. -/
def Obligations.BuildOfAnEmptyTable : Prop :=
  ∀ s : State, (∀ x, s.freqAt x = 0) →
    exec .build s = .next
      { s.commandEnd 0 0 0 0 with
        status := { err := 0, treeValid := false, sub := 0 }, root := 0, nleaf := 0, nnode := 0
        node := Vector.replicate 511 Node.unused, code := Vector.replicate 256 CodeEntry.none }

/-- R155: BUILD of a table with one symbol makes the leaf, the placeholder at index 1 and a root whose left child is the
placeholder; the bit 1 leads to the symbol and the bit 0 to the placeholder. -/
def Obligations.BuildOfOneSymbol : Prop :=
  ∀ (s : State) (x : Byte), s.freqAt x ≠ 0 → (∀ y, y ≠ x → s.freqAt y = 0) →
    ∃ t, exec .build s = .next t ∧
      t = { s.commandEnd 0 0 0 0 with
        status := { err := 0, treeValid := true, sub := 0 }, root := 2, nleaf := 2, nnode := 3
        code := Vector.replicate 256 CodeEntry.none
        node := (((Vector.replicate 511 Node.unused).set 0
            { tag := .leaf, sym := x, weight := (s.freqAt x).zeroExtend 40, left := 0, right := 0 }).set 1
            { tag := .placeholder, sym := 0, weight := 0, left := 0, right := 0 }).set 2
            { tag := .internal, sym := 0, weight := (s.freqAt x).zeroExtend 40, left := 1, right := 0 } } ∧
      isCodeOf t [true] x ∧ followPath t.node t.root [false] = some 1

/-- R153: BUILD ends without error for every content of `FREQ`, sets `TREE_VALID` exactly when `FREQ` has a key, empties
`CODE`, and writes nothing but the tree, its registers and the error fields. -/
def Obligations.BuildWritesOnlyTheTree : Prop :=
  ∀ s : State, ∃ t, exec .build s = .next t ∧
    t = { s.commandEnd 0 0 0 0 with
      status := { err := 0, treeValid := decide (presentSymbols s ≠ []), sub := 0 }
      root := t.root, nleaf := t.nleaf, nnode := t.nnode, node := t.node
      code := Vector.replicate 256 CodeEntry.none }

/-- R165: the tree after BUILD depends on `FREQ` and on nothing else. -/
def Obligations.BuildDependsOnFreqAlone : Prop :=
  ∀ s s' : State, s.freq = s'.freq →
    ∃ t t', exec .build s = .next t ∧ exec .build s' = .next t' ∧ t.node = t'.node ∧ t.root = t'.root ∧
      t.nleaf = t'.nleaf ∧ t.nnode = t'.nnode ∧ t.status.treeValid = t'.status.treeValid ∧ t.code = t'.code

/-- R152, R166: the leaves of BUILD's tree are the symbols with a count, in ascending order, with their counts as
weights; `NLEAF` is their number, 2 when there is one, and `NNODE = 2*NLEAF - 1`. -/
def Obligations.BuildLeavesInSymbolOrder : Prop :=
  ∀ s : State, presentSymbols s ≠ [] →
    ∃ t, exec .build s = .next t ∧
      (∀ (i : Nat) (x : Byte), (presentSymbols s)[i]? = some x →
        t.node[i]? = some
          ({ tag := .leaf, sym := x, weight := (s.freqAt x).zeroExtend 40, left := 0, right := 0 } : Node)) ∧
      t.nleaf.toNat = (if (presentSymbols s).length = 1 then 2 else (presentSymbols s).length) ∧
      t.nnode.toNat + 1 = 2 * t.nleaf.toNat

/-- R42, R161: BUILD of a table with a key makes a tree of the shape of INV-T, its root the last node made. -/
def Obligations.BuildMakesATree : Prop :=
  ∀ s : State, presentSymbols s ≠ [] → ∃ t, exec .build s = .next t ∧ TreeShape t

/-- R43, R160, R167: in BUILD's tree every internal weight is the exact sum of its children's, every leaf's weight is its
count, the placeholder's is 0, and the root's weight is the sum of all counts. -/
def Obligations.BuildWeightsAreSums : Prop :=
  ∀ s : State, presentSymbols s ≠ [] →
    ∃ t, exec .build s = .next t ∧ InvW t ∧
      (∀ i (h : i < 511), t.node[i].tag = .leaf → t.node[i].weight.toNat = (s.freqAt t.node[i].sym).toNat) ∧
      (nodeWeight t.node t.root).toNat = (s.freq.toList.map BitVec.toNat).sum

/-- R157, R158, R163: the key order is the lexicographic order of (weight, index), strict and total, and `extractMin`
takes the member with the least key out of the queue. -/
def Obligations.ExtractMinTakesTheLeastKey : Prop :=
  (∀ (node : Vector Node 511) (i j : Idx),
    (keyLess node i j = true ↔
      (nodeWeight node i).toNat < (nodeWeight node j).toNat ∨
        ((nodeWeight node i).toNat = (nodeWeight node j).toNat ∧ i.toNat < j.toNat)) ∧
    (i ≠ j → (keyLess node i j = true ↔ keyLess node j i = false))) ∧
  ∀ (node : Vector Node 511) (pq : List Idx), pq ≠ [] →
    ∃ m, pqExtractMin node pq = some (m, pq.erase m) ∧ m ∈ pq ∧ ∀ i ∈ pq, i ≠ m → keyLess node m i = true

/-- R156, R159: one merge takes the two members with the least keys out of the queue, the first becoming the left child
and the second the right child of a new internal node whose weight is their sum, and puts the new node in. -/
def Obligations.MergeJoinsTheTwoLeast : Prop :=
  ∀ s : State, 2 ≤ s.merge.pq.length → s.merge.pq.Nodup → s.merge.k.toNat < 511 →
    ∃ a b t, mergeOnce s = some t ∧
      a ∈ s.merge.pq ∧ b ∈ s.merge.pq ∧ keyLess s.node a b = true ∧
      (∀ i ∈ s.merge.pq, i ≠ a → i ≠ b → keyLess s.node b i = true) ∧
      t.node[s.merge.k.toNat]? = some
        { tag := .internal, sym := 0, weight := nodeWeight s.node a + nodeWeight s.node b, left := a, right := b } ∧
      (∀ i, i ≠ s.merge.k.toNat → t.node[i]? = s.node[i]?) ∧
      t.merge.pq.Perm (s.merge.k.truncate 9 :: (s.merge.pq.erase a).erase b) ∧
      t = { s with node := t.node, merge := { s.merge with pq := t.merge.pq, k := s.merge.k + 1, a := a, b := b } }

/-- R164: `h` is a heap when no child's key is less than its parent's. -/
def Obligations.HeapExtractsLikeTheQueue : Prop :=
  ∀ (node : Vector Node 511) (h : List Idx), h.Nodup →
    (∀ p c, (c = 2 * p + 1 ∨ c = 2 * p + 2) → c < h.length → keyLess node (heapAt h c) (heapAt h p) = false) →
    (∀ i, i ∉ h →
      (heapInsert node h i).Perm (i :: h) ∧
      ∀ p c, (c = 2 * p + 1 ∨ c = 2 * p + 2) → c < (heapInsert node h i).length →
        keyLess node (heapAt (heapInsert node h i) c) (heapAt (heapInsert node h i) p) = false) ∧
    (h ≠ [] → ∃ m h', heapExtractMin node h = some (m, h') ∧ pqExtractMin node h = some (m, h.erase m) ∧
      h'.Perm (h.erase m) ∧
      ∀ p c, (c = 2 * p + 1 ∨ c = 2 * p + 2) → c < h'.length →
        keyLess node (heapAt h' c) (heapAt h' p) = false)

/-! ### GEN -/

/-- R182: GEN with no tree empties `CODE`, ends without error and changes nothing else. -/
def Obligations.GenWithoutATreeEmptiesTheTable : Prop :=
  ∀ s : State, s.status.treeValid = false →
    exec .gen s = .next { s.commandEnd 0 0 0 0 with code := Vector.replicate 256 CodeEntry.none }

/-- R181, R183: GEN of a tree ends without error, writes nothing but `CODE`, and leaves in it the path of every symbol
that has a leaf, left-aligned, and no entry for any other symbol. -/
def Obligations.GenWritesThePaths : Prop :=
  ∀ s : State, TreeShape s →
    ∃ t, exec .gen s = .next t ∧ t = { s.commandEnd 0 0 0 0 with code := t.code } ∧
      ∀ x : Byte,
        ((∃ i, leafOf s.node i x) → 0 < (t.codeAt x).len.toNat ∧ isCodeOf s (t.codeAt x).bitList x ∧
          ∀ k, (t.codeAt x).len.toNat ≤ k → k < 256 → (t.codeAt x).bit k = false) ∧
        ((¬ ∃ i, leafOf s.node i x) → t.codeAt x = CodeEntry.none)

/-- R188: in a Code Table that follows its tree (INV-C) no symbol's code is a prefix of another's. -/
def Obligations.CodesArePrefixFree : Prop :=
  ∀ s : State, InvC s → ∀ x y : Byte, x ≠ y →
    0 < (s.codeAt x).len.toNat → 0 < (s.codeAt y).len.toNat → ¬ (s.codeAt x).bitList <+: (s.codeAt y).bitList

/-- R190: with a tree, every path to a leaf, and the length of every entry of a Code Table that follows the tree, is
between 1 and `NLEAF - 1`, at most 255. -/
def Obligations.CodeLengthsAreBounded : Prop :=
  ∀ (s : State) (x : Byte), TreeShape s →
    (∀ c, isCodeOf s c x → 1 ≤ c.length ∧ c.length ≤ s.nleaf.toNat - 1) ∧
    (InvC s → (s.codeAt x).len ≠ 0 →
      1 ≤ (s.codeAt x).len.toNat ∧ (s.codeAt x).len.toNat ≤ s.nleaf.toNat - 1) ∧
    s.nleaf.toNat - 1 ≤ 255

/-! ### ENCODE -/

/-- R200, R201, R207: ENCODE of symbols that all have a code, with room and valid addresses and buffers that do not
overlap, writes the packed concatenation of the codes, counts it in the results, ends without error, and changes nothing
else. -/
def Obligations.EncodePacksTheCodes : Prop :=
  ∀ s : State,
    let b := encodedBits s s.srcBytes
    let n := (b.length + 7) / 8
    s.srcValid s.srcLen.toNat → (∀ x ∈ s.srcBytes, 0 < (s.codeAt x).len.toNat) →
    n ≤ s.dstCap.toNat → s.dstValid n → s.disjointBuffers s.srcLen.toNat n →
    ∃ m, exec .encode s = .next
        { s.commandEnd 0 0 0 0 with
          resBits := BitVec.ofNat 64 b.length, resSyms := s.srcLen, resBytes := BitVec.ofNat 32 n, mem := m } ∧
      Memory.storedAt s.mem m s.dstAddr.toNat (packBits b)

/-- R33, R201, R83: ENCODE ends in a next state whatever its operands are; it writes nothing but the result registers,
the error fields and the first `RES_BYTES` bytes of the destination buffer, and never more than `DST_CAP` of them. -/
def Obligations.EncodeCompletesInsideItsBuffer : Prop :=
  ∀ s : State, ∃ t, exec .encode s = .next t ∧
    t = { s.commandEnd t.status.err t.status.sub t.errInfo 0 with
      errSticky := t.errSticky, resBits := t.resBits, resSyms := t.resSyms, resBytes := t.resBytes, mem := t.mem } ∧
    t.resBytes.toNat ≤ s.dstCap.toNat ∧
    ∀ a, (a < s.dstAddr.toNat ∨ s.dstAddr.toNat + t.resBytes.toNat ≤ a) → t.mem.byte a = s.mem.byte a

/-- R205, R206: if source symbol `i` is the first without a code, ENCODE ends with `UnknownSymbol`; the codes of the
symbols before it are in the destination, the last byte flushed, and the results describe exactly them. -/
def Obligations.EncodeStopsAtAnUnknownSymbol : Prop :=
  ∀ (s : State) (i : Nat),
    let b := encodedBits s (s.srcBytes.take i)
    let n := (b.length + 7) / 8
    let x := s.mem.byte (s.srcAddr.toNat + i)
    i < s.srcLen.toNat → s.srcValid (i + 1) → (∀ y ∈ s.srcBytes.take i, 0 < (s.codeAt y).len.toNat) →
    (s.codeAt x).len = 0 → n ≤ s.dstCap.toNat → s.dstValid n → s.disjointBuffers (i + 1) n →
    ∃ m, exec .encode s = .next
        { s.commandEnd 2 0 (x.zeroExtend 32) 0x04 with
          resBits := BitVec.ofNat 64 b.length, resSyms := BitVec.ofNat 32 i, resBytes := BitVec.ofNat 32 n, mem := m } ∧
      Memory.storedAt s.mem m s.dstAddr.toNat (packBits b)

/-- R206, R209: if source byte `i` is the first at an invalid address, ENCODE ends with `IoError(READ)` after the flush
of what was packed before it. -/
def Obligations.EncodeStopsAtAnInvalidSourceByte : Prop :=
  ∀ (s : State) (i : Nat),
    let b := encodedBits s (s.srcBytes.take i)
    let n := (b.length + 7) / 8
    i < s.srcLen.toNat → s.srcValid i → (∀ y ∈ s.srcBytes.take i, 0 < (s.codeAt y).len.toNat) →
    s.platform.memValid (s.srcAddr.toNat + i) = false →
    n ≤ s.dstCap.toNat → s.dstValid n → s.disjointBuffers i n →
    ∃ m, exec .encode s = .next
        { s.commandEnd 1 1 (BitVec.ofNat 32 (s.srcAddr.toNat + i)) 0x02 with
          resBits := BitVec.ofNat 64 b.length, resSyms := BitVec.ofNat 32 i, resBytes := BitVec.ofNat 32 n, mem := m } ∧
      Memory.storedAt s.mem m s.dstAddr.toNat (packBits b)

/-- R209, R270: if the flush of the partial byte on an error exit fails (no room, or an invalid address), the first error
stays the one reported, bit 1 of `ERR_STICKY` is set, the partial byte is not written, and `RES_BITS` still counts its
bits. First the exit at an unknown symbol, then the exit at an invalid source byte. -/
def Obligations.EncodeKeepsTheFirstError : Prop :=
  ∀ (s : State) (i : Nat),
    let b := encodedBits s (s.srcBytes.take i)
    let n := b.length / 8
    let x := s.mem.byte (s.srcAddr.toNat + i)
    i < s.srcLen.toNat → s.srcValid i → (∀ y ∈ s.srcBytes.take i, 0 < (s.codeAt y).len.toNat) →
    b.length % 8 ≠ 0 → n ≤ s.dstCap.toNat → s.dstValid n →
    (n = s.dstCap.toNat ∨ s.platform.memValid (s.dstAddr.toNat + n) = false) →
    (s.platform.memValid (s.srcAddr.toNat + i) = true → (s.codeAt x).len = 0 → s.disjointBuffers (i + 1) n →
      ∃ m, exec .encode s = .next
          { s.commandEnd 2 0 (x.zeroExtend 32) 0x06 with
            resBits := BitVec.ofNat 64 b.length, resSyms := BitVec.ofNat 32 i
            resBytes := BitVec.ofNat 32 n, mem := m } ∧
        Memory.storedAt s.mem m s.dstAddr.toNat ((packBits b).take n)) ∧
    (s.platform.memValid (s.srcAddr.toNat + i) = false → s.disjointBuffers i n →
      ∃ m, exec .encode s = .next
          { s.commandEnd 1 1 (BitVec.ofNat 32 (s.srcAddr.toNat + i)) 0x02 with
            resBits := BitVec.ofNat 64 b.length, resSyms := BitVec.ofNat 32 i
            resBytes := BitVec.ofNat 32 n, mem := m } ∧
        Memory.storedAt s.mem m s.dstAddr.toNat ((packBits b).take n))

/-- R204, R209: destination byte `k` is the first that cannot be written, for want of capacity or for an invalid
address. If source symbol `n` fills it, ENCODE ends in that symbol: the bytes before byte `k` are written, `RES_BITS`
counts the 8 bits of the lost byte, `RES_SYMS = n`, and nothing is said of the source after symbol `n`. If it is the
partial byte at the end of the input, ENCODE ends in the final flush with `RES_SYMS = SRC_LEN`. -/
def Obligations.EncodeStopsAtTheDestination : Prop :=
  ∀ (s : State) (k : Nat), s.dstValid k →
    (k = s.dstCap.toNat ∨ (k < s.dstCap.toNat ∧ s.platform.memValid (s.dstAddr.toNat + k) = false)) →
    (∀ n,
      let b := encodedBits s (s.srcBytes.take (n + 1))
      n < s.srcLen.toNat → s.srcValid (n + 1) → (∀ x ∈ s.srcBytes.take (n + 1), 0 < (s.codeAt x).len.toNat) →
      (encodedBits s (s.srcBytes.take n)).length < 8 * k + 8 → 8 * k + 8 ≤ b.length →
      s.disjointBuffers (n + 1) k →
      ∃ m, exec .encode s = .next
          { s.commandEnd 1 (if k = s.dstCap.toNat then 3 else 2) (BitVec.ofNat 32 (s.dstAddr.toNat + k)) 0x02 with
            resBits := BitVec.ofNat 64 (8 * k + 8), resSyms := BitVec.ofNat 32 n
            resBytes := BitVec.ofNat 32 k, mem := m } ∧
        Memory.storedAt s.mem m s.dstAddr.toNat ((packBits b).take k)) ∧
    (let b := encodedBits s s.srcBytes;
      s.srcValid s.srcLen.toNat → (∀ x ∈ s.srcBytes, 0 < (s.codeAt x).len.toNat) →
      b.length % 8 ≠ 0 → b.length / 8 = k → s.disjointBuffers s.srcLen.toNat k →
      ∃ m, exec .encode s = .next
          { s.commandEnd 1 (if k = s.dstCap.toNat then 3 else 2) (BitVec.ofNat 32 (s.dstAddr.toNat + k)) 0x02 with
            resBits := BitVec.ofNat 64 b.length, resSyms := s.srcLen, resBytes := BitVec.ofNat 32 k, mem := m } ∧
        Memory.storedAt s.mem m s.dstAddr.toNat ((packBits b).take k))

/-! ### DECODE -/

/-- R221, R229: before the first bit. With no tree both DECODE commands end without error, output and results, whatever
the operands are; with a tree DECODE.B with more meaningful bits than the source holds raises `OVERRUN`, results 0. -/
def Obligations.DecodeTestsBeforeTheFirstBit : Prop :=
  ∀ s : State,
    (s.status.treeValid = false →
      exec .decodeB s = .next { s.commandEnd 0 0 0 0 with resBits := 0, resSyms := 0, resBytes := 0 } ∧
      exec .decodeS s = .next { s.commandEnd 0 0 0 0 with resBits := 0, resSyms := 0, resBytes := 0 }) ∧
    (s.status.treeValid = true →
      8 * s.srcLen.toNat < s.opBitsHi.toNat * 2 ^ 32 + s.opBitsLo.toNat →
      exec .decodeB s = .next { s.commandEnd 3 3 0 0x08 with resBits := 0, resSyms := 0, resBytes := 0 })

/-- R220, R222, R235: if the first `OP_BITS` bits of the source are the codes of `xs`, DECODE.B writes `xs` and ends
without error; the bits after them, the padding among them, play no part. -/
def Obligations.DecodeBInvertsTheCodes : Prop :=
  ∀ (s : State) (xs : List Byte) (code : Byte → List Bool), TreeShape s →
    (∀ x ∈ xs, isCodeOf s (code x) x) → s.opBits ≤ 8 * s.srcLen.toNat →
    streamFrom s.mem s.srcAddr.toNat s.opBits = xs.flatMap code →
    s.srcValid ((s.opBits + 7) / 8) → xs.length ≤ s.dstCap.toNat → s.dstValid xs.length →
    s.disjointBuffers ((s.opBits + 7) / 8) xs.length →
    ∃ m, exec .decodeB s = .next
        { s.commandEnd 0 0 0 0 with
          resBits := BitVec.ofNat 64 s.opBits, resSyms := BitVec.ofNat 32 xs.length
          resBytes := BitVec.ofNat 32 xs.length, mem := m } ∧
      Memory.storedAt s.mem m s.dstAddr.toNat xs

/-- R223, R235: if the source begins with the codes of `OP_SYMS` symbols, DECODE.S writes them and ends without error;
the bits after them play no part. -/
def Obligations.DecodeSInvertsTheCodes : Prop :=
  ∀ (s : State) (xs : List Byte) (code : Byte → List Bool), TreeShape s →
    let n := (xs.flatMap code).length
    (∀ x ∈ xs, isCodeOf s (code x) x) → s.opSyms.toNat = xs.length → n ≤ 8 * s.srcLen.toNat →
    streamFrom s.mem s.srcAddr.toNat n = xs.flatMap code →
    s.srcValid ((n + 7) / 8) → xs.length ≤ s.dstCap.toNat → s.dstValid xs.length →
    s.disjointBuffers ((n + 7) / 8) xs.length →
    ∃ m, exec .decodeS s = .next
        { s.commandEnd 0 0 0 0 with
          resBits := BitVec.ofNat 64 n, resSyms := s.opSyms, resBytes := s.opSyms, mem := m } ∧
      Memory.storedAt s.mem m s.dstAddr.toNat xs

/-- R227: if the first `OP_BITS` bits are the codes of `xs` and then the beginning `r` of a code, DECODE.B writes `xs`
and raises `OFF_ROOT` with the node where it stands; no partial symbol is written. -/
def Obligations.DecodeBEndsOffTheRoot : Prop :=
  ∀ (s : State) (xs : List Byte) (code : Byte → List Bool) (r : List Bool) (p : Idx), TreeShape s →
    (∀ x ∈ xs, isCodeOf s (code x) x) → s.opBits ≤ 8 * s.srcLen.toNat →
    streamFrom s.mem s.srcAddr.toNat s.opBits = xs.flatMap code ++ r → r ≠ [] →
    followPath s.node s.root r = some p → (s.nodeAt p).map Node.tag = some .internal →
    s.srcValid ((s.opBits + 7) / 8) → xs.length ≤ s.dstCap.toNat → s.dstValid xs.length →
    s.disjointBuffers ((s.opBits + 7) / 8) xs.length →
    ∃ m, exec .decodeB s = .next
        { s.commandEnd 3 1 (p.zeroExtend 32) 0x08 with
          resBits := BitVec.ofNat 64 s.opBits, resSyms := BitVec.ofNat 32 xs.length
          resBytes := BitVec.ofNat 32 xs.length, mem := m } ∧
      Memory.storedAt s.mem m s.dstAddr.toNat xs

/-- R230: if all the bits of the source are the codes of `xs` and then, possibly, the beginning `r` of a code, and `xs`
has fewer than `OP_SYMS` symbols, DECODE.S writes `xs` and raises `EXHAUSTED` with the node where it stands, the root
when `r` is empty. -/
def Obligations.DecodeSRunsOutOfBits : Prop :=
  ∀ (s : State) (xs : List Byte) (code : Byte → List Bool) (r : List Bool) (p : Idx), TreeShape s →
    (∀ x ∈ xs, isCodeOf s (code x) x) → xs.length < s.opSyms.toNat →
    streamFrom s.mem s.srcAddr.toNat (8 * s.srcLen.toNat) = xs.flatMap code ++ r →
    followPath s.node s.root r = some p → (s.nodeAt p).map Node.tag = some .internal →
    s.srcValid s.srcLen.toNat → xs.length ≤ s.dstCap.toNat → s.dstValid xs.length →
    s.disjointBuffers s.srcLen.toNat xs.length →
    ∃ m, exec .decodeS s = .next
        { s.commandEnd 3 2 (p.zeroExtend 32) 0x08 with
          resBits := BitVec.ofNat 64 (8 * s.srcLen.toNat), resSyms := BitVec.ofNat 32 xs.length
          resBytes := BitVec.ofNat 32 xs.length, mem := m } ∧
      Memory.storedAt s.mem m s.dstAddr.toNat xs

/-- R228: if bit `k - 1` of the meaningful bits leads to the placeholder, after the codes of `xs`, DECODE ends there with
`PLACEHOLDER`, `ERR_INFO` being the placeholder's index 1; nothing is emitted for it. -/
def Obligations.DecodeStopsAtThePlaceholder : Prop :=
  ∀ (s : State) (xs : List Byte) (code : Byte → List Bool) (r : List Bool) (p : Idx) (k : Nat), TreeShape s →
    (∀ x ∈ xs, isCodeOf s (code x) x) → streamFrom s.mem s.srcAddr.toNat k = xs.flatMap code ++ r →
    followPath s.node s.root r = some p → (s.nodeAt p).map Node.tag = some .placeholder →
    k ≤ 8 * s.srcLen.toNat → s.srcValid ((k + 7) / 8) → xs.length ≤ s.dstCap.toNat → s.dstValid xs.length →
    s.disjointBuffers ((k + 7) / 8) xs.length →
    ∃ m, Memory.storedAt s.mem m s.dstAddr.toNat xs ∧
      let t := { s.commandEnd 3 4 1 0x08 with
          resBits := BitVec.ofNat 64 k, resSyms := BitVec.ofNat 32 xs.length
          resBytes := BitVec.ofNat 32 xs.length, mem := m }
      (k ≤ s.opBits → s.opBits ≤ 8 * s.srcLen.toNat → exec .decodeB s = .next t) ∧
      (xs.length < s.opSyms.toNat → exec .decodeS s = .next t)

/-- R226, R236: if the symbol due after `xs` cannot be written, for want of capacity or for an invalid address, DECODE
ends there with `CAPACITY` or `WRITE`; the symbol is not counted and the bit that reached its leaf is. -/
def Obligations.DecodeStopsAtTheDestination : Prop :=
  ∀ (s : State) (xs : List Byte) (y : Byte) (code : Byte → List Bool), TreeShape s →
    let k := ((xs ++ [y]).flatMap code).length
    (∀ x ∈ xs ++ [y], isCodeOf s (code x) x) →
    streamFrom s.mem s.srcAddr.toNat k = (xs ++ [y]).flatMap code →
    k ≤ 8 * s.srcLen.toNat → s.srcValid ((k + 7) / 8) → s.dstValid xs.length →
    s.disjointBuffers ((k + 7) / 8) xs.length →
    (xs.length = s.dstCap.toNat ∨
      (xs.length < s.dstCap.toNat ∧ s.platform.memValid (s.dstAddr.toNat + xs.length) = false)) →
    ∃ m, Memory.storedAt s.mem m s.dstAddr.toNat xs ∧
      let t := { s.commandEnd 1 (if xs.length = s.dstCap.toNat then 3 else 2)
            (BitVec.ofNat 32 (s.dstAddr.toNat + xs.length)) 0x02 with
          resBits := BitVec.ofNat 64 k, resSyms := BitVec.ofNat 32 xs.length
          resBytes := BitVec.ofNat 32 xs.length, mem := m }
      (k ≤ s.opBits → s.opBits ≤ 8 * s.srcLen.toNat → exec .decodeB s = .next t) ∧
      (xs.length < s.opSyms.toNat → exec .decodeS s = .next t)

/-- R224, R225, R236: if source byte `q`, whose first bit is needed, is at an invalid address, DECODE ends there with
`IoError(READ)`; `RES_BITS` is the index of that bit, and the symbols before it are written. -/
def Obligations.DecodeStopsAtAnInvalidSourceByte : Prop :=
  ∀ (s : State) (xs : List Byte) (code : Byte → List Bool) (r : List Bool) (p : Idx) (q : Nat), TreeShape s →
    (∀ x ∈ xs, isCodeOf s (code x) x) → streamFrom s.mem s.srcAddr.toNat (8 * q) = xs.flatMap code ++ r →
    followPath s.node s.root r = some p → (s.nodeAt p).map Node.tag = some .internal →
    q < s.srcLen.toNat → s.srcValid q → s.platform.memValid (s.srcAddr.toNat + q) = false →
    xs.length ≤ s.dstCap.toNat → s.dstValid xs.length → s.disjointBuffers q xs.length →
    ∃ m, Memory.storedAt s.mem m s.dstAddr.toNat xs ∧
      let t := { s.commandEnd 1 1 (BitVec.ofNat 32 (s.srcAddr.toNat + q)) 0x02 with
          resBits := BitVec.ofNat 64 (8 * q), resSyms := BitVec.ofNat 32 xs.length
          resBytes := BitVec.ofNat 32 xs.length, mem := m }
      (8 * q < s.opBits → s.opBits ≤ 8 * s.srcLen.toNat → exec .decodeB s = .next t) ∧
      (xs.length < s.opSyms.toNat → exec .decodeS s = .next t)

/-- R224, R232, R83: with INV-T both DECODE commands end in a next state whatever their operands and the source are; they
write nothing but the result registers, the error fields and the first `RES_BYTES` bytes of the destination buffer, and
`RES_BYTES = RES_SYMS`, at most `DST_CAP`. -/
def Obligations.DecodeCompletesInsideItsBuffer : Prop :=
  ∀ (s : State) (i : Instr), InvT s → (i = .decodeB ∨ i = .decodeS) →
    ∃ t, exec i s = .next t ∧
      t = { s.commandEnd t.status.err t.status.sub t.errInfo 0 with
        errSticky := t.errSticky, resBits := t.resBits, resSyms := t.resSyms, resBytes := t.resBytes, mem := t.mem } ∧
      t.resBytes = t.resSyms ∧ t.resBytes.toNat ≤ s.dstCap.toNat ∧ t.resBits.toNat ≤ 8 * s.srcLen.toNat ∧
      ∀ a, (a < s.dstAddr.toNat ∨ s.dstAddr.toNat + t.resBytes.toNat ≤ a) → t.mem.byte a = s.mem.byte a

/-! ### The whole flow -/

/-- R234: the round trip. COUNT, BUILD, GEN and ENCODE of a source buffer end without error, and DECODE.B with ENCODE's
bit count, or DECODE.S with its symbol count, on the bytes ENCODE wrote gives the source back. -/
def Obligations.RoundTripGivesTheSourceBack : Prop :=
  ∀ s : State, s.srcValid s.srcLen.toNat →
    ∃ t1 t2 t3, exec .count s = .next t1 ∧ exec .build t1 = .next t2 ∧ exec .gen t2 = .next t3 ∧
      t1.status.err = 0 ∧ t2.status.err = 0 ∧ t3.status.err = 0 ∧
      let n := ((encodedBits t3 s.srcBytes).length + 7) / 8
      (n ≤ s.dstCap.toNat → s.dstValid n → s.disjointBuffers s.srcLen.toNat n →
        ∃ t4, exec .encode t3 = .next t4 ∧ t4.status.err = 0 ∧ t4.resBytes.toNat = n ∧
          ∀ a cap : Word,
            let u := { t4 with
              srcAddr := s.dstAddr, srcLen := t4.resBytes, dstAddr := a, dstCap := cap
              opBitsLo := t4.resBits.extractLsb' 0 32, opBitsHi := t4.resBits.extractLsb' 32 32
              opSyms := t4.resSyms }
            s.srcLen.toNat ≤ cap.toNat → u.dstValid s.srcLen.toNat → u.disjointBuffers n s.srcLen.toNat →
            ∀ i, (i = .decodeB ∨ i = .decodeS) →
              ∃ t5, exec i u = .next t5 ∧ t5.status.err = 0 ∧ t5.resSyms = s.srcLen ∧
                t5.mem.bytesFrom a.toNat s.srcLen.toNat = s.srcBytes)

/-! ### Errors -/

/-- R266, R270: the first `raise` of a command records its code, sub-cause and information and sets its sticky bit; a
later one only sets its sticky bit. -/
def Obligations.RaiseRecordsTheFirstError : Prop :=
  ∀ (s : State) (e : Err),
    (s.status.err = 0 → raise s e =
      { s with
        status := { err := e.code, treeValid := s.status.treeValid, sub := e.sub }, errInfo := e.info
        errSticky := (raise s e).errSticky }) ∧
    (s.status.err ≠ 0 → raise s e = { s with errSticky := (raise s e).errSticky }) ∧
    ∀ k, (raise s e).errSticky.getLsbD k = (s.errSticky.getLsbD k || decide (k = e.code.toNat))

/-- R261, R24: which (`ERR`, `SUB`) pairs each command can end with; and an error that is reported has its bit set in
`ERR_STICKY`, of which no command clears a bit. -/
def Obligations.CommandsRaiseOnlyTheirErrors : Prop :=
  ∀ (i : Instr) (s t : State), exec i s = .next t →
    (t.status.err, t.status.sub) ∈
      (match i with
        | .nop => [(0, 0)]
        | .count => [(0, 0), (1, 1)]
        | .build => [(0, 0)]
        | .gen => [(0, 0)]
        | .encode => [(0, 0), (1, 1), (1, 2), (1, 3), (2, 0)]
        | .decodeB => [(0, 0), (1, 1), (1, 2), (1, 3), (3, 1), (3, 3), (3, 4)]
        | .decodeS => [(0, 0), (1, 1), (1, 2), (1, 3), (3, 2), (3, 4)] : List (BitVec 4 × BitVec 3)) ∧
    (t.status.err ≠ 0 → t.errSticky.getLsbD t.status.err.toNat = true) ∧
    ∀ k, s.errSticky.getLsbD k = true → t.errSticky.getLsbD k = true

/-- R54: no command's behaviour depends on `STATUS.ERR`, `STATUS.SUB`, `ERR_INFO` or `ERR_STICKY`: from two states that
differ only there it does the same, and sets the same sticky bits. -/
def Obligations.CommandsIgnoreEarlierErrors : Prop :=
  ∀ (i : Instr) (s t : State) (err : BitVec 4) (sub : BitVec 3) (info sticky : Word), exec i s = .next t →
    ∃ new, t.errSticky = s.errSticky ||| new ∧
      exec i { s with status := { s.status with err := err, sub := sub }, errInfo := info, errSticky := sticky } =
        .next { t with errSticky := sticky ||| new }

/-- R50: a command's result never depends on the internal state an earlier command left. -/
def Obligations.CommandsIgnoreInternalState : Prop :=
  ∀ (i : Instr) (s : State) (p : Phase) (md : Bool) (mg : MergeRegs) (wk : WalkRegs) (pk : PackRegs) (up : UnpackRegs),
    exec i { s with phase := p, mode := md, merge := mg, walk := wk, pack := pk, unpack := up } = exec i s

/-- I5, R185, R224 (that the machine stops on a broken tree is the model's reading of the treatment `stuck`, log 7): a
command stops only with a `NODE` memory that is no tree under `TREE_VALID = 1`; no command is refused. -/
def Obligations.CommandsStopOnlyOnABrokenTree : Prop :=
  ∀ (i : Instr) (s : State),
    (∀ f, exec i s = .fault f → s.status.treeValid = true ∧ ¬ TreeShape s ∧ f = .brokenTree ∧
      (i = .gen ∨ i = .decodeB ∨ i = .decodeS)) ∧
    ∀ r, exec i s ≠ .refused r

/-! ### The sequencer level -/

/-- R6, R145, R187, R321: NOP, COUNT and GEN are the composition of their micro-steps, within the bounds of R321. -/
def Obligations.SequencerComposesCountAndGen : Prop :=
  ∀ (i : Instr) (s t : State), (i = .nop ∨ i = .count ∨ i = .gen) → exec i s = .next t →
    runMicro (microBound i s) (issueMicro i s) = .next t

/-- R6, R168, R321: BUILD is the composition of its micro-steps. -/
def Obligations.SequencerComposesBuild : Prop :=
  ∀ s t : State, exec .build s = .next t → runMicro (microBound .build s) (issueMicro .build s) = .next t

/-- R6, R210, R321: ENCODE is the composition of its micro-steps, at most `257 * SRC_LEN + 1`. -/
def Obligations.SequencerComposesEncode : Prop :=
  ∀ s t : State, exec .encode s = .next t → runMicro (microBound .encode s) (issueMicro .encode s) = .next t

/-- R6, R233, R321: DECODE.B and DECODE.S are the composition of their micro-steps, at most `3 * 8 * SRC_LEN + 2`. -/
def Obligations.SequencerComposesDecode : Prop :=
  ∀ (i : Instr) (s t : State), (i = .decodeB ∨ i = .decodeS) → exec i s = .next t →
    runMicro (microBound i s) (issueMicro i s) = .next t

/-! ### Host scripts -/

/-- R117: the pseudo-instructions. SETSRC and SETDST set their two registers; USEBITS copies `RES_BITS` to `OP_BITS` and
USESYMS `RES_SYMS` to `OP_SYMS`; TABLES is COUNT, BUILD, GEN and COMPRESS is TABLES and ENCODE, each ended by an error of
COUNT; DECOMPRESS.B and DECOMPRESS.S are the DECODE commands. That the words read stand in `replies` is the model's
(log 2). -/
def Obligations.PseudoInstructionsExpand : Prop :=
  ∀ s : State, s.phase = .idle →
    (∀ a n, Script.run (Script.setSrc a n) s = .next { s with srcAddr := a, srcLen := n }) ∧
    (∀ a n, Script.run (Script.setDst a n) s = .next { s with dstAddr := a, dstCap := n }) ∧
    (∃ x y, Script.run Script.useBits s = .next
        { s with opBitsLo := x, opBitsHi := y, replies := s.replies ++ [.word x, .word y] } ∧
      y.toNat * 2 ^ 32 + x.toNat = s.resBits.toNat) ∧
    Script.run Script.useSyms s = .next
      { s with opSyms := s.resSyms, replies := s.replies ++ [.word s.resSyms] } ∧
    (∀ t, exec .count s = .next t → t.status.err ≠ 0 →
      Script.run Script.tables s = .next t ∧ Script.run Script.compress s = .next t) ∧
    (∀ t1 t2 t3, exec .count s = .next t1 → t1.status.err = 0 → exec .build t1 = .next t2 → exec .gen t2 = .next t3 →
      Script.run Script.tables s = .next t3 ∧ Script.run Script.compress s = exec .encode t3) ∧
    Script.run Script.decompressB s = exec .decodeB s ∧ Script.run Script.decompressS s = exec .decodeS s
end

