-- ==== Sys2Proof/Laws/Memory.lean ====
section
/-! SUPPORT. The laws of `MEM`: read after write, and the canonical form that every memory operation keeps. -/

namespace Sys2Proof.Machine

@[simp] theorem Memory.find_write_same (m : Memory) (x : Nat) (v : Byte) :
    Memory.find (Memory.write m x v) x = some v := by
  induction m with
  | nil => simp [Memory.write, Memory.find]
  | cons c rest ih =>
    obtain ⟨a, w⟩ := c
    unfold Memory.write
    split
    · simp [Memory.find]
    · split
      · simp [Memory.find]
      · rw [Memory.find, if_neg (by omega)]; exact ih

theorem Memory.find_write_other (m : Memory) {x y : Nat} (v : Byte) (h : y ≠ x) :
    Memory.find (Memory.write m x v) y = Memory.find m y := by
  induction m with
  | nil => simp [Memory.write, Memory.find, Ne.symm h]
  | cons c rest ih =>
    obtain ⟨a, w⟩ := c
    unfold Memory.write
    split
    · rw [Memory.find, if_neg (Ne.symm h)]
    · split
      · rename_i hxa
        subst hxa
        simp [Memory.find, Ne.symm h]
      · simp only [Memory.find, ih]

@[simp] theorem Memory.byte_write_same (m : Memory) (x : Nat) (v : Byte) :
    Memory.byte (Memory.write m x v) x = v := by
  simp [Memory.byte]

theorem Memory.byte_write_other (m : Memory) {x y : Nat} (v : Byte) (h : y ≠ x) :
    Memory.byte (Memory.write m x v) y = Memory.byte m y := by
  simp [Memory.byte, Memory.find_write_other m v h]

/-- What a write lists: the new entry and old ones. -/
theorem Memory.mem_write {m : Memory} {x : Nat} {v : Byte} {c : Host.Cell} (h : c ∈ Memory.write m x v) :
    c = (x, v) ∨ c ∈ m := by
  induction m with
  | nil => exact .inl (by simpa [Memory.write] using h)
  | cons d rest ih =>
    obtain ⟨a, w⟩ := d
    unfold Memory.write at h
    split at h
    · simpa using h
    · split at h
      · rcases List.mem_cons.1 h with h | h
        · exact .inl h
        · exact .inr (List.mem_cons_of_mem _ h)
      · rcases List.mem_cons.1 h with h | h
        · exact .inr (h ▸ List.mem_cons_self)
        · exact (ih h).imp_right (List.mem_cons_of_mem _)

theorem Memory.wf_nil : Memory.wf [] := by simp [Memory.wf]

/-- A write inside the address space keeps the canonical form. -/
theorem Memory.wf_write {m : Memory} {x : Nat} (v : Byte) (h : Memory.wf m) (hx : x < Config.memSize) :
    Memory.wf (Memory.write m x v) := by
  refine ⟨?_, fun c hc => (Memory.mem_write hc).elim (fun e => e ▸ hx) (h.2 c)⟩
  have hp := h.1
  clear h
  induction m with
  | nil => simp [Memory.write]
  | cons d rest ih =>
    obtain ⟨a, w⟩ := d
    obtain ⟨hd, hr⟩ := List.pairwise_cons.1 hp
    unfold Memory.write
    split
    · rename_i hxa
      refine List.pairwise_cons.2 ⟨fun c hc => ?_, hp⟩
      rcases List.mem_cons.1 hc with rfl | hc
      · exact hxa
      · exact Nat.lt_trans hxa (hd c hc)
    · split
      · rename_i hxa
        subst hxa
        exact List.pairwise_cons.2 ⟨hd, hr⟩
      · refine List.pairwise_cons.2 ⟨fun c hc => ?_, ih hr⟩
        rcases Memory.mem_write hc with rfl | hc
        · simp only; omega
        · exact hd c hc

/-- A row of bytes inside the address space keeps it too. -/
theorem Memory.wf_writeAll {m : Memory} (bs : List Byte) {x : Nat} (h : Memory.wf m)
    (hx : x + bs.length ≤ Config.memSize) : Memory.wf (Memory.writeAll m x bs) := by
  induction bs generalizing m x with
  | nil => exact h
  | cons v vs ih =>
    simp only [List.length_cons] at hx
    exact ih (Memory.wf_write v h (by omega)) (by omega)

/-- The engine writes only inside the address space (R72). -/
theorem memValid_lt {p : Platform} {a : Nat} (h : p.memValid a = true) : a < Config.memSize := by
  simp only [Platform.memValid, Bool.and_eq_true, decide_eq_true_eq] at h
  exact h.1.1

/-- R74: what the engine's write can do. -/
theorem memWrite_eq_some {s t : State} {a : Nat} {v : Byte} :
    memWrite s a v = some t ↔ s.platform.memValid a = true ∧ t = { s with mem := s.mem.write a v } := by
  unfold memWrite
  split
  · rename_i hv
    exact ⟨fun h => ⟨hv, (Option.some.inj h).symm⟩, fun h => by rw [h.2]⟩
  · rename_i hv
    exact ⟨fun h => (by cases h), fun h => absurd h.1 hv⟩

theorem memWrite_eq_none {s : State} {a : Nat} {v : Byte} :
    memWrite s a v = none ↔ s.platform.memValid a = false := by
  unfold memWrite
  cases s.platform.memValid a <;> simp

/-- R73: what the engine's read can do. -/
theorem memRead_eq_some {s : State} {a : Nat} {b : Byte} :
    memRead s a = some b ↔ s.platform.memValid a = true ∧ b = s.mem.byte a := by
  unfold memRead
  split
  · rename_i hv
    exact ⟨fun h => ⟨hv, (Option.some.inj h).symm⟩, fun h => by rw [h.2]⟩
  · rename_i hv
    exact ⟨fun h => (by cases h), fun h => absurd h.1 hv⟩

theorem memRead_eq_none {s : State} {a : Nat} : memRead s a = none ↔ s.platform.memValid a = false := by
  unfold memRead
  cases s.platform.memValid a <;> simp

/-- The engine's write keeps the canonical form. -/
theorem memWrite_wf {s t : State} {a : Nat} {v : Byte} (h : s.mem.wf) (hw : memWrite s a v = some t) : t.mem.wf := by
  obtain ⟨hv, rfl⟩ := memWrite_eq_some.1 hw
  exact Memory.wf_write v h (memValid_lt hv)

/-- The memory after reset has the canonical form. -/
theorem reset_mem_wf : State.reset.mem.wf := Memory.wf_nil

end Sys2Proof.Machine
end

