-- ==== Sys2Proof/Laws/State.lean ====
section
/-! SUPPORT. One lemma per field per shared update of State, so that no proof unfolds a record update. -/

namespace Sys2Proof.Machine

@[simp] theorem beginCommand_eq (s : State) : beginCommand s = clearError s := rfl


@[simp] theorem clearError_status (s : State) : (clearError s).status = { s.status with err := 0, sub := 0 } := rfl
@[simp] theorem clearError_errInfo (s : State) : (clearError s).errInfo = 0 := rfl
@[simp] theorem clearError_errSticky (s : State) : (clearError s).errSticky = s.errSticky := rfl
@[simp] theorem clearError_srcAddr (s : State) : (clearError s).srcAddr = s.srcAddr := rfl
@[simp] theorem clearError_srcLen (s : State) : (clearError s).srcLen = s.srcLen := rfl
@[simp] theorem clearError_dstAddr (s : State) : (clearError s).dstAddr = s.dstAddr := rfl
@[simp] theorem clearError_dstCap (s : State) : (clearError s).dstCap = s.dstCap := rfl
@[simp] theorem clearError_opBitsLo (s : State) : (clearError s).opBitsLo = s.opBitsLo := rfl
@[simp] theorem clearError_opBitsHi (s : State) : (clearError s).opBitsHi = s.opBitsHi := rfl
@[simp] theorem clearError_opSyms (s : State) : (clearError s).opSyms = s.opSyms := rfl
@[simp] theorem clearError_resBits (s : State) : (clearError s).resBits = s.resBits := rfl
@[simp] theorem clearError_resSyms (s : State) : (clearError s).resSyms = s.resSyms := rfl
@[simp] theorem clearError_resBytes (s : State) : (clearError s).resBytes = s.resBytes := rfl
@[simp] theorem clearError_root (s : State) : (clearError s).root = s.root := rfl
@[simp] theorem clearError_nleaf (s : State) : (clearError s).nleaf = s.nleaf := rfl
@[simp] theorem clearError_nnode (s : State) : (clearError s).nnode = s.nnode := rfl
@[simp] theorem clearError_freq (s : State) : (clearError s).freq = s.freq := rfl
@[simp] theorem clearError_node (s : State) : (clearError s).node = s.node := rfl
@[simp] theorem clearError_code (s : State) : (clearError s).code = s.code := rfl
@[simp] theorem clearError_phase (s : State) : (clearError s).phase = s.phase := rfl
@[simp] theorem clearError_mode (s : State) : (clearError s).mode = s.mode := rfl
@[simp] theorem clearError_merge (s : State) : (clearError s).merge = s.merge := rfl
@[simp] theorem clearError_walk (s : State) : (clearError s).walk = s.walk := rfl
@[simp] theorem clearError_pack (s : State) : (clearError s).pack = s.pack := rfl
@[simp] theorem clearError_unpack (s : State) : (clearError s).unpack = s.unpack := rfl
@[simp] theorem clearError_mem (s : State) : (clearError s).mem = s.mem := rfl
@[simp] theorem clearError_platform (s : State) : (clearError s).platform = s.platform := rfl
@[simp] theorem clearError_host (s : State) : (clearError s).host = s.host := rfl
@[simp] theorem clearError_replies (s : State) : (clearError s).replies = s.replies := rfl

@[simp] theorem setTreeValid_status (s : State) (v : Bool) : (setTreeValid s v).status = { s.status with treeValid := v } := rfl
@[simp] theorem setTreeValid_errInfo (s : State) (v : Bool) : (setTreeValid s v).errInfo = s.errInfo := rfl
@[simp] theorem setTreeValid_errSticky (s : State) (v : Bool) : (setTreeValid s v).errSticky = s.errSticky := rfl
@[simp] theorem setTreeValid_srcAddr (s : State) (v : Bool) : (setTreeValid s v).srcAddr = s.srcAddr := rfl
@[simp] theorem setTreeValid_srcLen (s : State) (v : Bool) : (setTreeValid s v).srcLen = s.srcLen := rfl
@[simp] theorem setTreeValid_dstAddr (s : State) (v : Bool) : (setTreeValid s v).dstAddr = s.dstAddr := rfl
@[simp] theorem setTreeValid_dstCap (s : State) (v : Bool) : (setTreeValid s v).dstCap = s.dstCap := rfl
@[simp] theorem setTreeValid_opBitsLo (s : State) (v : Bool) : (setTreeValid s v).opBitsLo = s.opBitsLo := rfl
@[simp] theorem setTreeValid_opBitsHi (s : State) (v : Bool) : (setTreeValid s v).opBitsHi = s.opBitsHi := rfl
@[simp] theorem setTreeValid_opSyms (s : State) (v : Bool) : (setTreeValid s v).opSyms = s.opSyms := rfl
@[simp] theorem setTreeValid_resBits (s : State) (v : Bool) : (setTreeValid s v).resBits = s.resBits := rfl
@[simp] theorem setTreeValid_resSyms (s : State) (v : Bool) : (setTreeValid s v).resSyms = s.resSyms := rfl
@[simp] theorem setTreeValid_resBytes (s : State) (v : Bool) : (setTreeValid s v).resBytes = s.resBytes := rfl
@[simp] theorem setTreeValid_root (s : State) (v : Bool) : (setTreeValid s v).root = s.root := rfl
@[simp] theorem setTreeValid_nleaf (s : State) (v : Bool) : (setTreeValid s v).nleaf = s.nleaf := rfl
@[simp] theorem setTreeValid_nnode (s : State) (v : Bool) : (setTreeValid s v).nnode = s.nnode := rfl
@[simp] theorem setTreeValid_freq (s : State) (v : Bool) : (setTreeValid s v).freq = s.freq := rfl
@[simp] theorem setTreeValid_node (s : State) (v : Bool) : (setTreeValid s v).node = s.node := rfl
@[simp] theorem setTreeValid_code (s : State) (v : Bool) : (setTreeValid s v).code = s.code := rfl
@[simp] theorem setTreeValid_phase (s : State) (v : Bool) : (setTreeValid s v).phase = s.phase := rfl
@[simp] theorem setTreeValid_mode (s : State) (v : Bool) : (setTreeValid s v).mode = s.mode := rfl
@[simp] theorem setTreeValid_merge (s : State) (v : Bool) : (setTreeValid s v).merge = s.merge := rfl
@[simp] theorem setTreeValid_walk (s : State) (v : Bool) : (setTreeValid s v).walk = s.walk := rfl
@[simp] theorem setTreeValid_pack (s : State) (v : Bool) : (setTreeValid s v).pack = s.pack := rfl
@[simp] theorem setTreeValid_unpack (s : State) (v : Bool) : (setTreeValid s v).unpack = s.unpack := rfl
@[simp] theorem setTreeValid_mem (s : State) (v : Bool) : (setTreeValid s v).mem = s.mem := rfl
@[simp] theorem setTreeValid_platform (s : State) (v : Bool) : (setTreeValid s v).platform = s.platform := rfl
@[simp] theorem setTreeValid_host (s : State) (v : Bool) : (setTreeValid s v).host = s.host := rfl
@[simp] theorem setTreeValid_replies (s : State) (v : Bool) : (setTreeValid s v).replies = s.replies := rfl

@[simp] theorem toIdle_status (s : State) : (toIdle s).status = s.status := rfl
@[simp] theorem toIdle_errInfo (s : State) : (toIdle s).errInfo = s.errInfo := rfl
@[simp] theorem toIdle_errSticky (s : State) : (toIdle s).errSticky = s.errSticky := rfl
@[simp] theorem toIdle_srcAddr (s : State) : (toIdle s).srcAddr = s.srcAddr := rfl
@[simp] theorem toIdle_srcLen (s : State) : (toIdle s).srcLen = s.srcLen := rfl
@[simp] theorem toIdle_dstAddr (s : State) : (toIdle s).dstAddr = s.dstAddr := rfl
@[simp] theorem toIdle_dstCap (s : State) : (toIdle s).dstCap = s.dstCap := rfl
@[simp] theorem toIdle_opBitsLo (s : State) : (toIdle s).opBitsLo = s.opBitsLo := rfl
@[simp] theorem toIdle_opBitsHi (s : State) : (toIdle s).opBitsHi = s.opBitsHi := rfl
@[simp] theorem toIdle_opSyms (s : State) : (toIdle s).opSyms = s.opSyms := rfl
@[simp] theorem toIdle_resBits (s : State) : (toIdle s).resBits = s.resBits := rfl
@[simp] theorem toIdle_resSyms (s : State) : (toIdle s).resSyms = s.resSyms := rfl
@[simp] theorem toIdle_resBytes (s : State) : (toIdle s).resBytes = s.resBytes := rfl
@[simp] theorem toIdle_root (s : State) : (toIdle s).root = s.root := rfl
@[simp] theorem toIdle_nleaf (s : State) : (toIdle s).nleaf = s.nleaf := rfl
@[simp] theorem toIdle_nnode (s : State) : (toIdle s).nnode = s.nnode := rfl
@[simp] theorem toIdle_freq (s : State) : (toIdle s).freq = s.freq := rfl
@[simp] theorem toIdle_node (s : State) : (toIdle s).node = s.node := rfl
@[simp] theorem toIdle_code (s : State) : (toIdle s).code = s.code := rfl
@[simp] theorem toIdle_phase (s : State) : (toIdle s).phase = .idle := rfl
@[simp] theorem toIdle_mode (s : State) : (toIdle s).mode = false := rfl
@[simp] theorem toIdle_merge (s : State) : (toIdle s).merge = .idle := rfl
@[simp] theorem toIdle_walk (s : State) : (toIdle s).walk = .idle := rfl
@[simp] theorem toIdle_pack (s : State) : (toIdle s).pack = .idle := rfl
@[simp] theorem toIdle_unpack (s : State) : (toIdle s).unpack = .idle := rfl
@[simp] theorem toIdle_mem (s : State) : (toIdle s).mem = s.mem := rfl
@[simp] theorem toIdle_platform (s : State) : (toIdle s).platform = s.platform := rfl
@[simp] theorem toIdle_host (s : State) : (toIdle s).host = s.host := rfl
@[simp] theorem toIdle_replies (s : State) : (toIdle s).replies = s.replies := rfl

@[simp] theorem clearResults_status (s : State) : (clearResults s).status = s.status := rfl
@[simp] theorem clearResults_errInfo (s : State) : (clearResults s).errInfo = s.errInfo := rfl
@[simp] theorem clearResults_errSticky (s : State) : (clearResults s).errSticky = s.errSticky := rfl
@[simp] theorem clearResults_srcAddr (s : State) : (clearResults s).srcAddr = s.srcAddr := rfl
@[simp] theorem clearResults_srcLen (s : State) : (clearResults s).srcLen = s.srcLen := rfl
@[simp] theorem clearResults_dstAddr (s : State) : (clearResults s).dstAddr = s.dstAddr := rfl
@[simp] theorem clearResults_dstCap (s : State) : (clearResults s).dstCap = s.dstCap := rfl
@[simp] theorem clearResults_opBitsLo (s : State) : (clearResults s).opBitsLo = s.opBitsLo := rfl
@[simp] theorem clearResults_opBitsHi (s : State) : (clearResults s).opBitsHi = s.opBitsHi := rfl
@[simp] theorem clearResults_opSyms (s : State) : (clearResults s).opSyms = s.opSyms := rfl
@[simp] theorem clearResults_resBits (s : State) : (clearResults s).resBits = 0 := rfl
@[simp] theorem clearResults_resSyms (s : State) : (clearResults s).resSyms = 0 := rfl
@[simp] theorem clearResults_resBytes (s : State) : (clearResults s).resBytes = 0 := rfl
@[simp] theorem clearResults_root (s : State) : (clearResults s).root = s.root := rfl
@[simp] theorem clearResults_nleaf (s : State) : (clearResults s).nleaf = s.nleaf := rfl
@[simp] theorem clearResults_nnode (s : State) : (clearResults s).nnode = s.nnode := rfl
@[simp] theorem clearResults_freq (s : State) : (clearResults s).freq = s.freq := rfl
@[simp] theorem clearResults_node (s : State) : (clearResults s).node = s.node := rfl
@[simp] theorem clearResults_code (s : State) : (clearResults s).code = s.code := rfl
@[simp] theorem clearResults_phase (s : State) : (clearResults s).phase = s.phase := rfl
@[simp] theorem clearResults_mode (s : State) : (clearResults s).mode = s.mode := rfl
@[simp] theorem clearResults_merge (s : State) : (clearResults s).merge = s.merge := rfl
@[simp] theorem clearResults_walk (s : State) : (clearResults s).walk = s.walk := rfl
@[simp] theorem clearResults_pack (s : State) : (clearResults s).pack = s.pack := rfl
@[simp] theorem clearResults_unpack (s : State) : (clearResults s).unpack = s.unpack := rfl
@[simp] theorem clearResults_mem (s : State) : (clearResults s).mem = s.mem := rfl
@[simp] theorem clearResults_platform (s : State) : (clearResults s).platform = s.platform := rfl
@[simp] theorem clearResults_host (s : State) : (clearResults s).host = s.host := rfl
@[simp] theorem clearResults_replies (s : State) : (clearResults s).replies = s.replies := rfl

@[simp] theorem answer_status (s : State) (r : HostReply) : (answer s r).status = s.status := rfl
@[simp] theorem answer_errInfo (s : State) (r : HostReply) : (answer s r).errInfo = s.errInfo := rfl
@[simp] theorem answer_errSticky (s : State) (r : HostReply) : (answer s r).errSticky = s.errSticky := rfl
@[simp] theorem answer_srcAddr (s : State) (r : HostReply) : (answer s r).srcAddr = s.srcAddr := rfl
@[simp] theorem answer_srcLen (s : State) (r : HostReply) : (answer s r).srcLen = s.srcLen := rfl
@[simp] theorem answer_dstAddr (s : State) (r : HostReply) : (answer s r).dstAddr = s.dstAddr := rfl
@[simp] theorem answer_dstCap (s : State) (r : HostReply) : (answer s r).dstCap = s.dstCap := rfl
@[simp] theorem answer_opBitsLo (s : State) (r : HostReply) : (answer s r).opBitsLo = s.opBitsLo := rfl
@[simp] theorem answer_opBitsHi (s : State) (r : HostReply) : (answer s r).opBitsHi = s.opBitsHi := rfl
@[simp] theorem answer_opSyms (s : State) (r : HostReply) : (answer s r).opSyms = s.opSyms := rfl
@[simp] theorem answer_resBits (s : State) (r : HostReply) : (answer s r).resBits = s.resBits := rfl
@[simp] theorem answer_resSyms (s : State) (r : HostReply) : (answer s r).resSyms = s.resSyms := rfl
@[simp] theorem answer_resBytes (s : State) (r : HostReply) : (answer s r).resBytes = s.resBytes := rfl
@[simp] theorem answer_root (s : State) (r : HostReply) : (answer s r).root = s.root := rfl
@[simp] theorem answer_nleaf (s : State) (r : HostReply) : (answer s r).nleaf = s.nleaf := rfl
@[simp] theorem answer_nnode (s : State) (r : HostReply) : (answer s r).nnode = s.nnode := rfl
@[simp] theorem answer_freq (s : State) (r : HostReply) : (answer s r).freq = s.freq := rfl
@[simp] theorem answer_node (s : State) (r : HostReply) : (answer s r).node = s.node := rfl
@[simp] theorem answer_code (s : State) (r : HostReply) : (answer s r).code = s.code := rfl
@[simp] theorem answer_phase (s : State) (r : HostReply) : (answer s r).phase = s.phase := rfl
@[simp] theorem answer_mode (s : State) (r : HostReply) : (answer s r).mode = s.mode := rfl
@[simp] theorem answer_merge (s : State) (r : HostReply) : (answer s r).merge = s.merge := rfl
@[simp] theorem answer_walk (s : State) (r : HostReply) : (answer s r).walk = s.walk := rfl
@[simp] theorem answer_pack (s : State) (r : HostReply) : (answer s r).pack = s.pack := rfl
@[simp] theorem answer_unpack (s : State) (r : HostReply) : (answer s r).unpack = s.unpack := rfl
@[simp] theorem answer_mem (s : State) (r : HostReply) : (answer s r).mem = s.mem := rfl
@[simp] theorem answer_platform (s : State) (r : HostReply) : (answer s r).platform = s.platform := rfl
@[simp] theorem answer_host (s : State) (r : HostReply) : (answer s r).host = s.host := rfl
@[simp] theorem answer_replies (s : State) (r : HostReply) : (answer s r).replies = s.replies ++ [r] := rfl

@[simp] theorem raise_errSticky (s : State) (e : Err) : (raise s e).errSticky = s.errSticky ||| e.stickyBit := by unfold raise; dsimp only; split <;> rfl
@[simp] theorem raise_srcAddr (s : State) (e : Err) : (raise s e).srcAddr = s.srcAddr := by unfold raise; dsimp only; split <;> rfl
@[simp] theorem raise_srcLen (s : State) (e : Err) : (raise s e).srcLen = s.srcLen := by unfold raise; dsimp only; split <;> rfl
@[simp] theorem raise_dstAddr (s : State) (e : Err) : (raise s e).dstAddr = s.dstAddr := by unfold raise; dsimp only; split <;> rfl
@[simp] theorem raise_dstCap (s : State) (e : Err) : (raise s e).dstCap = s.dstCap := by unfold raise; dsimp only; split <;> rfl
@[simp] theorem raise_opBitsLo (s : State) (e : Err) : (raise s e).opBitsLo = s.opBitsLo := by unfold raise; dsimp only; split <;> rfl
@[simp] theorem raise_opBitsHi (s : State) (e : Err) : (raise s e).opBitsHi = s.opBitsHi := by unfold raise; dsimp only; split <;> rfl
@[simp] theorem raise_opSyms (s : State) (e : Err) : (raise s e).opSyms = s.opSyms := by unfold raise; dsimp only; split <;> rfl
@[simp] theorem raise_resBits (s : State) (e : Err) : (raise s e).resBits = s.resBits := by unfold raise; dsimp only; split <;> rfl
@[simp] theorem raise_resSyms (s : State) (e : Err) : (raise s e).resSyms = s.resSyms := by unfold raise; dsimp only; split <;> rfl
@[simp] theorem raise_resBytes (s : State) (e : Err) : (raise s e).resBytes = s.resBytes := by unfold raise; dsimp only; split <;> rfl
@[simp] theorem raise_root (s : State) (e : Err) : (raise s e).root = s.root := by unfold raise; dsimp only; split <;> rfl
@[simp] theorem raise_nleaf (s : State) (e : Err) : (raise s e).nleaf = s.nleaf := by unfold raise; dsimp only; split <;> rfl
@[simp] theorem raise_nnode (s : State) (e : Err) : (raise s e).nnode = s.nnode := by unfold raise; dsimp only; split <;> rfl
@[simp] theorem raise_freq (s : State) (e : Err) : (raise s e).freq = s.freq := by unfold raise; dsimp only; split <;> rfl
@[simp] theorem raise_node (s : State) (e : Err) : (raise s e).node = s.node := by unfold raise; dsimp only; split <;> rfl
@[simp] theorem raise_code (s : State) (e : Err) : (raise s e).code = s.code := by unfold raise; dsimp only; split <;> rfl
@[simp] theorem raise_phase (s : State) (e : Err) : (raise s e).phase = s.phase := by unfold raise; dsimp only; split <;> rfl
@[simp] theorem raise_mode (s : State) (e : Err) : (raise s e).mode = s.mode := by unfold raise; dsimp only; split <;> rfl
@[simp] theorem raise_merge (s : State) (e : Err) : (raise s e).merge = s.merge := by unfold raise; dsimp only; split <;> rfl
@[simp] theorem raise_walk (s : State) (e : Err) : (raise s e).walk = s.walk := by unfold raise; dsimp only; split <;> rfl
@[simp] theorem raise_pack (s : State) (e : Err) : (raise s e).pack = s.pack := by unfold raise; dsimp only; split <;> rfl
@[simp] theorem raise_unpack (s : State) (e : Err) : (raise s e).unpack = s.unpack := by unfold raise; dsimp only; split <;> rfl
@[simp] theorem raise_mem (s : State) (e : Err) : (raise s e).mem = s.mem := by unfold raise; dsimp only; split <;> rfl
@[simp] theorem raise_platform (s : State) (e : Err) : (raise s e).platform = s.platform := by unfold raise; dsimp only; split <;> rfl
@[simp] theorem raise_host (s : State) (e : Err) : (raise s e).host = s.host := by unfold raise; dsimp only; split <;> rfl
@[simp] theorem raise_replies (s : State) (e : Err) : (raise s e).replies = s.replies := by unfold raise; dsimp only; split <;> rfl

@[simp] theorem newNode_status (s : State) (n : Node) : (newNode s n).status = s.status := rfl
@[simp] theorem newNode_errInfo (s : State) (n : Node) : (newNode s n).errInfo = s.errInfo := rfl
@[simp] theorem newNode_errSticky (s : State) (n : Node) : (newNode s n).errSticky = s.errSticky := rfl
@[simp] theorem newNode_srcAddr (s : State) (n : Node) : (newNode s n).srcAddr = s.srcAddr := rfl
@[simp] theorem newNode_srcLen (s : State) (n : Node) : (newNode s n).srcLen = s.srcLen := rfl
@[simp] theorem newNode_dstAddr (s : State) (n : Node) : (newNode s n).dstAddr = s.dstAddr := rfl
@[simp] theorem newNode_dstCap (s : State) (n : Node) : (newNode s n).dstCap = s.dstCap := rfl
@[simp] theorem newNode_opBitsLo (s : State) (n : Node) : (newNode s n).opBitsLo = s.opBitsLo := rfl
@[simp] theorem newNode_opBitsHi (s : State) (n : Node) : (newNode s n).opBitsHi = s.opBitsHi := rfl
@[simp] theorem newNode_opSyms (s : State) (n : Node) : (newNode s n).opSyms = s.opSyms := rfl
@[simp] theorem newNode_resBits (s : State) (n : Node) : (newNode s n).resBits = s.resBits := rfl
@[simp] theorem newNode_resSyms (s : State) (n : Node) : (newNode s n).resSyms = s.resSyms := rfl
@[simp] theorem newNode_resBytes (s : State) (n : Node) : (newNode s n).resBytes = s.resBytes := rfl
@[simp] theorem newNode_root (s : State) (n : Node) : (newNode s n).root = s.root := rfl
@[simp] theorem newNode_nleaf (s : State) (n : Node) : (newNode s n).nleaf = s.nleaf := rfl
@[simp] theorem newNode_nnode (s : State) (n : Node) : (newNode s n).nnode = s.nnode := rfl
@[simp] theorem newNode_freq (s : State) (n : Node) : (newNode s n).freq = s.freq := rfl
@[simp] theorem newNode_node (s : State) (n : Node) : (newNode s n).node = s.node.setIfInBounds s.merge.k.toNat n := rfl
@[simp] theorem newNode_code (s : State) (n : Node) : (newNode s n).code = s.code := rfl
@[simp] theorem newNode_phase (s : State) (n : Node) : (newNode s n).phase = s.phase := rfl
@[simp] theorem newNode_mode (s : State) (n : Node) : (newNode s n).mode = s.mode := rfl
@[simp] theorem newNode_merge (s : State) (n : Node) : (newNode s n).merge = { s.merge with pq := s.merge.k.truncate 9 :: s.merge.pq, k := s.merge.k + 1 } := rfl
@[simp] theorem newNode_walk (s : State) (n : Node) : (newNode s n).walk = s.walk := rfl
@[simp] theorem newNode_pack (s : State) (n : Node) : (newNode s n).pack = s.pack := rfl
@[simp] theorem newNode_unpack (s : State) (n : Node) : (newNode s n).unpack = s.unpack := rfl
@[simp] theorem newNode_mem (s : State) (n : Node) : (newNode s n).mem = s.mem := rfl
@[simp] theorem newNode_platform (s : State) (n : Node) : (newNode s n).platform = s.platform := rfl
@[simp] theorem newNode_host (s : State) (n : Node) : (newNode s n).host = s.host := rfl
@[simp] theorem newNode_replies (s : State) (n : Node) : (newNode s n).replies = s.replies := rfl

@[simp] theorem recordCode_status (s : State) (x : Byte) : (recordCode s x).status = s.status := rfl
@[simp] theorem recordCode_errInfo (s : State) (x : Byte) : (recordCode s x).errInfo = s.errInfo := rfl
@[simp] theorem recordCode_errSticky (s : State) (x : Byte) : (recordCode s x).errSticky = s.errSticky := rfl
@[simp] theorem recordCode_srcAddr (s : State) (x : Byte) : (recordCode s x).srcAddr = s.srcAddr := rfl
@[simp] theorem recordCode_srcLen (s : State) (x : Byte) : (recordCode s x).srcLen = s.srcLen := rfl
@[simp] theorem recordCode_dstAddr (s : State) (x : Byte) : (recordCode s x).dstAddr = s.dstAddr := rfl
@[simp] theorem recordCode_dstCap (s : State) (x : Byte) : (recordCode s x).dstCap = s.dstCap := rfl
@[simp] theorem recordCode_opBitsLo (s : State) (x : Byte) : (recordCode s x).opBitsLo = s.opBitsLo := rfl
@[simp] theorem recordCode_opBitsHi (s : State) (x : Byte) : (recordCode s x).opBitsHi = s.opBitsHi := rfl
@[simp] theorem recordCode_opSyms (s : State) (x : Byte) : (recordCode s x).opSyms = s.opSyms := rfl
@[simp] theorem recordCode_resBits (s : State) (x : Byte) : (recordCode s x).resBits = s.resBits := rfl
@[simp] theorem recordCode_resSyms (s : State) (x : Byte) : (recordCode s x).resSyms = s.resSyms := rfl
@[simp] theorem recordCode_resBytes (s : State) (x : Byte) : (recordCode s x).resBytes = s.resBytes := rfl
@[simp] theorem recordCode_root (s : State) (x : Byte) : (recordCode s x).root = s.root := rfl
@[simp] theorem recordCode_nleaf (s : State) (x : Byte) : (recordCode s x).nleaf = s.nleaf := rfl
@[simp] theorem recordCode_nnode (s : State) (x : Byte) : (recordCode s x).nnode = s.nnode := rfl
@[simp] theorem recordCode_freq (s : State) (x : Byte) : (recordCode s x).freq = s.freq := rfl
@[simp] theorem recordCode_node (s : State) (x : Byte) : (recordCode s x).node = s.node := rfl
@[simp] theorem recordCode_phase (s : State) (x : Byte) : (recordCode s x).phase = s.phase := rfl
@[simp] theorem recordCode_mode (s : State) (x : Byte) : (recordCode s x).mode = s.mode := rfl
@[simp] theorem recordCode_merge (s : State) (x : Byte) : (recordCode s x).merge = s.merge := rfl
@[simp] theorem recordCode_walk (s : State) (x : Byte) : (recordCode s x).walk = s.walk := rfl
@[simp] theorem recordCode_pack (s : State) (x : Byte) : (recordCode s x).pack = s.pack := rfl
@[simp] theorem recordCode_unpack (s : State) (x : Byte) : (recordCode s x).unpack = s.unpack := rfl
@[simp] theorem recordCode_mem (s : State) (x : Byte) : (recordCode s x).mem = s.mem := rfl
@[simp] theorem recordCode_platform (s : State) (x : Byte) : (recordCode s x).platform = s.platform := rfl
@[simp] theorem recordCode_host (s : State) (x : Byte) : (recordCode s x).host = s.host := rfl
@[simp] theorem recordCode_replies (s : State) (x : Byte) : (recordCode s x).replies = s.replies := rfl

theorem toIdle_toIdle (s : State) : toIdle (toIdle s) = toIdle s := rfl

theorem raise_treeValid (s : State) (e : Err) : (raise s e).status.treeValid = s.status.treeValid := by
  unfold raise; dsimp only; split <;> rfl

end Sys2Proof.Machine
end

