-- ==== Sys2Proof/Laws/Control.lean ====
section
/-! SUPPORT. The laws of the parts of a command: `Ctl`, its sequencing and loop, the end of a command, `raise` and
`putByte`. -/

namespace Sys2Proof.Machine

@[simp] theorem Ctl.andThen_go (s : State) (f : State → Ctl) : (Ctl.go s).andThen f = f s := rfl
@[simp] theorem Ctl.andThen_ended (s : State) (f : State → Ctl) : (Ctl.ended s).andThen f = .ended s := rfl
@[simp] theorem Ctl.andThen_stuck (e : Fault) (f : State → Ctl) : (Ctl.stuck e).andThen f = .stuck e := rfl
@[simp] theorem Ctl.finish_go (s : State) : (Ctl.go s).finish = .next (toIdle s) := rfl
@[simp] theorem Ctl.finish_ended (s : State) : (Ctl.ended s).finish = .next (toIdle s) := rfl
@[simp] theorem Ctl.finish_stuck (e : Fault) : (Ctl.stuck e).finish = .fault e := rfl
@[simp] theorem Ctl.loop_zero (body : State → Ctl) (s : State) : Ctl.loop body 0 s = .go s := rfl
theorem Ctl.loop_succ (body : State → Ctl) (n : Nat) (s : State) :
    Ctl.loop body (n + 1) s = (body s).andThen (Ctl.loop body n) := rfl

theorem Ctl.andThen_assoc (c : Ctl) (f g : State → Ctl) :
    (c.andThen f).andThen g = c.andThen fun s => (f s).andThen g := by
  cases c <;> rfl

/-- The parts of a loop can be run one after another. -/
theorem Ctl.loop_add (body : State → Ctl) (m n : Nat) (s : State) :
    Ctl.loop body (m + n) s = (Ctl.loop body m s).andThen (Ctl.loop body n) := by
  induction m generalizing s with
  | zero => simp
  | succ m ih =>
    rw [Nat.succ_add, Ctl.loop_succ, Ctl.loop_succ, Ctl.andThen_assoc]
    congr 1
    funext t
    exact ih t

/-- The part goes on only to states with `P` and ends only in states with `Q`. -/
def Ctl.Ends (P Q : State → Prop) : Ctl → Prop
  | .go s => P s
  | .ended s => Q s
  | .stuck _ => True

theorem Ctl.Ends.andThen {P P' Q : State → Prop} {c : Ctl} {f : State → Ctl} (hc : c.Ends P Q)
    (hf : ∀ s, P s → (f s).Ends P' Q) : (c.andThen f).Ends P' Q := by
  cases c with
  | go s => exact hf s hc
  | ended s => exact hc
  | stuck e => trivial

/-- The induction over a loop, once: what the body keeps, the loop keeps. -/
theorem Ctl.Ends.loop {P Q : State → Prop} {body : State → Ctl} (hb : ∀ s, P s → (body s).Ends P Q) (n : Nat)
    {s : State} (hs : P s) : (Ctl.loop body n s).Ends P Q := by
  induction n generalizing s with
  | zero => exact hs
  | succ n ih => exact (hb s hs).andThen fun t ht => ih ht

/-- What a command that ends can leave: `toIdle` of a state one of its parts ended in. -/
theorem Ctl.finish_eq_next {c : Ctl} {t : State} :
    c.finish = .next t ↔ ∃ s, (c = .go s ∨ c = .ended s) ∧ t = toIdle s := by
  cases c <;> simp [Ctl.finish, eq_comm]

theorem Ctl.finish_eq_fault {c : Ctl} {f : Fault} : c.finish = .fault f ↔ c = .stuck f := by
  cases c <;> simp [Ctl.finish]

theorem Ctl.finish_ne_refused (c : Ctl) (r : Refusal) : c.finish ≠ .refused r := by
  cases c <;> simp [Ctl.finish]

/-! ### Errors -/

theorem Err.code_ne_zero (e : Err) : e.code ≠ 0 := by
  cases e <;> simp [Err.code]

theorem Err.code_range (e : Err) : 1 ≤ e.code.toNat ∧ e.code.toNat ≤ 4 := by
  cases e <;> simp [Err.code]

/-- After a `raise` an error is recorded. -/
theorem raise_err_ne_zero (s : State) (e : Err) : (raise s e).status.err ≠ 0 := by
  unfold raise
  dsimp only
  split
  · exact e.code_ne_zero
  · assumption

/-- A `raise` in a command that has no error yet (R266). -/
theorem raise_status {s : State} (e : Err) (h : s.status.err = 0) :
    (raise s e).status = { s.status with err := e.code, sub := e.sub } ∧ (raise s e).errInfo = e.info := by
  simp [raise, h]

/-- A `raise` in a command that has an error already (R270). -/
theorem raise_status_kept {s : State} (e : Err) (h : s.status.err ≠ 0) :
    (raise s e).status = s.status ∧ (raise s e).errInfo = s.errInfo := by
  unfold raise
  dsimp only
  rw [if_neg h]
  exact ⟨rfl, rfl⟩

/-! ### The destination buffer -/

/-- R204: everything `putByte` can do. -/
theorem putByte_cases (s : State) (v : Byte) :
    (s.resBytes = s.dstCap ∧ putByte s v = .ended (raise s (.ioCapacity s.dstEnd))) ∨
    (s.resBytes ≠ s.dstCap ∧ s.platform.memValid s.dstByteAddr = false ∧
      putByte s v = .ended (raise s (.ioWrite s.dstByteAddr))) ∨
    (s.resBytes ≠ s.dstCap ∧ s.platform.memValid s.dstByteAddr = true ∧
      putByte s v = .go { s with mem := s.mem.write s.dstByteAddr v, resBytes := s.resBytes + 1 }) := by
  by_cases hc : s.resBytes = s.dstCap
  · exact .inl ⟨hc, by simp [putByte, hc]⟩
  · cases hv : s.platform.memValid s.dstByteAddr
    · exact .inr (.inl ⟨hc, rfl, by simp [putByte, hc, memWrite, hv]⟩)
    · exact .inr (.inr ⟨hc, rfl, by simp [putByte, hc, memWrite, hv]⟩)

/-- A byte put keeps the memory's canonical form, whether it is written or an error is raised. -/
theorem putByte_wf {s : State} (v : Byte) (h : s.mem.wf) :
    (putByte s v).Ends (fun t => t.mem.wf) (fun t => t.mem.wf) := by
  rcases putByte_cases s v with ⟨_, hp⟩ | ⟨_, _, hp⟩ | ⟨_, hv, hp⟩ <;> rw [hp]
  · simpa [Ctl.Ends] using h
  · simpa [Ctl.Ends] using h
  · exact Memory.wf_write v h (memValid_lt hv)

end Sys2Proof.Machine
end

