-- ==== Sys2Proof/Laws/PerInstr.lean ====
section
/-! SUPPORT. Statements made for every instruction, one lemma per constructor. -/

namespace Sys2Proof.Laws.Encoding

/-- R100, R101, R103: the fields of an instruction are well formed, its word has exactly those fields, and its reserved
bits 31:9 are 0. -/
def Statement (i : Instr) : Prop :=
  i.fields.wellFormed = true ∧ cmdFields (encode i) = i.fields ∧ (encode i).toNat < 2 ^ 9

theorem nop : Statement .nop := by unfold Statement; decide
theorem count : Statement .count := by unfold Statement; decide
theorem build : Statement .build := by unfold Statement; decide
theorem gen : Statement .gen := by unfold Statement; decide
theorem encode : Statement .encode := by unfold Statement; decide
theorem decodeB : Statement .decodeB := by unfold Statement; decide
theorem decodeS : Statement .decodeS := by unfold Statement; decide

end Sys2Proof.Laws.Encoding
end

