-- ==== Sys2Proof/Laws/Script.lean ====
section
/-! SUPPORT. The laws of host scripts: what one line does. -/

namespace Sys2Proof

@[simp] theorem ScriptVars.get_x (e : ScriptVars) : e.get .x = e.x := rfl
@[simp] theorem ScriptVars.get_y (e : ScriptVars) : e.get .y = e.y := rfl
@[simp] theorem ScriptVars.set_get_same (e : ScriptVars) (v : ScriptVar) (w : Word) : (e.set v w).get v = w := by
  cases v <;> rfl
theorem ScriptVars.set_get_other (e : ScriptVars) {v u : ScriptVar} (w : Word) (h : u ≠ v) :
    (e.set v w).get u = e.get u := by
  cases v <;> cases u <;> first | rfl | exact absurd rfl h

end Sys2Proof

namespace Sys2Proof.Machine

@[simp] theorem runScript_nil (e : ScriptVars) (s : State) : runScript [] e s = .next s := rfl

/-- Writing a command's word to `CMD` runs the command (R250). -/
theorem hostAccess_command (i : Instr) (s : State) : hostAccess s (.write 0x0000 (encode i)) = exec i s := by
  have hd : decode (encode i) = .command i := by cases i <;> decide
  have hw : (HostOp.write 0x0000 (encode i)).wellFormed = true := rfl
  have ho : WindowReg.ofOffset 0x0000 = .cmd := rfl
  simp only [hostAccess, hw, if_true, hostWrite, ho, issueCommand, hd]

/-- A command line of a script (R116, R117): the command runs, and the script goes on if it left no error. -/
theorem runScript_command (i : Instr) (rest : List ScriptLine) (e : ScriptVars) (s : State) :
    runScript (Script.command i :: rest) e s =
      match exec i s with
      | .next t => if t.status.err = 0 then runScript rest e t else .next t
      | .fault f => .fault f
      | .refused r => .refused r := by
  rw [runScript, Script.command, ScriptLine.hostOp, hostAccess_command]
  cases exec i s with
  | next t => by_cases h : t.status.err = 0 <;> simp [HostOp.isCommand, bindRead, h]
  | fault f => rfl
  | refused r => rfl

/-- `RD off -> v`: the name takes the word that the window holds. -/
theorem runScript_readTo {off : Nat} (v : ScriptVar) (rest : List ScriptLine) (e : ScriptVars) (s : State)
    (h : (HostOp.read off).wellFormed = true) :
    runScript (.readTo off v :: rest) e s =
      runScript rest (e.set v (hostRead s off)) (answer s (.word (hostRead s off))) := by
  simp [runScript, ScriptLine.hostOp, hostAccess, h, HostOp.isCommand, bindRead, answer]

/-- `WR off, v` to a register other than `CMD`. -/
theorem runScript_writeFrom {off : Nat} (v : ScriptVar) (rest : List ScriptLine) (e : ScriptVars) (s : State)
    (h : (HostOp.write off (e.get v)).wellFormed = true) (hc : WindowReg.ofOffset off ≠ .cmd) :
    runScript (.writeFrom off v :: rest) e s =
      runScript rest e (windowWrite s (WindowReg.ofOffset off) (e.get v)) := by
  have h0 : off ≠ 0 := by rintro rfl; exact hc rfl
  have hw : hostAccess s (.write off (e.get v)) = .next (windowWrite s (WindowReg.ofOffset off) (e.get v)) := by
    rw [hostAccess, if_pos h]
    simp only [hostWrite]
  have hi : HostOp.isCommand (.write off (e.get v)) = false := by
    cases off with
    | zero => exact absurd rfl h0
    | succ n => rfl
  simp [runScript, ScriptLine.hostOp, hw, hi, bindRead]

end Sys2Proof.Machine
end

