-- ==== Sys2Proof/Laws/Units.lean ====
section
/-! SUPPORT. One lemma for each micro-step of the units that says everything it can do. -/

namespace Sys2Proof.Machine

/-- U0, `C_SCAN` (R141). -/
theorem countByte_cases (s : State) :
    let a := s.srcByteAddr s.resSyms.toNat
    let b := s.mem.byte a
    (s.platform.memValid a = false ∧ countByte s = .ended (raise s (.ioRead a))) ∨
    (s.platform.memValid a = true ∧ countByte s =
      .go { s with freq := s.freq.set b.toNat (s.freqAt b + 1) b.isLt, resSyms := s.resSyms + 1 }) := by
  intro a b
  cases hv : s.platform.memValid a
  · exact .inl ⟨rfl, by simp only [countByte, memRead]; rw [if_neg (by simpa using hv)]⟩
  · exact .inr ⟨rfl, by simp only [countByte, memRead]; rw [if_pos hv]⟩

/-- U3, `E_FETCH` (R201). -/
theorem fetchSymbol_cases (s : State) :
    let a := s.srcByteAddr s.pack.i.toNat
    (s.platform.memValid a = false ∧ fetchSymbol s = .ended (raise s (.ioRead a))) ∨
    (s.platform.memValid a = true ∧
      fetchSymbol s = .go { s with pack := { s.pack with sym := s.mem.byte a } }) := by
  intro a
  cases hv : s.platform.memValid a
  · exact .inl ⟨rfl, by simp only [fetchSymbol, memRead]; rw [if_neg (by simpa using hv)]⟩
  · exact .inr ⟨rfl, by simp only [fetchSymbol, memRead]; rw [if_pos hv]⟩

/-- U3, `E_LOOKUP` (R205). -/
theorem lookupSymbol_cases (s : State) :
    ((s.codeAt s.pack.sym).len = 0 ∧ lookupSymbol s = .ended (raise s (.unknownSymbol s.pack.sym))) ∨
    ((s.codeAt s.pack.sym).len ≠ 0 ∧ lookupSymbol s = .go { s with pack := { s.pack with kbit := 0 } }) := by
  by_cases h : (s.codeAt s.pack.sym).len = 0
  · exact .inl ⟨h, by simp [lookupSymbol, h]⟩
  · exact .inr ⟨h, by rw [lookupSymbol, if_neg h]⟩

/-- U3, `PutByte(acc) ; acc <- 0 ; nacc <- 0` (R201). -/
theorem putAcc_cases (s : State) :
    (s.resBytes = s.dstCap ∧ putAcc s = .ended (raise s (.ioCapacity s.dstEnd))) ∨
    (s.resBytes ≠ s.dstCap ∧ s.platform.memValid s.dstByteAddr = false ∧
      putAcc s = .ended (raise s (.ioWrite s.dstByteAddr))) ∨
    (s.resBytes ≠ s.dstCap ∧ s.platform.memValid s.dstByteAddr = true ∧
      putAcc s = .go { s with
        mem := s.mem.write s.dstByteAddr s.pack.acc, resBytes := s.resBytes + 1
        pack := { s.pack with acc := 0, nacc := 0 } }) := by
  rcases putByte_cases s s.pack.acc with ⟨hc, hp⟩ | ⟨hc, hv, hp⟩ | ⟨hc, hv, hp⟩
  · exact .inl ⟨hc, by rw [putAcc, hp]; rfl⟩
  · exact .inr (.inl ⟨hc, hv, by rw [putAcc, hp]; rfl⟩)
  · exact .inr (.inr ⟨hc, hv, by rw [putAcc, hp]; rfl⟩)

/-- U3, `E_FLUSH` (R206): with nothing in the packer nothing happens, else the byte is put. -/
theorem flushAcc_cases (s : State) :
    (s.pack.nacc = 0 ∧ flushAcc s = .go s) ∨ (s.pack.nacc ≠ 0 ∧ flushAcc s = putAcc s) := by
  by_cases h : s.pack.nacc = 0
  · exact .inl ⟨h, by simp [flushAcc, h]⟩
  · exact .inr ⟨h, by rw [flushAcc, if_neg h]⟩

/-- U4, `D_FETCH` (R225). -/
theorem fetchByte_cases (s : State) :
    let a := s.srcByteAddr (s.unpack.j.toNat / 8)
    (s.unpack.j.toNat % 8 ≠ 0 ∧ fetchByte s = .go s) ∨
    (s.unpack.j.toNat % 8 = 0 ∧ s.platform.memValid a = false ∧ fetchByte s = .ended (raise s (.ioRead a))) ∨
    (s.unpack.j.toNat % 8 = 0 ∧ s.platform.memValid a = true ∧
      fetchByte s = .go { s with unpack := { s.unpack with cur := s.mem.byte a } }) := by
  intro a
  by_cases h : s.unpack.j.toNat % 8 = 0
  · cases hv : s.platform.memValid a
    · exact .inr (.inl ⟨h, rfl, by
        simp only [fetchByte, memRead]; rw [if_pos h, if_neg (by simpa using hv)]⟩)
    · exact .inr (.inr ⟨h, rfl, by simp only [fetchByte, memRead]; rw [if_pos h, if_pos hv]⟩)
  · exact .inl ⟨h, by simp [fetchByte, h]⟩

/-- U4, `D_WALK` (R224): from an internal node, by the tag of the child reached. -/
theorem walkBit_of_internal {s : State} {n c : Node} (hn : s.nodeAt s.unpack.pos = some n)
    (hi : n.tag = .internal)
    (hc : s.nodeAt (if streamBit s.unpack.cur (s.unpack.j.toNat % 8) then n.right else n.left) = some c) :
    let pos := if streamBit s.unpack.cur (s.unpack.j.toNat % 8) then n.right else n.left
    let t := { s with unpack := { s.unpack with pos := pos }, resBits := s.unpack.j + 1 }
    walkBit s =
      match c.tag with
      | .internal => .go t
      | .leaf => .go t
      | .placeholder => .ended (raise t (.placeholder pos))
      | .empty => .stuck .brokenTree := by
  intro pos t
  simp only [walkBit, hn, hi, if_true, hc]
  cases c.tag <;> rfl

/-- U1: the queue's extraction succeeds exactly on a queue with a member (R163). -/
theorem pqExtractMin_isSome (node : Vector Node 511) (pq : List Idx) :
    (pqExtractMin node pq).isSome = !pq.isEmpty := by
  cases pq <;> rfl

/-- U1: entering a phase other than `IDLE` changes only the phase. -/
theorem enterPhase_of_ne {p : Phase} (s : State) (h : p ≠ .idle) : enterPhase s p = { s with phase := p } := by
  simp [enterPhase, h]

end Sys2Proof.Machine
end

