-- ==== Sys2Proof/Tests/Slice0.lean ====
section
/-! SUPPORT. The model's own tests: ill-formed terms, words written out from spec/30_encoding.md, the vectors of
spec/95_test_vectors.md, and a witness for the hypotheses of each statement. -/

namespace Sys2Proof.Tests

open Sys2Proof Sys2Proof.Machine

-- One theorem after another: a hundred waiting on the kernel at once take more threads than the check's memory allows.
set_option Elab.async false

/-! ### Ill-formed terms are refused -/

theorem test_fields_reserved : CmdFields.wellFormed { rsv := 1, mode := 0, opc := 2 } = false := by decide
theorem test_fields_opcode : CmdFields.wellFormed { rsv := 0, mode := 0, opc := 6 } = false := by decide
theorem test_fields_mode : CmdFields.wellFormed { rsv := 0, mode := 1, opc := 4 } = false := by decide
theorem test_fields_decode_mode : CmdFields.wellFormed { rsv := 0, mode := 1, opc := 5 } = true := by decide
theorem test_read_misaligned : (HostOp.read 0x0006).wellFormed = false := by decide
theorem test_read_outside : (HostOp.read 0x8000).wellFormed = false := by decide
theorem test_write_misaligned : (HostOp.write 0x0001 0).wellFormed = false := by decide
theorem test_write_outside : (HostOp.write 0x8000 0).wellFormed = false := by decide
theorem test_store_outside : (HostOp.store 0xFFFFFFFF [1, 2]).wellFormed = false := by decide
theorem test_load_outside : (HostOp.load 0xFFFFFFFF 2).wellFormed = false := by decide

/-! ### Words written out bit by bit (R100, R101): `RSV` 23 bits, `MODE` 1 bit, `OPC` 8 bits -/

theorem test_word_nop : decode 0b00000000000000000000000000000000#32 = .command .nop := by decide
theorem test_word_count : decode 0b00000000000000000000000000000001#32 = .command .count := by decide
theorem test_word_build : decode 0b00000000000000000000000000000010#32 = .command .build := by decide
theorem test_word_gen : decode 0b00000000000000000000000000000011#32 = .command .gen := by decide
theorem test_word_encode : decode 0b00000000000000000000000000000100#32 = .command .encode := by decide
theorem test_word_decodeB : decode 0b00000000000000000000000000000101#32 = .command .decodeB := by decide
theorem test_word_decodeS : decode 0b00000000000000000000000100000101#32 = .command .decodeS := by decide

/-- V33: the illegal words and their causes. -/
theorem test_word_illegal :
    decode 0x00000104 = .illegal .badRsv ∧ decode 0x00000006 = .illegal .badOpc ∧
      decode 0x80000002 = .illegal .badRsv ∧ decode 0x00000205 = .illegal .badRsv := by decide

theorem test_table_word : decodeTableWord 32 0x105 = some .decodeS ∧ decodeTableWord 32 0x106 = none := by decide

/-! ### Small states -/

/-- The next state of an outcome. -/
def nextOf (o : Host.Outcome State Fault Refusal) : Option State :=
  match o with
  | .next s => some s
  | _ => none

theorem exists_next {o : Host.Outcome State Fault Refusal} (h : (nextOf o).isSome = true) : ∃ t, o = .next t := by
  cases o with
  | next s => exact ⟨s, rfl⟩
  | fault f => simp [nextOf] at h
  | refused r => simp [nextOf] at h

/-- The reset state with a program. -/
def withOps (ops : List HostOp) : State := { State.reset with host := ops }

def leafNode (x : Byte) (w : Weight) : Node := { tag := .leaf, sym := x, weight := w, left := 0, right := 0 }
def innerNode (w : Weight) (l r : Idx) : Node := { tag := .internal, sym := 0, weight := w, left := l, right := r }

/-- A tree with the symbols 41, 42, 43 of weights 1, 1, 2: `C` = 0, `A` = 10, `B` = 11. -/
def treeState : State :=
  { State.reset with
    status := { err := 0, treeValid := true, sub := 0 }, root := 4, nleaf := 3, nnode := 5
    node := (((((Vector.replicate 511 Node.unused).set 0 (leafNode 0x41 1)).set 1 (leafNode 0x42 1)).set 2
      (leafNode 0x43 2)).set 3 (innerNode 2 0 1)).set 4 (innerNode 4 2 3) }

/-- `treeState` with its Code Table. -/
def codedState : State :=
  { treeState with
    code := (((Vector.replicate 256 CodeEntry.none).set 0x41 { len := 2, bits := 2#256 <<< 254 }).set 0x42
      { len := 2, bits := 3#256 <<< 254 }).set 0x43 { len := 1, bits := 0 } }

/-- The tree of a single symbol 41 of weight 4 (V22). -/
def singleState : State :=
  { State.reset with
    status := { err := 0, treeValid := true, sub := 0 }, root := 2, nleaf := 2, nnode := 3
    node := ((((Vector.replicate 511 Node.unused).set 0 (leafNode 0x41 4)).set 1
      { tag := .placeholder, sym := 0, weight := 0, left := 0, right := 0 }).set 2 (innerNode 4 1 0)) }

/-- The tree of "hello" (V2). -/
def helloState : State :=
  { State.reset with
    status := { err := 0, treeValid := true, sub := 0 }, root := 6, nleaf := 4, nnode := 7
    node := (((((((Vector.replicate 511 Node.unused).set 0 (leafNode 0x65 1)).set 1 (leafNode 0x68 1)).set 2
      (leafNode 0x6C 2)).set 3 (leafNode 0x6F 1)).set 4 (innerNode 2 0 1)).set 5 (innerNode 3 3 2)).set 6
      (innerNode 5 4 5) }

/-- Source bytes at 16 and a destination of four bytes at 32. -/
def withBuffers (s : State) (src : List Byte) (cap : Word) : State :=
  { s with
    mem := Memory.writeAll [] 16 src, srcAddr := 16, srcLen := BitVec.ofNat 32 src.length, dstAddr := 32, dstCap := cap }

/-- One address does not answer the engine. -/
def withHole (s : State) (a : Nat) : State := { s with platform := { window := none, holes := [⟨a, 1⟩] } }

/-- Two addresses do not answer the engine. -/
def withHoles (s : State) (a b : Nat) : State := { s with platform := { window := none, holes := [⟨a, 1⟩, ⟨b, 1⟩] } }

/-- The fields a test looks at: `STATUS`, `ERR_INFO`, `ERR_STICKY`, `RES_BITS`, `RES_SYMS`, `RES_BYTES`; and `MEM`. -/
def report (o : Host.Outcome State Fault Refusal) : Option (List Nat × Memory) :=
  (nextOf o).map fun s =>
    ([s.status.word.toNat, s.errInfo.toNat, s.errSticky.toNat, s.resBits.toNat, s.resSyms.toNat, s.resBytes.toNat],
      s.mem)

/-! ### One step of each command, on the vectors of spec/95_test_vectors.md -/

/-- P5, line 9: after a failed DECODE, NOP leaves `STATUS = 0x10` and the sticky bit. -/
theorem test_nop_clears :
    report (exec .nop { treeState with
      status := { err := 3, treeValid := true, sub := 1 }, errInfo := 5, errSticky := 8, resBits := 9 }) =
      some ([0x10, 0, 8, 9, 0, 0], []) := by decide +kernel

/-- V33: ENCODE with `MODE` set. -/
theorem test_illegal :
    report (step (withOps [.write 0x0000 0x00000104])) = some ([0x204, 0x104, 0x10, 0, 0, 0], []) := by decide +kernel

/-- V1: COUNT of "hello". -/
theorem test_count_hello :
    (nextOf (exec .count (withBuffers .reset [0x68, 0x65, 0x6C, 0x6C, 0x6F] 0))).map
      (fun s => (hostRead s 0x0594, hostRead s 0x05A0, hostRead s 0x05B0, hostRead s 0x05BC, hostRead s 0x0038)) =
      some (1, 1, 2, 1, 5) := by decide +kernel

/-- V20: COUNT with a read fault at the fourth byte. -/
theorem test_count_fault :
    report (exec .count (withHole (withBuffers .reset [0x68, 0x65, 0x6C, 0x6C, 0x6F] 0) 19)) =
      some ([0x101, 19, 2, 0, 3, 0], Memory.writeAll [] 16 [0x68, 0x65, 0x6C, 0x6C, 0x6F]) := by decide +kernel

/-- V2: BUILD of the "hello" table: nodes 4, 5 and 6. -/
theorem test_build_hello :
    (nextOf (exec .build { State.reset with
      freq := ((((Vector.replicate 256 0).set 0x65 1).set 0x68 1).set 0x6C 2).set 0x6F 1 })).map
      (fun s => ([s.nodeAt 4, s.nodeAt 5, s.nodeAt 6], s.root, s.nleaf, s.nnode, s.status.word)) =
      some ([some (innerNode 2 0 1), some (innerNode 3 3 2), some (innerNode 5 4 5)], 6, 4, 7, 0x10) := by
  decide +kernel

/-- V22, from the leaf on: the placeholder is the left child. -/
theorem test_build_single :
    let s := buildFromLeaves (newNode State.reset (leafNode 0x41 4))
    ([s.nodeAt 0, s.nodeAt 1, s.nodeAt 2], s.root, s.nleaf, s.nnode) =
      ([singleState.nodeAt 0, singleState.nodeAt 1, some (innerNode 4 1 0)], 2, 2, 3) := by decide +kernel

/-- V4: GEN of the "hello" tree. -/
theorem test_gen_hello :
    (nextOf (exec .gen helloState)).map
      (fun s => (hostRead s 0x5940, hostRead s 0x5960, hostRead s 0x5A20, hostRead s 0x5B20, hostRead s 0x5BE0)) =
      some (2, 0, 0x40000000, 0xC0000000, 0x80000000) := by decide +kernel

/-- V24: GEN of the single-symbol tree. -/
theorem test_gen_single :
    (nextOf (exec .gen singleState)).map (fun s => (hostRead s 0x5040, hostRead s 0x5060, hostRead s 0x4000)) =
      some (1, 0x80000000, 0) := by decide +kernel

/-- ENCODE of "BAC" with `codedState`: bits 11 10 0, one byte `E0` (R76 to R78). -/
theorem test_encode :
    report (exec .encode (withBuffers codedState [0x42, 0x41, 0x43] 4)) =
      some ([0x10, 0, 0, 5, 3, 1], Memory.write (Memory.writeAll [] 16 [0x42, 0x41, 0x43]) 32 0xE0) := by decide +kernel

/-- V26 with `DST_CAP = 0`: the flush after an unknown symbol fails; only the sticky bit tells. -/
theorem test_encode_unknown :
    report (exec .encode (withBuffers codedState [0x41, 0x44] 0)) =
      some ([0x12, 0x44, 6, 2, 1, 0], Memory.writeAll [] 16 [0x41, 0x44]) := by decide +kernel

/-- V6: DECODE.B of the "hello" artifact. -/
theorem test_decodeB_hello :
    report (exec .decodeB { withBuffers helloState [0x4F, 0x80] 16 with opBitsLo := 10 }) =
      some ([0x10, 0, 0, 10, 5, 5],
        Memory.writeAll (Memory.writeAll [] 16 [0x4F, 0x80]) 32 [0x68, 0x65, 0x6C, 0x6C, 0x6F]) := by decide +kernel

/-- V8 (a): one bit short. -/
theorem test_decodeB_off_root :
    report (exec .decodeB { withBuffers helloState [0x4F, 0x80] 16 with opBitsLo := 9 }) =
      some ([0x113, 5, 8, 9, 4, 4],
        Memory.writeAll (Memory.writeAll [] 16 [0x4F, 0x80]) 32 [0x68, 0x65, 0x6C, 0x6C]) := by decide +kernel

/-- V7: DECODE.S of the same. -/
theorem test_decodeS_hello :
    report (exec .decodeS { withBuffers helloState [0x4F, 0x80] 16 with opSyms := 5 }) =
      some ([0x10, 0, 0, 10, 5, 5],
        Memory.writeAll (Memory.writeAll [] 16 [0x4F, 0x80]) 32 [0x68, 0x65, 0x6C, 0x6C, 0x6F]) := by decide +kernel

/-- V11: DECODE.S of five symbols from "AAAA": the placeholder. -/
theorem test_decodeS_placeholder :
    report (exec .decodeS { withBuffers singleState [0xF0] 16 with opSyms := 5 }) =
      some ([0x413, 1, 8, 5, 4, 4],
        Memory.writeAll (Memory.writeAll [] 16 [0xF0]) 32 [0x41, 0x41, 0x41, 0x41]) := by decide +kernel

/-- V34: the host sees its write to `FREQ`, not its write to `NODE`. -/
theorem test_host_writes :
    hostRead (windowWrite helloState (WindowReg.ofOffset 0x0594) 7) 0x0594 = 7 ∧
      hostRead (windowWrite helloState (WindowReg.ofOffset 0x1060) 0) 0x1060 = 2 := by decide +kernel

/-- V3: the heap organisation extracts 0, then 1, from the heap of the four leaves. -/
theorem test_heap_hello :
    heapExtractMin helloState.node [0, 1, 2, 3] = some (0, [1, 3, 2]) ∧
      heapExtractMin helloState.node [1, 3, 2] = some (1, [3, 2]) ∧
      heapInsert helloState.node [3, 2] 4 = [3, 2, 4] := by decide +kernel

/-- P2, lines 1 to 3: after ENCODE of "hello" (`RES_BITS` = 10, `RES_SYMS` = 5) USEBITS and USESYMS set the counts. -/
theorem test_use_counts :
    (nextOf (Script.run (Script.useBits ++ Script.useSyms)
      { State.reset with resBits := 0x70000000A, resSyms := 5 })).map
        (fun s => (s.opBitsLo, s.opBitsHi, s.opSyms, s.replies)) =
      some (10, 7, 5, [.word 10, .word 7, .word 5]) := by decide +kernel

/-- R117: COMPRESS stops at COUNT when the source cannot be read (V20). -/
theorem test_compress_stops :
    report (Script.run Script.compress (withHole (withBuffers .reset [0x68, 0x65] 4) 17)) =
      some ([0x101, 17, 2, 0, 1, 0], Memory.writeAll [] 16 [0x68, 0x65]) := by decide +kernel

/-! ### The host's reading of each instruction, by rows of the table -/

/-- A command word placed by `withFetchWord` is what the next step runs (reset, `GEN`). -/
theorem test_fetch_word : (nextOf (step (State.reset.withFetchWord 32 3))).map State.host = some [] := by
  decide +kernel

/-! ### Facts about the small trees -/

theorem shape_congr {s t : State} (h : TreeShape s) (hv : t.status.treeValid = s.status.treeValid)
    (hr : t.root = s.root) (hl : t.nleaf = s.nleaf) (hk : t.nnode = s.nnode) (hn : t.node = s.node) : TreeShape t := by
  obtain ⟨st, _, _, _, _, _, _, _, _, _, _, _, _, rt, nl, nn, fr, nd, _⟩ := t
  dsimp only at hv hr hl hk hn
  subst hr hl hk hn
  exact ⟨hv.trans h.valid, h.leaves_ge, h.leaves_le, h.nodes, h.root_last, h.leaf, h.ascending, h.internal, h.once,
    h.rest_empty⟩

theorem treeState_shape : TreeShape treeState where
  valid := rfl
  leaves_ge := by decide
  leaves_le := by decide
  nodes := by decide
  root_last := by decide
  leaf := by
    intro i h hi
    replace hi : i < 3 := hi
    revert h
    interval_cases i <;> decide +kernel
  ascending := by
    intro i j hi hj hij hjl
    replace hjl : j < 3 := hjl
    revert hi hj
    interval_cases j <;> interval_cases i <;> decide +kernel
  internal := by
    intro i h h1 h2
    replace h1 : 3 ≤ i := h1
    replace h2 : i < 5 := h2
    revert h
    interval_cases i <;> decide +kernel
  once := by
    intro c hc
    replace hc : c + 1 < 5 := hc
    have : c < 4 := by omega
    interval_cases c <;> decide +kernel
  rest_empty := by
    intro i h hi
    replace hi : 5 ≤ i := hi
    simp [treeState, show 4 ≠ i by omega, show 3 ≠ i by omega, show 2 ≠ i by omega,
      show 1 ≠ i by omega, show 0 ≠ i by omega]

theorem singleState_shape : TreeShape singleState where
  valid := rfl
  leaves_ge := by decide
  leaves_le := by decide
  nodes := by decide
  root_last := by decide
  leaf := by
    intro i h hi
    replace hi : i < 2 := hi
    revert h
    interval_cases i <;> decide +kernel
  ascending := by
    intro i j hi hj hij hjl
    replace hjl : j < 2 := hjl
    revert hi hj
    interval_cases j <;> interval_cases i; decide +kernel
  internal := by
    intro i h h1 h2
    replace h1 : 2 ≤ i := h1
    replace h2 : i < 3 := h2
    revert h
    interval_cases i; decide +kernel
  once := by
    intro c hc
    replace hc : c + 1 < 3 := hc
    have : c < 2 := by omega
    interval_cases c <;> decide +kernel
  rest_empty := by
    intro i h hi
    replace hi : 3 ≤ i := hi
    simp [singleState, show 2 ≠ i by omega, show 1 ≠ i by omega, show 0 ≠ i by omega]

/-- What the entries of `treeState` are. -/
theorem treeState_node (i : Nat) (h : i < 511) :
    treeState.node[i] =
      if i = 0 then leafNode 0x41 1 else if i = 1 then leafNode 0x42 1 else if i = 2 then leafNode 0x43 2
      else if i = 3 then innerNode 2 0 1 else if i = 4 then innerNode 4 2 3 else Node.unused := by
  simp only [treeState, Vector.getElem_set, Vector.getElem_replicate]
  split_ifs <;> first | rfl | omega

theorem treeState_leaf (i : Idx) (x : Byte) (h : leafOf treeState.node i x) :
    (i = 0 ∧ x = 0x41) ∨ (i = 1 ∧ x = 0x42) ∨ (i = 2 ∧ x = 0x43) := by
  obtain ⟨n, hn, ht, hx⟩ := h
  obtain ⟨hi, rfl⟩ := Vector.getElem?_eq_some_iff.1 hn
  rw [treeState_node] at ht hx
  split_ifs at ht hx with h0 h1 h2 h3 h4
  · exact .inl ⟨BitVec.eq_of_toNat_eq h0, hx.symm⟩
  · exact .inr (.inl ⟨BitVec.eq_of_toNat_eq h1, hx.symm⟩)
  · exact .inr (.inr ⟨BitVec.eq_of_toNat_eq h2, hx.symm⟩)
  all_goals cases ht

theorem treeState_weights : InvW treeState := by
  intro i h
  rw [treeState_node]
  split_ifs <;> decide +kernel

/-- The codes of `treeState`, as paths. -/
def treeCode (x : Byte) : List Bool := if x = 0x43 then [false] else if x = 0x41 then [true, false] else [true, true]

theorem treeCode_isCode : ∀ x ∈ [0x43, 0x41, 0x42], isCodeOf treeState (treeCode x) x := by
  simp only [List.forall_mem_cons, List.not_mem_nil, false_implies, implies_true, and_true]
  exact ⟨⟨2, by decide +kernel, leafNode 0x43 2, by decide +kernel, rfl, rfl⟩,
    ⟨0, by decide +kernel, leafNode 0x41 1, by decide +kernel, rfl, rfl⟩,
    ⟨1, by decide +kernel, leafNode 0x42 1, by decide +kernel, rfl, rfl⟩⟩

theorem treeCode_all (xs : List Byte) (h : ∀ x ∈ xs, x ∈ [0x43, 0x41, 0x42]) :
    ∀ x ∈ xs, isCodeOf treeState (treeCode x) x := fun x hx => treeCode_isCode x (h x hx)

theorem codedState_shape : TreeShape codedState := shape_congr treeState_shape rfl rfl rfl rfl rfl

theorem codedState_codes : InvC codedState := by
  refine .inr ⟨rfl, fun x => ?_⟩
  have key : (x = 0x41 ∨ x = 0x42 ∨ x = 0x43) ∨ codedState.codeAt x = CodeEntry.none := by
    revert x; decide +kernel
  rcases key with (rfl | rfl | rfl) | hx
  · refine ⟨⟨fun _ => ⟨0, leafNode 0x41 1, by decide +kernel, rfl, rfl⟩, fun _ => by decide +kernel⟩, fun _ => ?_,
      by decide +kernel⟩
    have : (codedState.codeAt 0x41).bitList = treeCode 0x41 := by decide +kernel
    rw [this]
    exact treeCode_isCode 0x41 (by decide)
  · refine ⟨⟨fun _ => ⟨1, leafNode 0x42 1, by decide +kernel, rfl, rfl⟩, fun _ => by decide +kernel⟩, fun _ => ?_,
      by decide +kernel⟩
    have : (codedState.codeAt 0x42).bitList = treeCode 0x42 := by decide +kernel
    rw [this]
    exact treeCode_isCode 0x42 (by decide)
  · refine ⟨⟨fun _ => ⟨2, leafNode 0x43 2, by decide +kernel, rfl, rfl⟩, fun _ => by decide +kernel⟩, fun _ => ?_,
      by decide +kernel⟩
    have : (codedState.codeAt 0x43).bitList = treeCode 0x43 := by decide +kernel
    rw [this]
    exact treeCode_isCode 0x43 (by decide)
  · rw [hx]
    refine ⟨⟨fun h => absurd h (by decide), fun ⟨i, hi⟩ => ?_⟩, fun h => absurd h (by decide), fun k _ _ => ?_⟩
    · rcases treeState_leaf i x hi with ⟨_, rfl⟩ | ⟨_, rfl⟩ | ⟨_, rfl⟩ <;> revert hx <;> decide +kernel
    · simp [CodeEntry.bit]

/-! ### Witnesses: states and operands that meet the hypotheses of the statements, one theorem for each statement that
has hypotheses -/

theorem witness_DecodeAcceptsExactlyTheSevenWords : ∀ i, (0x80000106 : Word) ≠ encode i := by
  intro i
  cases i <;> decide

theorem witness_WindowOffsetsRoundTrip :
    (WindowReg.node 510 3).offset = some 0x2FEC ∧ (WindowReg.freq 255).offset = some 0x07FC ∧
      (WindowReg.code 255 15).offset = some 0x7FFC ∧
      (∀ off ∈ [0x0048, 0x07FC, 0x2FEC, 0x7FFC], off % 4 = 0 ∧ off < 0x8000 ∧ WindowReg.ofOffset off ≠ .unused) := by
  decide +kernel

theorem witness_StepRunsTheDecodedCommand :
    (withOps [.write 0 5]).phase = .idle ∧ (withOps [.write 0 5]).host = .write 0x0000 5 :: [] ∧
      decode 5 = .command .decodeB ∧ Instr.decodeB.wellFormed = true ∧
      decodeTableWord 32 0x105 = some .decodeS := by decide +kernel

theorem witness_IllegalWordIsRecorded :
    (withOps [.write 0 0x106]).phase = .idle ∧ (withOps [.write 0 0x106]).host = .write 0x0000 0x106 :: [] ∧
      ∀ i, (0x106 : Word) ≠ encode i := by
  refine ⟨rfl, rfl, fun i => ?_⟩
  cases i <;> decide

theorem witness_RefusedAccessChangesNothing :
    ((withOps [.read 0x8000]).host = .read 0x8000 :: [] ∧ (0x8000 % 4 ≠ 0 ∨ 0x8000 ≤ 0x8000)) ∧
    ((withOps [.write 0x7FFD 0]).host = .write 0x7FFD 0 :: [] ∧ (0x7FFD % 4 ≠ 0 ∨ 0x8000 ≤ 0x7FFD)) ∧
    ((withOps [.store 0xFFFFFFFF [1, 2]]).host = .store 0xFFFFFFFF [1, 2] :: [] ∧
      2 ^ 32 < 0xFFFFFFFF + ([1, 2] : List Byte).length) ∧
    ((withOps [.load 0x100000000 1]).host = .load 0x100000000 1 :: [] ∧ 2 ^ 32 < 0x100000000 + 1) ∧
    ∀ ops, (withOps ops).phase = .idle := by
  refine ⟨⟨rfl, by decide⟩, ⟨rfl, by decide⟩, ⟨rfl, by decide⟩, ⟨rfl, by decide⟩, fun _ => rfl⟩

theorem witness_HostReadAnswersTheRegister :
    (withOps [.read 0x7FFC]).phase = .idle ∧ (withOps [.read 0x7FFC]).host = .read 0x7FFC :: [] ∧
      0x7FFC % 4 = 0 ∧ 0x7FFC < 0x8000 := ⟨rfl, rfl, by decide, by decide⟩

theorem witness_TableRecordsRead :
    ∀ off ∈ [0x2FF0, 0x3FFC], off % 4 = 0 ∧ 0x2FF0 ≤ off ∧ off < 0x4000 := by decide

theorem witness_OtherOffsetsReadZeroAndIgnoreWrites :
    (∀ off ∈ [0x002C, 0x004C, 0x03FC, 0x0800, 0x0FFC, 0x2FF0, 0x3FFC], off % 4 = 0 ∧
      (off = 0x002C ∨ (0x004C ≤ off ∧ off < 0x0400) ∨ (0x0800 ≤ off ∧ off < 0x1000) ∨
        (0x2FF0 ≤ off ∧ off < 0x4000))) ∧
    (∀ off ∈ [0x0004, 0x0008, 0x002C, 0x03FC, 0x0800, 0x7FFC], off % 4 = 0 ∧ off < 0x8000 ∧
      (off = 0x0004 ∨ off = 0x0008 ∨ (0x002C ≤ off ∧ off < 0x0400) ∨ 0x0800 ≤ off)) ∧
    (withOps [.write 0x7FFC 1]).phase = .idle ∧ (withOps [.write 0x7FFC 1]).host = .write 0x7FFC 1 :: [] := by
  refine ⟨by decide, by decide, rfl, rfl⟩

theorem witness_HostWriteSetsTheRegister : State.reset.phase = .idle := rfl

theorem witness_StickyBitsAreClearedOnlyByTheHost :
    let s := { withOps [.write 0x000C 0x1E] with errSticky := 8 }
    s.phase = .idle ∧ s.host = .write 0x000C 0x1E :: [] ∧ s.errSticky.getLsbD 3 = true ∧
      ∃ t, step s = .next t ∧ t.errSticky.getLsbD 3 = false :=
  ⟨rfl, rfl, by decide, _, rfl, by decide⟩

theorem witness_HostStoresAndLoadsMem :
    ((withOps [.store 0xFFFFFFFE [1, 2]]).host = .store 0xFFFFFFFE [1, 2] :: [] ∧
      0xFFFFFFFE + ([1, 2] : List Byte).length ≤ 2 ^ 32) ∧
    ((withOps [.load 0xFFFFFFFF 1]).host = .load 0xFFFFFFFF 1 :: [] ∧ 0xFFFFFFFF + 1 ≤ 2 ^ 32) ∧
    ∀ ops, (withOps ops).phase = .idle := by
  refine ⟨⟨rfl, by decide⟩, ⟨rfl, by decide⟩, fun _ => rfl⟩

theorem witness_ResetIsAllZero : 0x7FFC % 4 = 0 ∧ 0x7FFC < 0x8000 := by decide

theorem witness_StepKeepsTheMachineForm :
    let s := withOps [.write 0x0000 1]
    toIdle s = s ∧ StatusLegal s ∧ StickyLegal s ∧ s.mem.wf ∧ ∃ t, step s = .next t :=
  ⟨rfl, .inl ⟨rfl, rfl, rfl⟩, by unfold StickyLegal; decide, by decide, exists_next (by decide +kernel)⟩

theorem witness_StepKeepsTheTableInvariants :
    let s := { codedState with host := [.write 0x0000 (encode .gen)] }
    toIdle s = s ∧ InvT s ∧ InvW s ∧ InvC s ∧ ∃ t, step s = .next t :=
  ⟨rfl, .inr (shape_congr treeState_shape rfl rfl rfl rfl rfl), treeState_weights, codedState_codes,
    exists_next (by decide +kernel)⟩

/-- The state with no tree and an old Code Table, and GEN to come. -/
def oldCodes : State :=
  { codedState with
    status := { err := 0, treeValid := false, sub := 0 }
    host := [.write 0x0000 (encode .gen)] }

/-- One state for each clause: its piece of state changes. -/
theorem witness_StateHasItsWriters :
    (∃ s t, s.phase = .idle ∧ step s = .next t ∧ t.freq ≠ s.freq ∧ s.host = [.write 0x07FC 1]) ∧
    (∃ s t, s.phase = .idle ∧ step s = .next t ∧ t.nnode ≠ s.nnode ∧ s.host = [.write 0x0000 (encode .build)]) ∧
    (∃ s t, s.phase = .idle ∧ step s = .next t ∧ t.code ≠ s.code ∧ s.host = [.write 0x0000 (encode .gen)]) ∧
    (∃ s t, s.phase = .idle ∧ step s = .next t ∧ t.mem ≠ s.mem ∧ s.host = [.store 0 [1]]) ∧
    (∃ s t, s.phase = .idle ∧ step s = .next t ∧ t.opSyms ≠ s.opSyms ∧ s.host = [.write 0x0028 1]) := by
  refine ⟨⟨withOps [.write 0x07FC 1], _, rfl, rfl, fun h => ?_, rfl⟩,
    ⟨{ treeState with host := [.write 0x0000 (encode .build)] }, _, rfl, rfl, ?_, rfl⟩,
    ⟨oldCodes, _, rfl, rfl, fun h => ?_, rfl⟩,
    ⟨withOps [.store 0 [1]], _, rfl, rfl, by decide, rfl⟩,
    ⟨withOps [.write 0x0028 1], _, rfl, rfl, by decide, rfl⟩⟩
  · have := congrArg (fun v : Vector Word 256 => v[255]) h
    revert this
    decide +kernel
  · decide +kernel
  · have := congrArg (fun v : Vector CodeEntry 256 => v[0x43]) h
    revert this
    decide +kernel

/-! COUNT -/

theorem witness_CountCountsTheSource :
    let s := withBuffers .reset [0x41, 0x42, 0x41] 0
    s.srcLen = 3 ∧ s.srcValid s.srcLen.toNat := ⟨rfl, by unfold State.srcValid; decide +kernel⟩

theorem witness_CountStopsAtAnInvalidByte :
    let s := withHole (withBuffers .reset [0x41, 0x42, 0x41] 0) 18
    2 < s.srcLen.toNat ∧ s.srcValid 2 ∧ s.platform.memValid (s.srcAddr.toNat + 2) = false :=
  ⟨by decide, by unfold State.srcValid; decide +kernel, by decide +kernel⟩

/-! BUILD -/

/-- A table with the symbol 41 alone. -/
def oneCount : State := { State.reset with freq := (Vector.replicate 256 0).set 0x41 4 }

theorem witness_BuildOfAnEmptyTable : ∀ x, State.reset.freqAt x = 0 := by
  intro x
  simp [State.freqAt, State.reset]

theorem witness_BuildOfOneSymbol : oneCount.freqAt 0x41 ≠ 0 ∧ ∀ y, y ≠ 0x41 → oneCount.freqAt y = 0 := by
  decide +kernel

theorem witness_BuildDependsOnFreqAlone : State.reset.freq = treeState.freq := rfl

/-- The hypothesis of `BuildLeavesInSymbolOrder`, `BuildMakesATree` and `BuildWeightsAreSums`. -/
theorem witness_BuildOfATableWithAKey :
    presentSymbols oneCount ≠ [] ∧ (presentSymbols oneCount)[0]? = some 0x41 := by decide +kernel

theorem witness_ExtractMinTakesTheLeastKey : (0 : Idx) ≠ 1 ∧ ([0, 1] : List Idx) ≠ [] := by decide

theorem witness_MergeJoinsTheTwoLeast :
    let s := { treeState with merge := { MergeRegs.idle with pq := [0, 1], k := 510 } }
    2 ≤ s.merge.pq.length ∧ s.merge.pq.Nodup ∧ s.merge.k.toNat < 511 := by decide +kernel

theorem witness_HeapExtractsLikeTheQueue :
    ([0, 1, 2, 3] : List Idx).Nodup ∧
    (∀ p c, (c = 2 * p + 1 ∨ c = 2 * p + 2) → c < ([0, 1, 2, 3] : List Idx).length →
      keyLess helloState.node (heapAt [0, 1, 2, 3] c) (heapAt [0, 1, 2, 3] p) = false) ∧
    4 ∉ ([0, 1, 2, 3] : List Idx) ∧ ([0, 1, 2, 3] : List Idx) ≠ [] := by
  refine ⟨by decide, fun p c hc hl => ?_, by decide, by decide⟩
  replace hl : c < 4 := hl
  have hp : p < 2 := by omega
  interval_cases p <;> interval_cases c <;> first | omega | decide +kernel

/-! GEN -/

theorem witness_GenWithoutATreeEmptiesTheTable : State.reset.status.treeValid = false := rfl

theorem witness_GenWritesThePaths :
    TreeShape treeState ∧ TreeShape singleState ∧ (∃ i, leafOf treeState.node i 0x43) ∧
      ¬ ∃ i, leafOf treeState.node i 0x44 := by
  refine ⟨treeState_shape, singleState_shape, ⟨2, leafNode 0x43 2, by decide +kernel, rfl, rfl⟩, fun ⟨i, hi⟩ => ?_⟩
  rcases treeState_leaf i 0x44 hi with ⟨_, h⟩ | ⟨_, h⟩ | ⟨_, h⟩ <;> revert h <;> decide

theorem witness_CodesArePrefixFree :
    InvC codedState ∧ (0x41 : Byte) ≠ 0x42 ∧ 0 < (codedState.codeAt 0x41).len.toNat ∧
      0 < (codedState.codeAt 0x42).len.toNat := ⟨codedState_codes, by decide, by decide +kernel, by decide +kernel⟩

/-- The least and the greatest code length of the bound. -/
theorem witness_CodeLengthsAreBounded :
    TreeShape codedState ∧ isCodeOf codedState [false] 0x43 ∧ isCodeOf codedState [true, true] 0x42 ∧
      InvC codedState ∧ (codedState.codeAt 0x42).len ≠ 0 :=
  ⟨codedState_shape, treeCode_isCode 0x43 (by decide), treeCode_isCode 0x42 (by decide), codedState_codes,
    by decide +kernel⟩

/-! ENCODE -/

/-- Five bits, one byte of room. -/
theorem witness_EncodePacksTheCodes :
    let s := withBuffers codedState [0x42, 0x41, 0x43] 1
    let n := ((encodedBits s s.srcBytes).length + 7) / 8
    s.srcValid s.srcLen.toNat ∧ (∀ x ∈ s.srcBytes, 0 < (s.codeAt x).len.toNat) ∧
      n = 1 ∧ n ≤ s.dstCap.toNat ∧ s.dstValid n ∧ s.disjointBuffers s.srcLen.toNat n := by
  unfold State.srcValid State.dstValid State.disjointBuffers
  decide +kernel

theorem witness_EncodeStopsAtAnUnknownSymbol :
    let s := withBuffers codedState [0x41, 0x44] 1
    let n := ((encodedBits s (s.srcBytes.take 1)).length + 7) / 8
    1 < s.srcLen.toNat ∧ s.srcValid 2 ∧ (∀ y ∈ s.srcBytes.take 1, 0 < (s.codeAt y).len.toNat) ∧
      (s.codeAt (s.mem.byte (s.srcAddr.toNat + 1))).len = 0 ∧ n ≤ s.dstCap.toNat ∧ s.dstValid n ∧
      s.disjointBuffers 2 n := by
  unfold State.srcValid State.dstValid State.disjointBuffers
  decide +kernel

theorem witness_EncodeStopsAtAnInvalidSourceByte :
    let s := withHole (withBuffers codedState [0x41, 0x42] 1) 17
    let n := ((encodedBits s (s.srcBytes.take 1)).length + 7) / 8
    1 < s.srcLen.toNat ∧ s.srcValid 1 ∧ (∀ y ∈ s.srcBytes.take 1, 0 < (s.codeAt y).len.toNat) ∧
      s.platform.memValid (s.srcAddr.toNat + 1) = false ∧ n ≤ s.dstCap.toNat ∧ s.dstValid n ∧
      s.disjointBuffers 1 n := by
  unfold State.srcValid State.dstValid State.disjointBuffers
  decide +kernel

/-- An unknown symbol and an invalid source byte, each with no room and with an invalid destination address. -/
theorem witness_EncodeKeepsTheFirstError :
    (∀ s ∈ [withBuffers codedState [0x41, 0x44] 0, withHole (withBuffers codedState [0x41, 0x44] 1) 32,
        withHole (withBuffers codedState [0x41, 0x42] 0) 17, withHoles (withBuffers codedState [0x41, 0x42] 1) 17 32],
      let b := encodedBits s (s.srcBytes.take 1)
      let n := b.length / 8
      1 < s.srcLen.toNat ∧ s.srcValid 1 ∧ (∀ y ∈ s.srcBytes.take 1, 0 < (s.codeAt y).len.toNat) ∧
        b.length % 8 ≠ 0 ∧ n ≤ s.dstCap.toNat ∧ s.dstValid n ∧
        (n = s.dstCap.toNat ∨ s.platform.memValid (s.dstAddr.toNat + n) = false) ∧ s.disjointBuffers 2 n) ∧
    (∀ s ∈ [withBuffers codedState [0x41, 0x44] 0, withHole (withBuffers codedState [0x41, 0x44] 1) 32],
      s.platform.memValid (s.srcAddr.toNat + 1) = true ∧ (s.codeAt (s.mem.byte (s.srcAddr.toNat + 1))).len = 0) ∧
    (∀ s ∈ [withHole (withBuffers codedState [0x41, 0x42] 0) 17, withHoles (withBuffers codedState [0x41, 0x42] 1) 17 32],
      s.platform.memValid (s.srcAddr.toNat + 1) = false) := by
  unfold State.srcValid State.dstValid State.disjointBuffers
  decide +kernel

/-- The fourth symbol fills byte 0, of which the fifth is unknown or at an invalid address; capacity and address. -/
theorem witness_EncodeStopsAtTheDestination :
    (∀ s ∈ [withBuffers codedState [0x42, 0x41, 0x42, 0x41, 0x44] 0,
        withHole (withBuffers codedState [0x42, 0x41, 0x42, 0x41, 0x44] 1) 32,
        withHoles (withBuffers codedState [0x42, 0x41, 0x42, 0x41, 0x42] 1) 20 32],
      s.dstValid 0 ∧ (0 = s.dstCap.toNat ∨ (0 < s.dstCap.toNat ∧ s.platform.memValid (s.dstAddr.toNat + 0) = false)) ∧
        3 < s.srcLen.toNat ∧ s.srcValid 4 ∧ (∀ x ∈ s.srcBytes.take 4, 0 < (s.codeAt x).len.toNat) ∧
        (encodedBits s (s.srcBytes.take 3)).length < 8 ∧ 8 ≤ (encodedBits s (s.srcBytes.take 4)).length ∧
        s.disjointBuffers 4 0) ∧
    (∀ s ∈ [withBuffers codedState [0x42, 0x41, 0x43] 0, withHole (withBuffers codedState [0x42, 0x41, 0x43] 1) 32],
      let b := encodedBits s s.srcBytes
      s.dstValid 0 ∧ (0 = s.dstCap.toNat ∨ (0 < s.dstCap.toNat ∧ s.platform.memValid (s.dstAddr.toNat + 0) = false)) ∧
        s.srcValid s.srcLen.toNat ∧ (∀ x ∈ s.srcBytes, 0 < (s.codeAt x).len.toNat) ∧ b.length % 8 ≠ 0 ∧
        b.length / 8 = 0 ∧ s.disjointBuffers s.srcLen.toNat 0) := by
  unfold State.srcValid State.dstValid State.disjointBuffers
  decide +kernel

/-! DECODE. The byte 50 is 0 10 10 0 0 0, the symbols 43 41 41 43 43 43; the byte 51 ends in 0 1, the beginning of a
code. -/

/-- A state with `treeState`'s tree, buffers and counts. -/
def decodeState (src : List Byte) (cap bits syms : Word) : State :=
  { withBuffers treeState src cap with opBitsLo := bits, opSyms := syms }

theorem decodeState_shape (src : List Byte) (cap bits syms : Word) : TreeShape (decodeState src cap bits syms) :=
  shape_congr treeState_shape rfl rfl rfl rfl rfl

theorem witness_DecodeTestsBeforeTheFirstBit :
    State.reset.status.treeValid = false ∧
      let s := decodeState [0x50] 8 9 0
      s.status.treeValid = true ∧ 8 * s.srcLen.toNat < s.opBitsHi.toNat * 2 ^ 32 + s.opBitsLo.toNat := by
  decide +kernel

theorem witness_DecodeBInvertsTheCodes :
    let s := decodeState [0x50] 2 3 0
    let xs : List Byte := [0x43, 0x41]
    TreeShape s ∧ (∀ x ∈ xs, isCodeOf s (treeCode x) x) ∧ s.opBits ≤ 8 * s.srcLen.toNat ∧
      streamFrom s.mem s.srcAddr.toNat s.opBits = xs.flatMap treeCode ∧ s.srcValid ((s.opBits + 7) / 8) ∧
      xs.length ≤ s.dstCap.toNat ∧ s.dstValid xs.length ∧ s.disjointBuffers ((s.opBits + 7) / 8) xs.length := by
  refine ⟨decodeState_shape _ _ _ _, treeCode_all _ (by decide), ?_⟩
  unfold State.srcValid State.dstValid State.disjointBuffers
  decide +kernel

theorem witness_DecodeSInvertsTheCodes :
    let s := decodeState [0x50] 6 0 6
    let xs : List Byte := [0x43, 0x41, 0x41, 0x43, 0x43, 0x43]
    let n := (xs.flatMap treeCode).length
    TreeShape s ∧ (∀ x ∈ xs, isCodeOf s (treeCode x) x) ∧ s.opSyms.toNat = xs.length ∧ n ≤ 8 * s.srcLen.toNat ∧
      streamFrom s.mem s.srcAddr.toNat n = xs.flatMap treeCode ∧ s.srcValid ((n + 7) / 8) ∧
      xs.length ≤ s.dstCap.toNat ∧ s.dstValid xs.length ∧ s.disjointBuffers ((n + 7) / 8) xs.length := by
  refine ⟨decodeState_shape _ _ _ _, treeCode_all _ (by decide), ?_⟩
  unfold State.srcValid State.dstValid State.disjointBuffers
  decide +kernel

theorem witness_DecodeBEndsOffTheRoot :
    let s := decodeState [0x50] 2 4 0
    let xs : List Byte := [0x43, 0x41]
    TreeShape s ∧ (∀ x ∈ xs, isCodeOf s (treeCode x) x) ∧ s.opBits ≤ 8 * s.srcLen.toNat ∧
      streamFrom s.mem s.srcAddr.toNat s.opBits = xs.flatMap treeCode ++ [true] ∧
      followPath s.node s.root [true] = some 3 ∧ (s.nodeAt 3).map Node.tag = some .internal ∧
      s.srcValid ((s.opBits + 7) / 8) ∧ xs.length ≤ s.dstCap.toNat ∧ s.dstValid xs.length ∧
      s.disjointBuffers ((s.opBits + 7) / 8) xs.length := by
  refine ⟨decodeState_shape _ _ _ _, treeCode_all _ (by decide), ?_⟩
  unfold State.srcValid State.dstValid State.disjointBuffers
  decide +kernel

/-- At the root, and inside a code. -/
theorem witness_DecodeSRunsOutOfBits :
    (let s := decodeState [0x50] 6 0 7
      let xs : List Byte := [0x43, 0x41, 0x41, 0x43, 0x43, 0x43]
      TreeShape s ∧ (∀ x ∈ xs, isCodeOf s (treeCode x) x) ∧ xs.length < s.opSyms.toNat ∧
        streamFrom s.mem s.srcAddr.toNat (8 * s.srcLen.toNat) = xs.flatMap treeCode ++ [] ∧
        followPath s.node s.root [] = some s.root ∧ (s.nodeAt s.root).map Node.tag = some .internal ∧
        s.srcValid s.srcLen.toNat ∧ xs.length ≤ s.dstCap.toNat ∧ s.dstValid xs.length ∧
        s.disjointBuffers s.srcLen.toNat xs.length) ∧
    (let s := decodeState [0x51] 6 0 6
      let xs : List Byte := [0x43, 0x41, 0x41, 0x43, 0x43]
      TreeShape s ∧ (∀ x ∈ xs, isCodeOf s (treeCode x) x) ∧ xs.length < s.opSyms.toNat ∧
        streamFrom s.mem s.srcAddr.toNat (8 * s.srcLen.toNat) = xs.flatMap treeCode ++ [true] ∧
        followPath s.node s.root [true] = some 3 ∧ (s.nodeAt 3).map Node.tag = some .internal ∧
        s.srcValid s.srcLen.toNat ∧ xs.length ≤ s.dstCap.toNat ∧ s.dstValid xs.length ∧
        s.disjointBuffers s.srcLen.toNat xs.length) := by
  refine ⟨⟨decodeState_shape _ _ _ _, treeCode_all _ (by decide), ?_⟩,
    ⟨decodeState_shape _ _ _ _, treeCode_all _ (by decide), ?_⟩⟩ <;>
  · unfold State.srcValid State.dstValid State.disjointBuffers
    decide +kernel

/-- V11 in small: the bits 1 0 with the tree of one symbol. -/
theorem witness_DecodeStopsAtThePlaceholder :
    let s := { withBuffers singleState [0x80] 1 with opBitsLo := 2, opSyms := 2 }
    let xs : List Byte := [0x41]
    let code : Byte → List Bool := fun _ => [true]
    TreeShape s ∧ (∀ x ∈ xs, isCodeOf s (code x) x) ∧
      streamFrom s.mem s.srcAddr.toNat 2 = xs.flatMap code ++ [false] ∧
      followPath s.node s.root [false] = some 1 ∧ (s.nodeAt 1).map Node.tag = some .placeholder ∧
      2 ≤ 8 * s.srcLen.toNat ∧ s.srcValid ((2 + 7) / 8) ∧ xs.length ≤ s.dstCap.toNat ∧ s.dstValid xs.length ∧
      s.disjointBuffers ((2 + 7) / 8) xs.length ∧
      2 ≤ s.opBits ∧ s.opBits ≤ 8 * s.srcLen.toNat ∧ xs.length < s.opSyms.toNat := by
  refine ⟨shape_congr singleState_shape rfl rfl rfl rfl rfl, ?_, ?_⟩
  · intro x hx
    obtain rfl : x = 0x41 := by simpa using hx
    exact ⟨0, by decide +kernel, leafNode 0x41 4, by decide +kernel, rfl, rfl⟩
  · unfold State.srcValid State.dstValid State.disjointBuffers
    decide +kernel

/-- Capacity used up, and an invalid address. -/
theorem witness_DecodeStopsAtTheDestination :
    ∀ s ∈ [decodeState [0x50] 1 3 2, withHole (decodeState [0x50] 2 3 2) 33],
      let xs : List Byte := [0x43]
      let k := ((xs ++ [0x41]).flatMap treeCode).length
      TreeShape s ∧ (∀ x ∈ xs ++ [0x41], isCodeOf s (treeCode x) x) ∧
        streamFrom s.mem s.srcAddr.toNat k = (xs ++ [0x41]).flatMap treeCode ∧ k ≤ 8 * s.srcLen.toNat ∧
        s.srcValid ((k + 7) / 8) ∧ s.dstValid xs.length ∧ s.disjointBuffers ((k + 7) / 8) xs.length ∧
        (xs.length = s.dstCap.toNat ∨
          (xs.length < s.dstCap.toNat ∧ s.platform.memValid (s.dstAddr.toNat + xs.length) = false)) ∧
        k ≤ s.opBits ∧ s.opBits ≤ 8 * s.srcLen.toNat ∧ xs.length < s.opSyms.toNat := by
  simp only [List.forall_mem_cons, List.not_mem_nil, false_implies, implies_true, and_true]
  refine ⟨⟨decodeState_shape _ _ _ _, treeCode_all _ (by decide), ?_⟩,
    ⟨shape_congr treeState_shape rfl rfl rfl rfl rfl, treeCode_all _ (by decide), ?_⟩⟩ <;>
  · unfold State.srcValid State.dstValid State.disjointBuffers
    decide +kernel

theorem witness_DecodeStopsAtAnInvalidSourceByte :
    let s := withHole (decodeState [0x51, 0] 6 9 6) 17
    let xs : List Byte := [0x43, 0x41, 0x41, 0x43, 0x43]
    TreeShape s ∧ (∀ x ∈ xs, isCodeOf s (treeCode x) x) ∧
      streamFrom s.mem s.srcAddr.toNat (8 * 1) = xs.flatMap treeCode ++ [true] ∧
      followPath s.node s.root [true] = some 3 ∧ (s.nodeAt 3).map Node.tag = some .internal ∧
      1 < s.srcLen.toNat ∧ s.srcValid 1 ∧ s.platform.memValid (s.srcAddr.toNat + 1) = false ∧
      xs.length ≤ s.dstCap.toNat ∧ s.dstValid xs.length ∧ s.disjointBuffers 1 xs.length ∧
      8 * 1 < s.opBits ∧ s.opBits ≤ 8 * s.srcLen.toNat ∧ xs.length < s.opSyms.toNat := by
  refine ⟨shape_congr treeState_shape rfl rfl rfl rfl rfl, treeCode_all _ (by decide), ?_⟩
  unfold State.srcValid State.dstValid State.disjointBuffers
  decide +kernel

theorem witness_DecodeCompletesInsideItsBuffer : InvT State.reset ∧ InvT treeState :=
  ⟨.inl ⟨rfl, rfl, rfl, rfl, rfl⟩, .inr treeState_shape⟩

/-! The whole flow -/

/-- The check of `witness_RoundTripGivesTheSourceBack`, as a function of the state. -/
def roundTripCheck (s : State) (a cap : Word) : Bool :=
  (nextOf (exec .count s)).any fun t1 => (nextOf (exec .build t1)).any fun t2 => (nextOf (exec .gen t2)).any fun t3 =>
    let n := ((encodedBits t3 s.srcBytes).length + 7) / 8
    decide (n ≤ s.dstCap.toNat) && decide (∀ i < n, s.platform.memValid (s.dstAddr.toNat + i) = true) &&
    decide (∀ i < s.srcLen.toNat, ∀ k < n, s.srcByteAddr i ≠ s.dstAddr.toNat + k) &&
    (nextOf (exec .encode t3)).any fun t4 =>
      decide (s.srcLen.toNat ≤ cap.toNat) &&
      decide (∀ i < s.srcLen.toNat, t4.platform.memValid (a.toNat + i) = true) &&
      decide (∀ i < n, ∀ k < s.srcLen.toNat, s.dstAddr.toNat + i ≠ a.toNat + k)

theorem next_of_any {o : Host.Outcome State Fault Refusal} {p : State → Bool} (h : (nextOf o).any p = true) :
    ∃ t, o = .next t ∧ p t = true := by
  cases o with
  | next s => exact ⟨s, rfl, by simpa [nextOf] using h⟩
  | fault f => simp [nextOf] at h
  | refused r => simp [nextOf] at h

theorem witness_RoundTripGivesTheSourceBack :
    let s := withBuffers .reset [0x41] 1
    let a : Word := 64
    let cap : Word := 1
    s.srcValid s.srcLen.toNat ∧ ∃ t1 t2 t3, exec .count s = .next t1 ∧ exec .build t1 = .next t2 ∧
      exec .gen t2 = .next t3 ∧
      let n := ((encodedBits t3 s.srcBytes).length + 7) / 8
      n ≤ s.dstCap.toNat ∧ s.dstValid n ∧ s.disjointBuffers s.srcLen.toNat n ∧
      ∃ t4, exec .encode t3 = .next t4 ∧
        let u := { t4 with
          srcAddr := s.dstAddr, srcLen := t4.resBytes, dstAddr := a, dstCap := cap
          opBitsLo := t4.resBits.extractLsb' 0 32, opBitsHi := t4.resBits.extractLsb' 32 32
          opSyms := t4.resSyms }
        s.srcLen.toNat ≤ cap.toNat ∧ u.dstValid s.srcLen.toNat ∧ u.disjointBuffers n s.srcLen.toNat := by
  intro s a cap
  refine ⟨by unfold State.srcValid; decide +kernel, ?_⟩
  have h : roundTripCheck s a cap = true := by decide +kernel
  unfold roundTripCheck at h
  obtain ⟨t1, h1, h⟩ := next_of_any h
  obtain ⟨t2, h2, h⟩ := next_of_any h
  obtain ⟨t3, h3, h⟩ := next_of_any h
  simp only [Bool.and_eq_true, decide_eq_true_eq] at h
  obtain ⟨⟨⟨h4, h5⟩, h6⟩, h⟩ := h
  obtain ⟨t4, h7, h⟩ := next_of_any h
  simp only [Bool.and_eq_true, decide_eq_true_eq] at h
  exact ⟨t1, t2, t3, h1, h2, h3, h4, h5, h6, t4, h7, h.1.1, h.1.2, h.2⟩

/-! The errors and the sequencer -/

theorem witness_RaiseRecordsTheFirstError :
    State.reset.status.err = 0 ∧ ({ State.reset with status := { err := 3, treeValid := false, sub := 1 } }).status.err ≠ 0 := by
  decide

/-- A command that ends in an error, and a sticky bit that was set before. -/
theorem witness_CommandsRaiseOnlyTheirErrors :
    let s := { withHole (withBuffers .reset [0x41] 0) 16 with errSticky := 8 }
    s.errSticky.getLsbD 3 = true ∧ ∃ t, exec .count s = .next t ∧ t.status.err ≠ 0 := by
  refine ⟨by decide, ?_⟩
  have h : (nextOf (exec .count { withHole (withBuffers .reset [0x41] 0) 16 with errSticky := 8 })).any
      (fun t => t.status.err != 0) = true := by decide +kernel
  revert h
  generalize exec .count _ = o
  cases o <;> simp [nextOf]

theorem witness_CommandsIgnoreEarlierErrors : ∃ t, exec .gen treeState = .next t := exists_next (by decide +kernel)

/-- A valid flag over an empty tree memory. -/
theorem witness_CommandsStopOnlyOnABrokenTree :
    exec .gen { State.reset with status := { err := 0, treeValid := true, sub := 0 } } = .fault .brokenTree := rfl

theorem witness_SequencerComposesCountAndGen :
    (∃ t, exec .nop State.reset = .next t) ∧ (∃ t, exec .count (withBuffers .reset [0x41] 0) = .next t) ∧
      ∃ t, exec .gen treeState = .next t :=
  ⟨⟨_, rfl⟩, exists_next (by decide +kernel), exists_next (by decide +kernel)⟩

theorem witness_SequencerComposesBuild : ∃ t, exec .build oneCount = .next t := ⟨_, rfl⟩

theorem witness_SequencerComposesEncode : ∃ t, exec .encode (withBuffers codedState [0x42] 1) = .next t :=
  exists_next (by decide +kernel)

theorem witness_SequencerComposesDecode :
    (∃ t, exec .decodeB (decodeState [0x50] 6 8 6) = .next t) ∧
      ∃ t, exec .decodeS (decodeState [0x50] 6 8 6) = .next t :=
  ⟨exists_next (by decide +kernel), exists_next (by decide +kernel)⟩

/-- A COUNT that fails, and a chain COUNT, BUILD, GEN. -/
theorem witness_PseudoInstructionsExpand :
    (let s := withHole (withBuffers .reset [0x41] 0) 16;
      s.phase = .idle ∧ ∃ t, exec .count s = .next t ∧ (t.status.err != 0) = true) ∧
    State.reset.phase = .idle ∧ ∃ t1 t2 t3, exec .count .reset = .next t1 ∧ t1.status.err = 0 ∧
      exec .build t1 = .next t2 ∧ exec .gen t2 = .next t3 := by
  refine ⟨⟨rfl, next_of_any (by decide +kernel)⟩, rfl, ?_⟩
  have h : (nextOf (exec .count .reset)).any (fun t1 => (t1.status.err == 0) &&
      (nextOf (exec .build t1)).any fun t2 => (nextOf (exec .gen t2)).any fun _ => true) = true := by decide +kernel
  obtain ⟨t1, h1, h⟩ := next_of_any h
  simp only [Bool.and_eq_true, beq_iff_eq] at h
  obtain ⟨t2, h2, h3⟩ := next_of_any h.2
  obtain ⟨t3, h3, _⟩ := next_of_any h3
  exact ⟨t1, t2, t3, h1, h.1, h2, h3⟩

end Sys2Proof.Tests
end

/-! SUPPORT. Running the sequencer level. A command's meaning is a sequence of parts (`Ctl.andThen`, `Ctl.finish`); at
the sequencer level each part is a micro-step that ends in `Ctl.enter`. The rules below follow both in step: one rule
for a micro-step, one for a part that may go on, end or stop. Both levels run the same parts, but on states that differ in
the sequencer's own registers, so every part is shown to leave those alone. -/

namespace Sys2Proof.Machine

/-! ### Running on from a micro-step -/

/-- At most `n` micro-steps from what a micro-step has left; a fault stays one. -/
def runFrom (n : Nat) (x : Host.Outcome State Fault Refusal) : Host.Outcome State Fault Refusal :=
  match x with
  | .next s => runMicro n s
  | .fault f => .fault f
  | .refused r => .refused r

/-- Running on from `x` comes to `o` within `n` micro-steps, and a larger allowance changes nothing. -/
def RunsTo (n : Nat) (x o : Host.Outcome State Fault Refusal) : Prop := ∀ m, n ≤ m → runFrom m x = o

theorem RunsTo.mono {n n' : Nat} {x o : Host.Outcome State Fault Refusal} (h : RunsTo n x o) (hn : n ≤ n') :
    RunsTo n' x o := fun m hm => h m (Nat.le_trans hn hm)

theorem RunsTo.runMicro {n : Nat} {s : State} {o : Host.Outcome State Fault Refusal} (h : RunsTo n (.next s) o) :
    runMicro n s = o := h n (Nat.le_refl n)

/-- An idle engine does not move. -/
theorem RunsTo.idle {n : Nat} {s : State} (h : s.phase = .idle) : RunsTo n (.next s) (.next s) := by
  intro m _
  cases m with
  | zero => rfl
  | succ m => simp [runFrom, Machine.runMicro, h]

theorem RunsTo.toIdle (n : Nat) (s : State) : RunsTo n (.next (toIdle s)) (.next (toIdle s)) := .idle rfl

theorem RunsTo.fault (n : Nat) (f : Fault) : RunsTo n (.fault f) (.fault f) := fun _ _ => rfl

/-- One micro-step of a running command. -/
theorem RunsTo.step {n : Nat} {s : State} {o : Host.Outcome State Fault Refusal} (hp : s.phase ≠ .idle)
    (h : RunsTo n (microStep s) o) : RunsTo (n + 1) (.next s) o := by
  intro m hm
  obtain ⟨m, rfl⟩ : ∃ k, m = k + 1 := ⟨m - 1, by omega⟩
  have hr := h m (by omega)
  simp only [runFrom, Machine.runMicro, if_neg hp] at hr ⊢
  exact hr

/-! ### The sequencer's own registers -/

/-- `s` with the phase and the running DECODE's `MODE` bit as given: all in which the two levels differ while a command
runs. -/
def State.atPhase (s : State) (p : Phase) (m : Bool) : State := { s with phase := p, mode := m }

@[simp] theorem atPhase_phase (s : State) (p : Phase) (m : Bool) : (s.atPhase p m).phase = p := rfl

@[simp] theorem toIdle_atPhase (s : State) (p : Phase) (m : Bool) : toIdle (s.atPhase p m) = toIdle s := rfl

theorem raise_atPhase (s : State) (p : Phase) (m : Bool) (e : Err) :
    raise (s.atPhase p m) e = (raise s e).atPhase p m := by
  by_cases h : s.status.err = 0#4 <;> simp [raise, State.atPhase, h]

@[simp] theorem enterPhase_idle (s : State) : enterPhase s .idle = toIdle s := rfl

theorem enterPhase_atPhase (s : State) (p : Phase) (m : Bool) {q : Phase} (h : q ≠ .idle) :
    enterPhase (s.atPhase p m) q = s.atPhase q m := by
  rw [enterPhase_of_ne _ h]; rfl

/-- A part that goes on with the phase it has set. -/
theorem enter_atPhase (s : State) {p : Phase} (m : Bool) (h : p ≠ .idle) :
    (Ctl.go (s.atPhase p m)).enter State.phase = .next (s.atPhase p m) :=
  congrArg Host.Outcome.next (enterPhase_of_ne _ h)

/-- A part of a command with its resulting state changed by `f`. -/
def Ctl.map (f : State → State) : Ctl → Ctl
  | .go s => .go (f s)
  | .ended s => .ended (f s)
  | .stuck e => .stuck e

@[simp] theorem Ctl.map_go (f : State → State) (s : State) : (Ctl.go s).map f = .go (f s) := rfl
@[simp] theorem Ctl.map_ended (f : State → State) (s : State) : (Ctl.ended s).map f = .ended (f s) := rfl
@[simp] theorem Ctl.map_stuck (f : State → State) (e : Fault) : (Ctl.stuck e).map f = .stuck e := rfl

/-- The part does the same at both levels: the sequencer's own registers neither matter to it nor change. -/
def PhaseBlind (f : State → Ctl) : Prop := ∀ s p m, f (s.atPhase p m) = (f s).map (·.atPhase p m)

/-- Parts that are alike at both levels can be put after one another. -/
theorem PhaseBlind.andThen {f g : State → Ctl} (hf : PhaseBlind f) (hg : PhaseBlind g) :
    PhaseBlind fun s => (f s).andThen g := by
  intro s p m
  simp only [hf s p m]
  cases f s with
  | go t => exact hg t p m
  | ended t => rfl
  | stuck e => rfl

theorem PhaseBlind.ite {c : State → Prop} [DecidablePred c] {f g : State → Ctl}
    (hc : ∀ s p m, c (s.atPhase p m) = c s) (hf : PhaseBlind f) (hg : PhaseBlind g) :
    PhaseBlind fun s => if c s then f s else g s := by
  intro s p m
  simp only [hc s p m]
  split
  · exact hf s p m
  · exact hg s p m

theorem PhaseBlind.go {f : State → State} (hf : ∀ s p m, f (s.atPhase p m) = (f s).atPhase p m) :
    PhaseBlind fun s => .go (f s) := fun s p m => congrArg Ctl.go (hf s p m)

theorem PhaseBlind.raise {e : State → Err} (he : ∀ s p m, e (s.atPhase p m) = e s) :
    PhaseBlind fun s => .ended (raise s (e s)) := by
  intro s p m
  simp only [he s p m, raise_atPhase, Ctl.map_ended]

/-! ### A part of a command at both levels -/

/-- The command level does `f` and then `k`; the sequencer level does `f` and then `g` in one micro-step. Whatever `f`
does, both come to the same end if they do after `f` has gone on. -/
theorem RunsTo.partThen {f g k : State → Ctl} {next : State → Phase} {u : State} {p : Phase} {m : Bool} {n : Nat}
    (hf : PhaseBlind f)
    (hgo : ∀ v, f u = .go v → RunsTo n ((g (v.atPhase p m)).enter next) (k v).finish) :
    RunsTo n (((f (u.atPhase p m)).andThen g).enter next) ((f u).andThen k).finish := by
  rw [hf u p m]
  cases hc : f u with
  | go v => exact hgo v hc
  | ended v => exact .toIdle n v
  | stuck e => exact .fault n e

theorem Ctl.andThen_go_right (c : Ctl) : c.andThen .go = c := by
  cases c <;> rfl

/-- The sequencer level does `f` alone in the micro-step. -/
theorem RunsTo.part {f k : State → Ctl} {next : State → Phase} {u : State} {p : Phase} {m : Bool} {n : Nat}
    (hf : PhaseBlind f)
    (hgo : ∀ v, f u = .go v →
      RunsTo n (.next (enterPhase (v.atPhase p m) (next (v.atPhase p m)))) (k v).finish) :
    RunsTo n ((f (u.atPhase p m)).enter next) ((f u).andThen k).finish := by
  simpa only [Ctl.andThen_go_right] using RunsTo.partThen (g := .go) hf hgo

/-- The same where one phase `q` always follows. -/
theorem RunsTo.partTo {f k : State → Ctl} {u : State} {p q : Phase} {m : Bool} {n : Nat} (hf : PhaseBlind f)
    (hq : q ≠ .idle) (hgo : ∀ v, f u = .go v → RunsTo n (.next (v.atPhase q m)) (k v).finish) :
    RunsTo n ((f (u.atPhase p m)).enter fun _ => q) ((f u).andThen k).finish :=
  .part hf fun v hv => by rw [enterPhase_atPhase _ _ _ hq]; exact hgo v hv

/-- The last part of a command. -/
theorem RunsTo.partLast {f : State → Ctl} {u : State} {p : Phase} {m : Bool} {n : Nat} (hf : PhaseBlind f) :
    RunsTo n ((f (u.atPhase p m)).enter fun _ => .idle) (f u).finish := by
  simpa only [Ctl.andThen_go_right] using RunsTo.part (k := .go) hf fun v _ => .toIdle n v

end Sys2Proof.Machine

/-! SUPPORT and the settling of O56: NOP, COUNT and GEN at the sequencer level. -/

namespace Sys2Proof.Machine

/-! ### COUNT (R145) -/

theorem countByte_phaseBlind : PhaseBlind countByte := by
  intro s p m
  unfold countByte
  simp only [raise_atPhase]
  change (match memRead s (s.srcByteAddr s.resSyms.toNat) with | none => _ | some _ => _) = _
  cases memRead s (s.srcByteAddr s.resSyms.toNat) <;> rfl

/-- A source byte that is counted moves `RES_SYMS` on by one. -/
theorem countByte_go {s t : State} (h : countByte s = .go t) :
    t.resSyms = s.resSyms + 1 ∧ t.srcLen = s.srcLen := by
  rcases countByte_cases s with ⟨_, hc⟩ | ⟨_, hc⟩ <;> rw [hc] at h <;> cases h
  exact ⟨rfl, rfl⟩

/-- With `n` source bytes left, one micro-step for each. -/
theorem runsTo_scan (n : Nat) {u : State} (p : Phase) (m : Bool) (hn : u.resSyms.toNat + n = u.srcLen.toNat) :
    RunsTo n (.next (enterPhase (u.atPhase p m) (afterScan u))) (Ctl.loop countByte n u).finish := by
  induction n generalizing u p with
  | zero =>
    have he : u.resSyms = u.srcLen := BitVec.eq_of_toNat_eq (by omega)
    simpa [afterScan, he] using RunsTo.toIdle 0 u
  | succ n ih =>
    have hne : u.resSyms ≠ u.srcLen := fun h => by simp [h] at hn
    rw [afterScan, if_neg hne, enterPhase_atPhase _ _ _ (by decide), Ctl.loop_succ]
    refine .step (by simp) (.part countByte_phaseBlind fun v hv => ?_)
    obtain ⟨hs, hl⟩ := countByte_go hv
    exact ih .cScan (by bv_omega)

/-- The whole of COUNT: one micro-step for `C_CLEAR`, and the scan. -/
theorem runsTo_count (s : State) : RunsTo (1 + s.srcLen.toNat) (.next (issueMicro .count s)) (execCount s) := by
  have hi : issueMicro .count s = (beginCommand s).atPhase .cClear s.mode := rfl
  rw [hi, Nat.add_comm]
  exact .step (by simp) (runsTo_scan _ (u := clearCounts (beginCommand s)) .cClear s.mode (by simp [clearCounts]))

/-! ### GEN (R187) -/

/-- The phases in which a walk can be between two micro-steps. -/
def WalkPhase (p : Phase) : Prop := p = .gDescend ∨ p = .gAscend ∨ p = .idle

theorem walkDescend_phase {s t : State} (h : walkDescend s = .go t) : t.phase = s.phase ∨ t.phase = .gAscend := by
  unfold walkDescend at h
  repeat' split at h
  all_goals cases h
  · exact .inl rfl
  · exact .inr rfl
  · exact .inr rfl

theorem walkAscend_phase {s t : State} (h : walkAscend s = .go t) :
    t.phase = .idle ∨ t.phase = s.phase ∨ t.phase = .gDescend := by
  unfold walkAscend at h
  dsimp only at h
  repeat' split at h
  all_goals cases h
  · exact .inl rfl
  · exact .inr (.inl rfl)
  · exact .inr (.inr rfl)

/-- One iteration of the walk is one micro-step, and it leaves a phase of the walk. -/
theorem walkLoop_succ (n : Nat) {s : State} (h : s.phase = .gDescend ∨ s.phase = .gAscend) :
    ∃ c : Ctl, walkLoop (n + 1) s = c.andThen (walkLoop n) ∧ microStep s = c.enter State.phase ∧
      ∀ t, c = .go t → WalkPhase t.phase := by
  rcases h with h | h
  · refine ⟨walkDescend s, by rw [walkLoop, h], by rw [microStep, h], fun t ht => ?_⟩
    exact (walkDescend_phase ht).imp (·.trans h) .inl
  · refine ⟨walkAscend s, by rw [walkLoop, h], by rw [microStep, h], fun t ht => ?_⟩
    rcases walkAscend_phase ht with ht | ht | ht
    · exact .inr (.inr ht)
    · exact .inr (.inl (ht.trans h))
    · exact .inl ht

/-- A walk that ends within `n` iterations ends within `n` micro-steps. -/
theorem runsTo_walk (n : Nat) {u t : State} (hp : WalkPhase u.phase) (h : (walkLoop n u).finish = .next t) :
    RunsTo n (.next (enterPhase u u.phase)) (.next t) := by
  induction n generalizing u with
  | zero =>
    rw [walkLoop] at h
    split at h <;> cases h
    rename_i hi
    rw [hi]
    exact .toIdle 0 u
  | succ n ih =>
    rcases or_assoc.2 hp with hp | hp
    · obtain ⟨c, hloop, hmicro, hphase⟩ := walkLoop_succ n hp
      have hne : u.phase ≠ .idle := by rcases hp with hp | hp <;> simp [hp]
      rw [enterPhase_of_ne _ hne]
      refine .step hne ?_
      rw [hmicro]
      rw [hloop] at h
      cases c with
      | go v => exact ih (hphase v rfl) h
      | ended v => cases h; exact .toIdle n v
      | stuck e => cases h
    · rw [walkLoop, hp] at h
      cases h
      rw [hp]
      exact .toIdle _ u

/-- `G_CLEAR` as the first micro-step of GEN (R182, R183). -/
theorem microStep_gClear (s : State) (m : Bool) :
    microStep (s.atPhase .gClear m) =
      if s.status.treeValid then .next ((startWalk (clearCodes s)).atPhase .gDescend m)
      else .next (toIdle (clearCodes s)) := by
  change Ctl.enter (if s.status.treeValid then _ else _) State.phase = _
  cases s.status.treeValid <;> rfl

theorem execGen_eq (s : State) :
    execGen s = if s.status.treeValid then (walkLoop (2 * 511) (startWalk (clearCodes (beginCommand s)))).finish
      else .next (toIdle (clearCodes (beginCommand s))) := rfl

/-- The whole of GEN: one micro-step for `G_CLEAR`, and the walk. -/
theorem runsTo_gen {s t : State} (h : execGen s = .next t) :
    RunsTo (2 * 511 + 1) (.next (issueMicro .gen s)) (.next t) := by
  refine .step (s := (beginCommand s).atPhase .gClear s.mode) (by simp) ?_
  have htree : (beginCommand s).status.treeValid = s.status.treeValid := rfl
  rw [execGen_eq] at h
  rw [microStep_gClear, htree]
  cases hv : s.status.treeValid <;> rw [hv] at h
  · exact h ▸ .toIdle _ _
  · exact runsTo_walk _ (.inl rfl) h

/-- Settles O56: NOP makes no micro-step, COUNT one for `C_CLEAR` and one for each byte read, and GEN one for `G_CLEAR`
and one for each iteration of its walk. -/
theorem sequencerComposesCountAndGen : Obligations.SequencerComposesCountAndGen := by
  rintro i s t (rfl | rfl | rfl) h
  · exact h
  · have h : execCount s = .next t := h
    exact ((h ▸ runsTo_count s).mono (by simp [microBound])).runMicro
  · exact ((runsTo_gen h).mono (by simp [microBound])).runMicro

end Sys2Proof.Machine

/-! SUPPORT and the settling of O57: BUILD at the sequencer level (R168). Every merge takes three micro-steps and makes
the queue one shorter, so the number of members of the queue counts the micro-steps that are left. -/

namespace Sys2Proof.Machine

/-! ### The queue -/

theorem pqLeast_mem (node : Vector Node 511) (m : Idx) (pq : List Idx) : pqLeast node m pq ∈ m :: pq := by
  induction pq generalizing m with
  | nil => exact List.mem_cons_self
  | cons i rest ih =>
    rcases List.mem_cons.1 (ih (if keyLess node i m then i else m)) with h | h
    · rw [pqLeast, h]; split <;> simp
    · exact List.mem_cons_of_mem _ (List.mem_cons_of_mem _ h)

/-- A queue of `n + 1` members gives up one and keeps `n`. -/
theorem pqExtractMin_of_length {node : Vector Node 511} {pq : List Idx} {n : Nat} (h : pq.length = n + 1) :
    ∃ i rest, pqExtractMin node pq = some (i, rest) ∧ rest.length = n := by
  cases pq with
  | nil => cases h
  | cons i rest =>
    refine ⟨_, _, rfl, ?_⟩
    rw [List.length_erase_of_mem (pqLeast_mem node i rest)]
    exact congrArg Nat.pred h

/-! ### The merges and the root -/

theorem mergeLoop_of_not {n : Nat} {s : State} (h : ¬ 1 < s.merge.pq.length) : mergeLoop n s = s := by
  cases n with
  | zero => rfl
  | succ n => rw [mergeLoop, if_neg h]

/-- `B_EX1` on a queue with a member. -/
theorem extractFirst_of_length {n : Nat} {u : State} (m : Bool) (h : u.merge.pq.length = n + 1) :
    ∃ v, extractFirst u = some v ∧ v.merge.pq.length = n ∧
      microStep (u.atPhase .bEx1 m) = .next (v.atPhase .bEx2 m) := by
  obtain ⟨a, rest, ha, hrest⟩ := pqExtractMin_of_length (node := u.node) h
  refine ⟨{ u with merge := { u.merge with a := a, pq := rest } }, by rw [extractFirst, ha]; rfl, hrest, ?_⟩
  change (needQueue (Option.map _ (pqExtractMin u.node u.merge.pq))).enter _ = _
  rw [ha]; rfl

/-- `B_EX2` on a queue with a member. -/
theorem extractSecond_of_length {n : Nat} {u : State} (m : Bool) (h : u.merge.pq.length = n + 1) :
    ∃ v, extractSecond u = some v ∧ v.merge.pq.length = n ∧
      microStep (u.atPhase .bEx2 m) = .next (v.atPhase .bMerge m) := by
  obtain ⟨b, rest, hb, hrest⟩ := pqExtractMin_of_length (node := u.node) h
  refine ⟨{ u with merge := { u.merge with b := b, pq := rest } }, by rw [extractSecond, hb]; rfl, hrest, ?_⟩
  change (needQueue (Option.map _ (pqExtractMin u.node u.merge.pq))).enter _ = _
  rw [hb]; rfl

/-- `B_ROOT` on a queue with a member ends the command. -/
theorem takeRoot_of_length {n : Nat} {u : State} (m : Bool) (h : u.merge.pq.length = n + 1) :
    ∃ v, takeRoot u = some v ∧ microStep (u.atPhase .bRoot m) = .next (toIdle v) := by
  obtain ⟨r, rest, hr, _⟩ := pqExtractMin_of_length (node := u.node) h
  refine ⟨_, by rw [takeRoot, hr]; rfl, ?_⟩
  change (needQueue (Option.map _ (pqExtractMin u.node u.merge.pq))).enter _ = _
  rw [hr]; rfl

/-- What BUILD does from its loop of merges on, with `n` merges allowed. -/
def mergeAndRoot (n : Nat) (s : State) : State := (takeRoot (mergeLoop n s)).getD (mergeLoop n s)

theorem afterMerge_ne_idle (s : State) : afterMerge s ≠ .idle := by
  unfold afterMerge; split <;> simp

/-- `B_MERGE` (R159). -/
theorem microStep_bMerge (s : State) (m : Bool) :
    microStep (s.atPhase .bMerge m) = .next ((mergePair s).atPhase (afterMerge (mergePair s)) m) :=
  congrArg Host.Outcome.next (enterPhase_atPhase (mergePair s) .bMerge m (afterMerge_ne_idle (mergePair s)))

/-- A queue of `n + 1` members takes `n` merges, and the root. -/
theorem runsTo_merges (n : Nat) {fuel : Nat} {u : State} (m : Bool) (hlen : u.merge.pq.length = n + 1)
    (hfuel : n ≤ fuel) :
    RunsTo (3 * n + 1) (.next (u.atPhase (afterMerge u) m)) (.next (toIdle (mergeAndRoot fuel u))) := by
  induction n generalizing fuel u with
  | zero =>
    have hone : ¬ 1 < u.merge.pq.length := by omega
    obtain ⟨v, hv, hmicro⟩ := takeRoot_of_length m hlen
    rw [mergeAndRoot, mergeLoop_of_not hone, hv, afterMerge, if_neg hone]
    exact .step (by simp) (by rw [hmicro]; exact .toIdle _ v)
  | succ n ih =>
    obtain ⟨fuel, rfl⟩ : ∃ f, fuel = f + 1 := ⟨fuel - 1, by omega⟩
    have hmore : 1 < u.merge.pq.length := by omega
    obtain ⟨v, hv, hvlen, hex1⟩ := extractFirst_of_length m hlen
    obtain ⟨w, hw, hwlen, hex2⟩ := extractSecond_of_length m hvlen
    have hloop : mergeAndRoot (fuel + 1) u = mergeAndRoot fuel (mergePair w) := by
      simp [mergeAndRoot, mergeLoop, hmore, mergeOnce, hv, hw]
    rw [hloop, afterMerge, if_pos hmore]
    refine .step (by simp) (hex1 ▸ .step (by simp) (hex2 ▸ .step (by simp) ?_))
    rw [microStep_bMerge]
    exact ih (by simp [mergePair, hwlen]) (by omega)

/-! ### The leaves -/

/-- While the symbol values are scanned: the queue has `k` members, at most one for each symbol value that has been
scanned. -/
structure Loading (s : State) : Prop where
  queue : s.merge.pq.length = s.merge.k.toNat
  bound : s.merge.k.toNat ≤ s.merge.s.toNat
  scan : s.merge.s.toNat ≤ 256

/-- What a symbol value does to the registers of U1: it is scanned, and it is a new member of the queue or none. -/
theorem loadSymbol_merge (s : State) :
    (loadSymbol s).merge.s = s.merge.s + 1 ∧
      (((loadSymbol s).merge.k = s.merge.k + 1 ∧ (loadSymbol s).merge.pq.length = s.merge.pq.length + 1) ∨
        ((loadSymbol s).merge.k = s.merge.k ∧ (loadSymbol s).merge.pq.length = s.merge.pq.length)) := by
  unfold loadSymbol
  dsimp only
  split
  · exact ⟨rfl, .inl ⟨rfl, rfl⟩⟩
  · exact ⟨rfl, .inr ⟨rfl, rfl⟩⟩

theorem loadSymbol_loading {s : State} (h : Loading s) (hs : s.merge.s.toNat < 256) : Loading (loadSymbol s) := by
  obtain ⟨hq, hb, -⟩ := h
  obtain ⟨hscan, ⟨hk, hpq⟩ | ⟨hk, hpq⟩⟩ := loadSymbol_merge s
  · exact ⟨by bv_omega, by bv_omega, by bv_omega⟩
  · exact ⟨by rw [hpq, hk, hq], by bv_omega, by bv_omega⟩

theorem loadSymbol_atPhase (s : State) (p : Phase) (m : Bool) :
    loadSymbol (s.atPhase p m) = (loadSymbol s).atPhase p m := by
  unfold loadSymbol
  dsimp only
  by_cases h : 0 < s.freqAt (s.merge.s.truncate 8)
  · rw [if_pos h, if_pos (by exact h)]; rfl
  · rw [if_neg h, if_neg (by exact h)]; rfl

/-- The state that the last symbol value is followed by (R168), `s` being the state at the command level. -/
def afterLeaves (s : State) (m : Bool) : State :=
  if s.merge.k = 0 then toIdle (noTree s)
  else if s.merge.k = 1 then s.atPhase .bPh m
  else (setLeafCount s).atPhase (afterMerge (setLeafCount s)) m

/-- `B_PH` (R155). -/
theorem microStep_bPh (s : State) (m : Bool) :
    microStep (s.atPhase .bPh m) =
      .next ((setLeafCount (addPlaceholder s)).atPhase (afterMerge (setLeafCount (addPlaceholder s))) m) :=
  congrArg Host.Outcome.next (enterPhase_atPhase (setLeafCount (addPlaceholder s)) .bPh m (afterMerge_ne_idle _))

/-- `B_LOAD` (R152, R168). -/
theorem microStep_bLoad (s : State) (m : Bool) :
    microStep (s.atPhase .bLoad m) =
      .next (if (loadSymbol s).merge.s = 256 then afterLeaves (loadSymbol s) m
        else (loadSymbol s).atPhase .bLoad m) := by
  change (microLoad (s.atPhase .bLoad m)).enter State.phase = _
  unfold microLoad
  rw [loadSymbol_atPhase]
  generalize loadSymbol s = v
  change Ctl.enter (if v.merge.s = 256 then (if v.merge.k = 0 then _ else if v.merge.k = 1 then _ else _) else _)
    State.phase = _
  unfold afterLeaves
  by_cases hs : v.merge.s = 256
  · rw [if_pos hs, if_pos hs]
    by_cases h0 : v.merge.k = 0
    · rw [if_pos h0, if_pos h0]; rfl
    rw [if_neg h0, if_neg h0]
    by_cases h1 : v.merge.k = 1
    · rw [if_pos h1, if_pos h1]; rfl
    · rw [if_neg h1, if_neg h1]
      exact enter_atPhase _ m (afterMerge_ne_idle _)
  · rw [if_neg hs, if_neg hs]; rfl

/-- After the leaves: no tree, or the placeholder if there is one leaf, at most 255 merges and the root. -/
theorem runsTo_afterLeaves {s : State} (m : Bool) (h : Loading s) :
    RunsTo (1 + (3 * 255 + 1)) (.next (afterLeaves s m)) (.next (toIdle (buildFromLeaves s))) := by
  obtain ⟨hq, hb, hs⟩ := h
  unfold afterLeaves buildFromLeaves
  by_cases h0 : s.merge.k = 0
  · rw [if_pos h0, if_pos h0]
    exact .toIdle _ _
  rw [if_neg h0, if_neg h0]
  by_cases h1 : s.merge.k = 1
  · rw [if_pos h1, if_pos h1]
    have hlen : (setLeafCount (addPlaceholder s)).merge.pq.length = 2 := by
      change (s.merge.pq).length + 1 = 2
      rw [hq, h1]; rfl
    refine .mono (.step (n := 4) (by simp) ?_) (by omega)
    rw [microStep_bPh]
    exact runsTo_merges 1 m hlen (by omega)
  · rw [if_neg h1, if_neg h1]
    have hlen : (setLeafCount s).merge.pq.length = (s.merge.k.toNat - 1) + 1 := by
      change s.merge.pq.length = _
      bv_omega
    exact (runsTo_merges _ m hlen (by omega)).mono (by omega)

/-- With `n + 1` symbol values left, a micro-step for each (R152). -/
theorem runsTo_load (n : Nat) {u : State} (m : Bool) (h : Loading u) (hn : u.merge.s.toNat + (n + 1) = 256) :
    RunsTo (1 + (3 * 255 + 1) + n + 1) (.next (u.atPhase .bLoad m))
      (.next (toIdle (buildFromLeaves (loadSymbols (n + 1) u)))) := by
  induction n generalizing u with
  | zero =>
    obtain ⟨hscan, -⟩ := loadSymbol_merge u
    refine .step (by simp) ?_
    rw [microStep_bLoad, if_pos (by bv_omega)]
    exact runsTo_afterLeaves m (loadSymbol_loading h (by omega))
  | succ n ih =>
    obtain ⟨hscan, -⟩ := loadSymbol_merge u
    refine .step (by simp) ?_
    rw [microStep_bLoad, if_neg (by bv_omega)]
    exact ih (loadSymbol_loading h (by omega)) (by bv_omega)

/-- The whole of BUILD. -/
theorem runsTo_build (s : State) :
    RunsTo (1 + (3 * 255 + 1) + 255 + 1 + 1) (.next (issueMicro .build s)) (execBuild s) := by
  refine .step (s := (beginCommand s).atPhase .bClear s.mode) (by simp) ?_
  exact runsTo_load 255 s.mode (u := clearTree (beginCommand s)) ⟨rfl, by simp [clearTree], by simp [clearTree]⟩ rfl

/-- Settles O57: one micro-step for `B_CLEAR`, 256 for the symbol values, one for the placeholder, three for each of at
most 255 merges and one for the root. -/
theorem sequencerComposesBuild : Obligations.SequencerComposesBuild := by
  intro s t h
  have h : execBuild s = .next t := h
  exact ((h ▸ runsTo_build s).mono (by simp [microBound])).runMicro

end Sys2Proof.Machine

/-! SUPPORT and the settling of O58: ENCODE at the sequencer level (R210). A source symbol takes a micro-step for `E_FETCH`,
one for `E_LOOKUP` and one for each bit of its code; an error in one of the first two goes through the flush, as at the
command level. -/

namespace Sys2Proof.Machine

/-! ### The destination buffer -/

theorem memWrite_atPhase (s : State) (p : Phase) (m : Bool) (a : Nat) (v : Byte) :
    memWrite (s.atPhase p m) a v = (memWrite s a v).map (·.atPhase p m) := by
  cases hv : s.platform.memValid a <;> simp [memWrite, State.atPhase, hv]

theorem putByte_phaseBlind (v : Byte) : PhaseBlind (putByte · v) := by
  refine .ite (fun _ _ _ => rfl) (.raise fun _ _ _ => rfl) fun s p m => ?_
  rw [memWrite_atPhase, raise_atPhase]
  change (match (memWrite s s.dstByteAddr v).map (·.atPhase p m) with | none => _ | some _ => _) = _
  cases memWrite s s.dstByteAddr v <;> rfl

theorem putAcc_phaseBlind : PhaseBlind putAcc := fun s p m =>
  PhaseBlind.andThen (putByte_phaseBlind s.pack.acc) (fun _ _ _ => rfl) s p m

theorem flushAcc_phaseBlind : PhaseBlind flushAcc :=
  .ite (fun _ _ _ => rfl) (.go fun _ _ _ => rfl) putAcc_phaseBlind

/-- Putting a byte leaves the packer's place in the source alone. -/
theorem putAcc_go {s t : State} (h : putAcc s = .go t) :
    t.pack = { s.pack with acc := 0, nacc := 0 } ∧ t.srcLen = s.srcLen ∧ t.code = s.code := by
  rcases putAcc_cases s with ⟨_, hc⟩ | ⟨_, _, hc⟩ | ⟨_, _, hc⟩ <;> rw [hc] at h <;> cases h
  exact ⟨rfl, rfl, rfl⟩

/-- The last micro-step of ENCODE (R206), whether an error led there or not. -/
theorem runsTo_flush (s : State) (m : Bool) : RunsTo 1 (.next (s.atPhase .eFlush m)) (flushAcc s).finish :=
  .step (by simp) (.partLast flushAcc_phaseBlind)

theorem finish_andThen_ended (c : Ctl) : (c.andThen .ended).finish = c.finish := by
  cases c <;> rfl

/-- `E_FETCH` or `E_LOOKUP`, whose errors lead to the flush (R206, R210). -/
theorem RunsTo.partOrFlush {f k : State → Ctl} {u : State} {p q : Phase} {m : Bool} {n : Nat} (hf : PhaseBlind f)
    (hq : q ≠ .idle) (hgo : ∀ v, f u = .go v → RunsTo (n + 1) (.next (v.atPhase q m)) (k v).finish) :
    RunsTo (n + 1) ((f (u.atPhase p m)).enterOrFlush fun _ => q) ((exitThroughFlush (f u)).andThen k).finish := by
  rw [hf u p m]
  cases hc : f u with
  | go v =>
    rw [Ctl.map_go, Ctl.enterOrFlush, enterPhase_atPhase _ _ _ hq]
    exact hgo v hc
  | ended v =>
    rw [Ctl.map_ended, Ctl.enterOrFlush, enterPhase_atPhase _ _ _ (by decide), exitThroughFlush, Ctl.andThen_assoc]
    simp only [Ctl.andThen_ended]
    rw [finish_andThen_ended]
    exact (runsTo_flush v m).mono (by omega)
  | stuck e => exact .fault _ e

/-! ### A source symbol -/

theorem fetchSymbol_phaseBlind : PhaseBlind fetchSymbol := by
  intro s p m
  unfold fetchSymbol
  simp only [raise_atPhase]
  change (match memRead s (s.srcByteAddr s.pack.i.toNat) with | none => _ | some _ => _) = _
  cases memRead s (s.srcByteAddr s.pack.i.toNat) <;> rfl

theorem lookupSymbol_phaseBlind : PhaseBlind lookupSymbol :=
  .ite (fun _ _ _ => rfl) (.raise fun _ _ _ => rfl) (.go fun _ _ _ => rfl)

/-- One code bit enters the packer (R201), before the byte is put if it is full. -/
def packBit (s : State) : State :=
  { s with
    pack := { s.pack with
      acc := putStreamBit s.pack.acc s.pack.nacc.toNat ((s.codeAt s.pack.sym).bit s.pack.kbit.toNat)
      nacc := s.pack.nacc + 1
      kbit := s.pack.kbit + 1 }
    resBits := s.resBits + 1 }

theorem shiftBit_eq (s : State) :
    shiftBit s = if (packBit s).pack.nacc = 8 then putAcc (packBit s) else .go (packBit s) := rfl

theorem shiftBit_phaseBlind : PhaseBlind shiftBit :=
  .ite (c := fun s => (packBit s).pack.nacc = 8) (fun _ _ _ => rfl) (fun s => putAcc_phaseBlind (packBit s))
    (.go fun _ _ _ => rfl)

/-- The engine works on the source symbol at `i` of `len`, whose code table entry is `e`. -/
structure AtSymbol (i len : Word) (e : CodeEntry) (s : State) : Prop where
  place : s.pack.i = i
  srcLen : s.srcLen = len
  entry : s.codeAt s.pack.sym = e

theorem fetchSymbol_go {s t : State} (h : fetchSymbol s = .go t) : t.pack.i = s.pack.i ∧ t.srcLen = s.srcLen := by
  rcases fetchSymbol_cases s with ⟨_, hc⟩ | ⟨_, hc⟩ <;> rw [hc] at h <;> cases h
  exact ⟨rfl, rfl⟩

/-- A symbol that is found has a code, and none of its bits is packed yet. -/
theorem lookupSymbol_go {s t : State} (h : lookupSymbol s = .go t) :
    AtSymbol s.pack.i s.srcLen (s.codeAt s.pack.sym) t ∧ t.pack.kbit = 0 ∧ (s.codeAt s.pack.sym).len ≠ 0 := by
  rcases lookupSymbol_cases s with ⟨_, hc⟩ | ⟨hne, hc⟩ <;> rw [hc] at h <;> cases h
  exact ⟨⟨rfl, rfl, rfl⟩, rfl, hne⟩

theorem shiftBit_go {i len : Word} {e : CodeEntry} {s t : State} (hs : AtSymbol i len e s) (h : shiftBit s = .go t) :
    AtSymbol i len e t ∧ t.pack.kbit = s.pack.kbit + 1 := by
  obtain ⟨hplace, hlen, hentry⟩ := hs
  rw [shiftBit_eq] at h
  split at h
  · obtain ⟨hp, hl, hcode⟩ := putAcc_go h
    refine ⟨⟨by rw [hp]; exact hplace, hl.trans hlen, ?_⟩, by rw [hp]; rfl⟩
    rw [← hentry, hp]
    simp only [State.codeAt, hcode]
    rfl
  · cases h
    exact ⟨⟨hplace, hlen, hentry⟩, rfl⟩

/-- The phase before the symbol at `i`, or before the flush when there is none left (R210). -/
def symbolPhase (s : State) : Phase := if s.pack.i = s.srcLen then .eFlush else .eFetch

theorem symbolPhase_ne_idle (s : State) : symbolPhase s ≠ .idle := by
  unfold symbolPhase; split <;> simp

/-- With `n + 1` bits of its code left, a symbol takes as many micro-steps. -/
theorem runsTo_shift (n : Nat) {i len : Word} {e : CodeEntry} {u : State} {m : Bool} {k : State → Ctl} {N : Nat}
    (hu : AtSymbol i len e u) (hn : u.pack.kbit.toNat + (n + 1) = e.len.toNat)
    (hk : ∀ v, v.pack.i = i → v.srcLen = len →
      RunsTo N (.next ((nextSymbol v).atPhase (symbolPhase (nextSymbol v)) m)) (k v).finish) :
    RunsTo (N + n + 1) (.next (u.atPhase .eShift m)) ((Ctl.loop shiftBit (n + 1) u).andThen k).finish := by
  induction n generalizing u with
  | zero =>
    refine .step (by simp) ?_
    rw [Ctl.loop_succ, Ctl.andThen_assoc]
    refine .partThen shiftBit_phaseBlind fun v hv => ?_
    obtain ⟨⟨hplace, hlen, hentry⟩, hbit⟩ := shiftBit_go hu hv
    have hlast : v.pack.kbit = (v.codeAt v.pack.sym).len := by rw [hentry]; bv_omega
    rw [if_pos (by exact hlast)]
    change RunsTo N (Ctl.enter (.go ((nextSymbol v).atPhase (symbolPhase (nextSymbol v)) m)) State.phase) _
    rw [enter_atPhase _ _ (symbolPhase_ne_idle _)]
    exact hk v hplace hlen
  | succ n ih =>
    refine .step (by simp) ?_
    rw [Ctl.loop_succ, Ctl.andThen_assoc]
    refine .partThen shiftBit_phaseBlind fun v hv => ?_
    obtain ⟨hat, hbit⟩ := shiftBit_go hu hv
    have hmore : v.pack.kbit ≠ (v.codeAt v.pack.sym).len := by rw [hat.entry]; bv_omega
    rw [if_neg (by exact hmore)]
    exact ih hat (by bv_omega)

/-! ### The whole command -/

/-- The parts of a source symbol (R201), followed by `k`. -/
theorem encodeSymbol_andThen (k : State → Ctl) (s : State) :
    (encodeSymbol s).andThen k =
      (exitThroughFlush (fetchSymbol s)).andThen fun t => (exitThroughFlush (lookupSymbol t)).andThen fun u =>
        (Ctl.loop shiftBit (u.codeAt u.pack.sym).len.toNat u).andThen fun v => k (nextSymbol v) := by
  have hexit : exitThroughFlush ((fetchSymbol s).andThen lookupSymbol) =
      (exitThroughFlush (fetchSymbol s)).andThen fun t => exitThroughFlush (lookupSymbol t) := by
    cases fetchSymbol s with
    | go t => rfl
    | ended t => simp only [Ctl.andThen_ended, exitThroughFlush, Ctl.andThen_assoc]
    | stuck e => rfl
  simp only [encodeSymbol, hexit, Ctl.andThen_assoc, Ctl.andThen_go]

/-- With `n` source symbols left: at most 257 micro-steps for each, and the flush. -/
theorem runsTo_symbols (n : Nat) {u : State} (m : Bool) (hn : u.pack.i.toNat + n = u.srcLen.toNat) :
    RunsTo (257 * n + 1) (.next (u.atPhase (symbolPhase u) m))
      ((Ctl.loop encodeSymbol n u).andThen flushAcc).finish := by
  induction n generalizing u with
  | zero =>
    rw [symbolPhase, if_pos (BitVec.eq_of_toNat_eq hn)]
    exact runsTo_flush u m
  | succ n ih =>
    rw [symbolPhase, if_neg (by bv_omega), Ctl.loop_succ, Ctl.andThen_assoc, encodeSymbol_andThen]
    refine .step (n := 257 * n + 1 + 256) (by simp) (.partOrFlush fetchSymbol_phaseBlind (by decide) fun v hv => ?_)
    refine .step (n := 257 * n + 1 + 255) (by simp) (.partOrFlush lookupSymbol_phaseBlind (by decide) fun w hw => ?_)
    obtain ⟨hplace, hsrc⟩ := fetchSymbol_go hv
    obtain ⟨hat, hbit, hcode⟩ := lookupSymbol_go hw
    obtain ⟨l, hl⟩ : ∃ l, (v.codeAt v.pack.sym).len.toNat = l + 1 :=
      Nat.exists_eq_succ_of_ne_zero fun h => hcode (BitVec.eq_of_toNat_eq h)
    have hl255 := (v.codeAt v.pack.sym).len.isLt
    rw [hat.entry, hl]
    refine .mono (n := 257 * n + 1 + l + 1) (runsTo_shift l hat (by simp [hbit, hl]) fun x hx hxs => ?_) (by omega)
    have hi : (nextSymbol x).pack.i = u.pack.i + 1 := by rw [← hplace, ← hx]; rfl
    have hs : (nextSymbol x).srcLen = u.srcLen := hxs.trans hsrc
    exact ih (by bv_omega)

/-- The whole of ENCODE. -/
theorem runsTo_encode (s : State) :
    RunsTo (257 * s.srcLen.toNat + 1) (.next (issueMicro .encode s)) (execEncode s) := by
  have hphase : (if s.srcLen = 0 then Phase.eFlush else .eFetch) = symbolPhase (startEncode (beginCommand s)) :=
    if_congr eq_comm rfl rfl
  have hissue : issueMicro .encode s =
      (startEncode (beginCommand s)).atPhase (symbolPhase (startEncode (beginCommand s))) s.mode := by
    rw [← hphase]
    exact enterPhase_of_ne _ (by split <;> simp)
  rw [hissue]
  exact runsTo_symbols _ s.mode (by simp [startEncode])

/-- Settles O58: at most 257 micro-steps for each source symbol, and one for the flush. -/
theorem sequencerComposesEncode : Obligations.SequencerComposesEncode := by
  intro s t h
  have h : execEncode s = .next t := h
  exact (h ▸ runsTo_encode s).runMicro

end Sys2Proof.Machine

/-! SUPPORT and the settling of O59: DECODE.B and DECODE.S at the sequencer level (R233). The bit `j` takes a micro-step
for `D_FETCH` if it is the first of its byte, one for `D_WALK`, and one for `D_EMIT` if a leaf was reached. Both commands
do the same with a bit and differ in the test before it. -/

namespace Sys2Proof.Machine

/-! ### The parts of a bit -/

theorem fetchByte_phaseBlind : PhaseBlind fetchByte := by
  refine .ite (fun _ _ _ => rfl) (fun s p m => ?_) (.go fun _ _ _ => rfl)
  simp only [raise_atPhase]
  change (match memRead s (s.srcByteAddr (s.unpack.j.toNat / 8)) with | none => _ | some _ => _) = _
  cases memRead s (s.srcByteAddr (s.unpack.j.toNat / 8)) <;> rfl

/-- The child of the node `n` to which the bit `j` leads (R224). -/
def childAt (s : State) (n : Node) : Idx :=
  if streamBit s.unpack.cur (s.unpack.j.toNat % 8) then n.right else n.left

/-- The walk arrives at `pos` with one bit more consumed (R224). -/
def walkTo (s : State) (pos : Idx) : State :=
  { s with unpack := { s.unpack with pos := pos }, resBits := s.unpack.j + 1 }

theorem walkBit_phaseBlind : PhaseBlind walkBit := by
  intro s p m
  unfold walkBit
  change (match s.nodeAt s.unpack.pos with | none => _ | some _ => _) = _
  cases s.nodeAt s.unpack.pos with
  | none => rfl
  | some n =>
    by_cases hi : n.tag = .internal
    · simp only [hi, if_true]
      change (match s.nodeAt (childAt s n) with | none => _ | some _ => _) =
        (match s.nodeAt (childAt s n) with | none => _ | some _ => _ : Ctl).map _
      cases s.nodeAt (childAt s n) with
      | none => rfl
      | some c =>
        obtain ⟨tag, _⟩ := c
        cases tag with
        | placeholder =>
          exact congrArg Ctl.ended (raise_atPhase (walkTo s (childAt s n)) p m (.placeholder (childAt s n)))
        | internal => rfl
        | leaf => rfl
        | empty => rfl
    · simp only [hi, if_false]; rfl

/-- The walk is at a leaf. -/
def State.atLeaf (s : State) : Prop := (s.nodeAt s.unpack.pos).map Node.tag = some .leaf

/-- `RES_SYMS` counts a symbol that is put, and the walk returns to the root (R224). -/
def symbolPut (s : State) : State :=
  { s with resSyms := s.resSyms + 1, unpack := { s.unpack with pos := s.root } }

theorem emitSymbol_of_leaf {s : State} {n : Node} (hn : s.nodeAt s.unpack.pos = some n) (hl : n.tag = .leaf) :
    emitSymbol s = (putByte s n.sym).andThen fun t => .go (symbolPut t) := by
  simp only [emitSymbol, hn, hl, if_true, symbolPut]

theorem emitSymbol_of_not_leaf {s : State} (h : ¬ s.atLeaf) : emitSymbol s = .go s := by
  unfold emitSymbol
  cases hn : s.nodeAt s.unpack.pos with
  | none => rfl
  | some n => exact if_neg fun hl => h (by simp [State.atLeaf, hn, hl])

theorem emitSymbol_phaseBlind : PhaseBlind emitSymbol := by
  intro s p m
  by_cases h : s.atLeaf
  · obtain ⟨n, hn, hl⟩ := Option.map_eq_some_iff.1 h
    rw [emitSymbol_of_leaf hn hl, emitSymbol_of_leaf (s := s.atPhase p m) hn hl]
    exact (putByte_phaseBlind n.sym).andThen (.go (f := symbolPut) fun _ _ _ => rfl) s p m
  · rw [emitSymbol_of_not_leaf h, emitSymbol_of_not_leaf (s := s.atPhase p m) h]
    rfl

theorem checkAtRoot_phaseBlind : PhaseBlind checkAtRoot :=
  .ite (fun _ _ _ => rfl) (.go fun _ _ _ => rfl) (.raise fun _ _ _ => rfl)

/-! ### What a bit leaves alone -/

/-- `t` is at the bit of the source at which `s` is, and has the operands that say how many there are. -/
structure SameBit (s t : State) : Prop where
  bit : t.unpack.j = s.unpack.j
  srcLen : t.srcLen = s.srcLen
  opBits : t.opBits = s.opBits

theorem SameBit.refl (s : State) : SameBit s s := ⟨rfl, rfl, rfl⟩

theorem SameBit.trans {s t u : State} (h : SameBit s t) (h' : SameBit t u) : SameBit s u :=
  ⟨h'.bit.trans h.bit, h'.srcLen.trans h.srcLen, h'.opBits.trans h.opBits⟩

theorem fetchByte_go {s t : State} (h : fetchByte s = .go t) : SameBit s t := by
  rcases fetchByte_cases s with ⟨_, hc⟩ | ⟨_, _, hc⟩ | ⟨_, _, hc⟩ <;> rw [hc] at h <;> cases h
  · exact .refl s
  · exact ⟨rfl, rfl, rfl⟩

theorem walkBit_go {s t : State} (h : walkBit s = .go t) : SameBit s t := by
  unfold walkBit at h
  dsimp only at h
  repeat' split at h
  all_goals cases h
  all_goals exact ⟨rfl, rfl, rfl⟩

theorem emitSymbol_go {s t : State} (h : emitSymbol s = .go t) : SameBit s t := by
  by_cases hleaf : s.atLeaf
  · obtain ⟨n, hn, hl⟩ := Option.map_eq_some_iff.1 hleaf
    rw [emitSymbol_of_leaf hn hl] at h
    rcases putByte_cases s n.sym with ⟨_, hc⟩ | ⟨_, _, hc⟩ | ⟨_, _, hc⟩ <;> rw [hc] at h <;> cases h
    exact ⟨rfl, rfl, rfl⟩
  · rw [emitSymbol_of_not_leaf hleaf] at h
    cases h
    exact .refl s

/-- The parts of a bit (R224), followed by `k`. -/
theorem decodeBit_andThen (k : State → Ctl) (s : State) :
    (decodeBit s).andThen k =
      (fetchByte s).andThen fun t => (walkBit t).andThen fun u => (emitSymbol u).andThen fun v => k (nextBit v) := by
  simp only [decodeBit, Ctl.andThen_assoc, Ctl.andThen_go]

/-! ### The test before a bit -/

/-- The phase in which the bit `j` starts (R233). -/
def bitPhase (s : State) : Phase := if s.unpack.j.toNat % 8 = 0 then .dFetch else .dWalk

theorem bitPhase_ne_idle (s : State) : bitPhase s ≠ .idle := by
  unfold bitPhase; split <;> simp

/-- The last micro-step of a DECODE command (R227). -/
theorem runsTo_final (s : State) (m : Bool) :
    RunsTo 1 (.next (s.atPhase .dFinal m)) (if m then Ctl.go s else checkAtRoot s).finish := by
  refine .step (by simp) ?_
  cases m
  · exact .partLast checkAtRoot_phaseBlind
  · exact .toIdle _ s

/-- At most three micro-steps for a bit, and the test before the next one. -/
theorem runsTo_bit {n : Nat} {u : State} {m : Bool} {k : State → Ctl}
    (hk : ∀ v p, v.unpack.j = u.unpack.j + 1 → v.srcLen = u.srcLen → v.opBits = u.opBits →
      RunsTo n ((beforeBit (v.atPhase p m)).enter State.phase) (k v).finish) :
    RunsTo (n + 3) (.next (u.atPhase (bitPhase u) m)) ((decodeBit u).andThen k).finish := by
  rw [decodeBit_andThen]
  have hnext : ∀ v p, SameBit u v →
      RunsTo n ((beforeBit ((nextBit v).atPhase p m)).enter State.phase) (k (nextBit v)).finish :=
    fun v p h => hk (nextBit v) p (by rw [← h.bit]; rfl) h.srcLen h.opBits
  have hemit : ∀ v, SameBit u v →
      RunsTo (n + 1) (.next (v.atPhase .dEmit m)) ((emitSymbol v).andThen fun w => k (nextBit w)).finish :=
    fun v h => .step (by simp) (.partThen emitSymbol_phaseBlind fun w hw => hnext w .dEmit (h.trans (emitSymbol_go hw)))
  have hwalk : ∀ v, SameBit u v → RunsTo (n + 2) (.next (v.atPhase .dWalk m))
      ((walkBit v).andThen fun w => (emitSymbol w).andThen fun x => k (nextBit x)).finish := by
    intro v h
    refine .step (by simp) (.partThen walkBit_phaseBlind fun w hw => ?_)
    have hsame := h.trans (walkBit_go hw)
    by_cases hl : w.atLeaf
    · rw [if_pos (by exact hl)]
      exact hemit w hsame
    · rw [if_neg (by exact hl), emitSymbol_of_not_leaf hl]
      exact (hnext w .dWalk hsame).mono (by omega)
  by_cases hb : u.unpack.j.toNat % 8 = 0
  · rw [bitPhase, if_pos hb]
    exact .step (by simp) (.partTo fetchByte_phaseBlind (by decide) fun v hv => hwalk v (fetchByte_go hv))
  · have hf : fetchByte u = .go u := if_neg hb
    rw [bitPhase, if_neg hb, hf]
    exact (hwalk u (.refl u)).mono (by omega)

/-- The test before a bit of DECODE.B (R222). -/
theorem beforeBit_decodeB (s : State) (p : Phase) :
    (beforeBit (s.atPhase p false)).enter State.phase =
      .next (s.atPhase (if s.unpack.j.toNat = s.opBits then .dFinal else bitPhase s) false) := by
  change Ctl.enter (if s.unpack.j.toNat = s.opBits then _ else _) State.phase = _
  split
  · rfl
  · exact enter_atPhase s false (bitPhase_ne_idle s)

/-- The test before a bit of DECODE.S (R223, R230). -/
theorem beforeBit_decodeS (s : State) (p : Phase) :
    (beforeBit (s.atPhase p true)).enter State.phase =
      .next (if s.resSyms < s.opSyms then
          if s.unpack.j.toNat = 8 * s.srcLen.toNat then toIdle (raise s (.exhausted s.unpack.pos))
          else s.atPhase (bitPhase s) true
        else s.atPhase .dFinal true) := by
  change Ctl.enter (if s.resSyms < s.opSyms then if s.unpack.j.toNat = 8 * s.srcLen.toNat then _ else _ else _)
    State.phase = _
  split
  · split
    · change Host.Outcome.next (toIdle (raise (s.atPhase p true) (.exhausted s.unpack.pos))) = _
      rw [raise_atPhase, toIdle_atPhase]
    · exact enter_atPhase s true (bitPhase_ne_idle s)
  · rfl

/-! ### The whole commands -/

/-- DECODE.B with `n` bits left: the test, at most three micro-steps for each bit, and the last micro-step. -/
theorem runsTo_bits_decodeB (n : Nat) {u : State} (p : Phase) (hn : u.unpack.j.toNat + n = u.opBits)
    (hlt : u.opBits < 2 ^ 64) :
    RunsTo (3 * n + 1) ((beforeBit (u.atPhase p false)).enter State.phase)
      ((Ctl.loop decodeBit n u).andThen checkAtRoot).finish := by
  induction n generalizing u p with
  | zero =>
    rw [beforeBit_decodeB, if_pos (show u.unpack.j.toNat = u.opBits from hn)]
    exact runsTo_final u false
  | succ n ih =>
    rw [beforeBit_decodeB, if_neg (by omega), Ctl.loop_succ, Ctl.andThen_assoc]
    refine runsTo_bit (n := 3 * n + 1) fun v q hj _ hbits => ih q ?_ (by omega)
    have hstep : v.unpack.j.toNat = u.unpack.j.toNat + 1 := by bv_omega
    omega

/-- DECODE.S with `n` bits left in the source. -/
theorem runsTo_bits_decodeS (n : Nat) {u : State} (p : Phase) (hn : u.unpack.j.toNat + n = 8 * u.srcLen.toNat) :
    RunsTo (3 * n + 1) ((beforeBit (u.atPhase p true)).enter State.phase) (decodeUntilSyms n u).finish := by
  induction n generalizing u p with
  | zero =>
    rw [beforeBit_decodeS, decodeUntilSyms, if_pos (show u.unpack.j.toNat = 8 * u.srcLen.toNat from hn)]
    split
    · exact .toIdle _ _
    · exact runsTo_final u true
  | succ n ih =>
    rw [beforeBit_decodeS, decodeUntilSyms, if_neg (show u.unpack.j.toNat ≠ 8 * u.srcLen.toNat by omega)]
    split
    · refine runsTo_bit (n := 3 * n + 1) fun v q hj hlen _ => ih q ?_
      bv_omega
    · exact (runsTo_final u true).mono (by omega)

/-- `D_CHECK`, the first micro-step of a DECODE command (R221, R229, R233). -/
theorem microStep_dCheck (s : State) (m : Bool) :
    microStep (s.atPhase .dCheck m) =
      if !s.status.treeValid then .next (toIdle s)
      else if !m && decide (8 * s.srcLen.toNat < s.opBits) then .next (toIdle (raise s .overrun))
      else (beforeBit (s.atPhase .dCheck m)).enter State.phase := by
  change Ctl.enter (if !s.status.treeValid then _ else if !m && decide (8 * s.srcLen.toNat < s.opBits) then _ else _)
    State.phase = _
  split
  · rfl
  · split
    · change Host.Outcome.next (toIdle (raise (s.atPhase .dCheck m) .overrun)) = _
      rw [raise_atPhase, toIdle_atPhase]
    · rfl

/-- The whole of DECODE.B. -/
theorem runsTo_decodeB (s : State) :
    RunsTo (3 * 8 * s.srcLen.toNat + 2) (.next (issueMicro .decodeB s)) (execDecodeB s) := by
  let u := startDecode (beginCommand s)
  have hlen : u.srcLen.toNat = s.srcLen.toNat := rfl
  have hlt := s.srcLen.isLt
  have hexec : execDecodeB s = if !u.status.treeValid then .next (toIdle u)
      else if 8 * u.srcLen.toNat < u.opBits then .next (toIdle (raise u .overrun))
      else ((Ctl.loop decodeBit u.opBits u).andThen checkAtRoot).finish := rfl
  refine .step (s := u.atPhase .dCheck false) (by simp) ?_
  rw [hexec, microStep_dCheck]
  split
  · exact .toIdle _ u
  · by_cases hover : 8 * u.srcLen.toNat < u.opBits
    · rw [if_pos hover, if_pos (by simpa using hover)]
      exact .toIdle _ _
    · rw [if_neg hover, if_neg (by simpa using hover)]
      exact (runsTo_bits_decodeB u.opBits .dCheck (Nat.zero_add _) (by omega)).mono (by omega)

/-- The whole of DECODE.S. -/
theorem runsTo_decodeS (s : State) :
    RunsTo (3 * 8 * s.srcLen.toNat + 2) (.next (issueMicro .decodeS s)) (execDecodeS s) := by
  let u := startDecode (beginCommand s)
  have hlen : u.srcLen.toNat = s.srcLen.toNat := rfl
  have hexec : execDecodeS s = if !u.status.treeValid then .next (toIdle u)
      else (decodeUntilSyms (8 * u.srcLen.toNat) u).finish := rfl
  refine .step (s := u.atPhase .dCheck true) (by simp) ?_
  rw [hexec, microStep_dCheck]
  split
  · exact .toIdle _ u
  · exact (runsTo_bits_decodeS (8 * u.srcLen.toNat) .dCheck (Nat.zero_add _)).mono (by omega)

/-- Settles O59: one micro-step for `D_CHECK`, at most three for each bit of the source, and one for `D_FINAL`. -/
theorem sequencerComposesDecode : Obligations.SequencerComposesDecode := by
  rintro i s t (rfl | rfl) h
  · have h : execDecodeB s = .next t := h
    exact (h ▸ runsTo_decodeB s).runMicro
  · have h : execDecodeS s = .next t := h
    exact (h ▸ runsTo_decodeS s).runMicro

end Sys2Proof.Machine

/-! SUPPORT and the settling of O26 and O27: the tree that BUILD makes. The entries made so far are followed as a list
`es`: BUILD only ever appends to it, first a leaf for each symbol with a count, then an internal node for each merge. -/

namespace Sys2Proof.Machine

/-! ### Entries made so far -/

/-- `NODE` holds the entries `es` and is unused from there on. -/
structure Entries (es : List Node) (node : Vector Node 511) : Prop where
  entry : ∀ i (h : i < 511), node[i] = es[i]?.getD Node.unused
  le : es.length ≤ 511

/-- The weight of entry `i`, as a number. -/
def weightAt (es : List Node) (i : Nat) : Nat := (es[i]?.getD Node.unused).weight.toNat

/-- The children of an entry. -/
def childrenOf (n : Node) : List Nat := if n.tag = .internal then [n.left.toNat, n.right.toNat] else []

theorem weightAt_append {es : List Node} {i : Nat} (e : Node) (h : i < es.length) :
    weightAt (es ++ [e]) i = weightAt es i := by
  rw [weightAt, List.getElem?_append_left h, weightAt]

theorem weightAt_last (es : List Node) (e : Node) : weightAt (es ++ [e]) es.length = e.weight.toNat := by
  simp [weightAt]

section Entries

variable {es : List Node} {node : Vector Node 511}

theorem Entries.getElem?_of_lt (h : Entries es node) {i : Nat} (hi : i < 511) (hlt : i < es.length) :
    es[i]? = some node[i] := by
  rw [h.entry i hi, List.getElem?_eq_getElem hlt, Option.getD_some]

theorem Entries.unused_of_le (h : Entries es node) {i : Nat} (hi : i < 511) (hle : es.length ≤ i) :
    node[i] = Node.unused := by
  rw [h.entry i hi, List.getElem?_eq_none hle, Option.getD_none]

/-- Writing the first unused entry appends to those made. -/
theorem Entries.append (h : Entries es node) (hlt : es.length < 511) (e : Node) :
    Entries (es ++ [e]) (node.setIfInBounds es.length e) := by
  refine ⟨fun i hi => ?_, by simpa using hlt⟩
  rw [Vector.getElem_setIfInBounds, h.entry i hi]
  rcases Nat.lt_trichotomy i es.length with hlt | rfl | hgt
  · rw [if_neg (by omega), List.getElem?_append_left hlt]
  · simp
  · rw [if_neg (by omega), List.getElem?_eq_none (by omega), List.getElem?_eq_none (by simp; omega)]

theorem Entries.nodeWeight (h : Entries es node) (i : Idx) : (nodeWeight node i).toNat = weightAt es i.toNat := by
  unfold Machine.nodeWeight weightAt
  by_cases hi : i.toNat < 511
  · rw [Vector.getElem?_eq_getElem hi, h.entry _ hi, Option.getD_some]
  · rw [Vector.getElem?_eq_none (by omega), List.getElem?_eq_none (by have := h.le; omega)]

theorem Entries.toList (h : Entries es node) : node.toList = es ++ List.replicate (511 - es.length) Node.unused := by
  have hle := h.le
  refine List.ext_getElem (by simp; omega) fun i hi _ => ?_
  have hi : i < 511 := by simpa using hi
  rw [Vector.getElem_toList, h.entry i hi, List.getElem_append]
  split
  · rw [List.getElem?_eq_getElem ‹_›, Option.getD_some]
  · rw [List.getElem?_eq_none (by omega), Option.getD_none, List.getElem_replicate]

theorem Entries.childList (h : Entries es node) : childList node = es.flatMap childrenOf := by
  have hrest : (List.replicate (511 - es.length) Node.unused).flatMap childrenOf = [] := by
    simp [List.flatMap_eq_nil_iff, List.mem_replicate, childrenOf]
  change node.toList.flatMap childrenOf = _
  rw [h.toList, List.flatMap_append, hrest, List.append_nil]

end Entries

/-- BUILD has made the entries `es`. -/
structure Made (es : List Node) (s : State) : Prop where
  entries : Entries es s.node
  count : s.merge.k.toNat = es.length

/-- The members of the queue as numbers. -/
def queueOf (s : State) : List Nat := s.merge.pq.map BitVec.toNat

section Made

variable {es : List Node} {s : State}

/-- The index of the next entry. -/
theorem Made.next (h : Made es s) : (s.merge.k.truncate 9).toNat = es.length := by
  have hk := h.count
  have hle := h.entries.le
  bv_omega

/-- `NODE[k] <- e` (R153) appends an entry. -/
theorem Made.newNode (h : Made es s) (hlt : es.length < 511) (e : Node) : Made (es ++ [e]) (newNode s e) := by
  refine ⟨?_, ?_⟩
  · rw [newNode_node, h.count]
    exact h.entries.append hlt e
  · have hk := h.count
    simp only [newNode_merge, List.length_append, List.length_singleton]
    bv_omega

/-- The new entry is put into the queue. -/
theorem Made.queueOf_newNode (h : Made es s) (e : Node) :
    queueOf (Machine.newNode s e) = es.length :: queueOf s :=
  congrArg (· :: queueOf s) h.next

end Made

/-! ### The leaves -/

/-- The symbols with a count among the first `n` symbol values, in ascending order. -/
def symbolsBelow (s : State) (n : Nat) : List Byte :=
  ((List.range n).map (BitVec.ofNat 8)).filter fun x => decide (0 < s.freqAt x)

theorem symbolsBelow_all (s : State) : symbolsBelow s 256 = presentSymbols s := rfl

theorem symbolsBelow_succ (s : State) (n : Nat) :
    symbolsBelow s (n + 1) =
      symbolsBelow s n ++ if 0 < s.freqAt (BitVec.ofNat 8 n) then [BitVec.ofNat 8 n] else [] := by
  simp [symbolsBelow, List.range_succ, List.filter_cons]

theorem symbolsBelow_length_le (s : State) (n : Nat) : (symbolsBelow s n).length ≤ n :=
  (List.length_filter_le _ _).trans (by simp)

theorem pos_of_mem_presentSymbols {s : State} {x : Byte} (h : x ∈ presentSymbols s) : 0 < s.freqAt x := by
  simpa using (List.mem_filter.1 h).2

theorem presentSymbols_ascending (s : State) : (presentSymbols s).Pairwise (· < ·) := by
  refine List.Pairwise.filter _ (List.pairwise_map.2 (List.pairwise_lt_range.imp_of_mem ?_))
  intro i j _ hj hij
  have := List.mem_range.1 hj
  bv_omega

/-- The counts of the symbols that have one are all the counts there are. -/
theorem sum_presentSymbols (s : State) :
    ((presentSymbols s).map fun x => (s.freqAt x).toNat).sum = (s.freq.toList.map BitVec.toNat).sum := by
  have hfreq : s.freq.toList = ((List.range 256).map (BitVec.ofNat 8)).map s.freqAt := by
    refine List.ext_getElem (by simp) fun i hi _ => ?_
    have hi : i < 256 := by simpa using hi
    simp [State.freqAt, Nat.mod_eq_of_lt hi]
  rw [hfreq, List.map_map, presentSymbols]
  generalize (List.range 256).map (BitVec.ofNat 8) = xs
  induction xs with
  | nil => rfl
  | cons x xs ih =>
    rw [List.map_cons, List.sum_cons, List.filter_cons]
    by_cases hx : 0 < s.freqAt x
    · rw [if_pos (decide_eq_true hx), List.map_cons, List.sum_cons, ih]; rfl
    · have h0 : s.freqAt x = 0 := by bv_omega
      simpa [h0] using ih

/-- The sum of all counts fits in a weight (R160). -/
theorem sum_freq_lt (s : State) : (s.freq.toList.map BitVec.toNat).sum < 2 ^ 40 := by
  have hle : (s.freq.toList.map BitVec.toNat).sum ≤ (s.freq.toList.map BitVec.toNat).length • (2 ^ 32 - 1) := by
    refine List.sum_le_card_nsmul _ _ fun n hn => ?_
    obtain ⟨f, -, rfl⟩ := List.mem_map.1 hn
    have := f.isLt
    omega
  simp only [List.length_map, Vector.length_toList, smul_eq_mul] at hle
  omega

/-- The entry of a symbol with a count (R152). -/
def leafEntry (s : State) (x : Byte) : Node :=
  { tag := .leaf, sym := x, weight := (s.freqAt x).zeroExtend 40, left := 0, right := 0 }

/-- The placeholder's entry (R155). -/
def placeholderEntry : Node := { tag := .placeholder, sym := 0, weight := 0, left := 0, right := 0 }

/-- Before the merges: the entries `es` are made and all of them are in the queue. -/
structure Row (es : List Node) (s : State) : Prop where
  made : Made es s
  queue : (queueOf s).Perm (List.range es.length)

/-- The rest of the state plays no part. -/
theorem Row.congr {es : List Node} {s t : State} (h : Row es s) (hnode : t.node = s.node)
    (hk : t.merge.k = s.merge.k) (hpq : t.merge.pq = s.merge.pq) : Row es t :=
  ⟨⟨hnode ▸ h.made.entries, hk ▸ h.made.count⟩, by rw [queueOf, hpq]; exact h.queue⟩

theorem Row.newNode {es : List Node} {s : State} (h : Row es s) (hlt : es.length < 511) (e : Node) :
    Row (es ++ [e]) (newNode s e) := by
  refine ⟨h.made.newNode hlt e, ?_⟩
  rw [h.made.queueOf_newNode, List.length_append, List.length_singleton, List.range_succ]
  exact (h.queue.cons _).trans (List.perm_append_singleton _ _).symm

/-- `n` symbol values are scanned (R152), `s0` holding the counts. -/
structure Scanned (s0 : State) (n : Nat) (s : State) : Prop where
  row : Row ((symbolsBelow s0 n).map (leafEntry s0)) s
  freq : s.freq = s0.freq
  scan : s.merge.s.toNat = n

theorem Scanned.loadSymbol {s0 s : State} {n : Nat} (h : Scanned s0 n s) (hn : n < 256) :
    Scanned s0 (n + 1) (loadSymbol s) := by
  obtain ⟨hrow, hfreq, hscan⟩ := h
  have hx : s.merge.s.truncate 8 = BitVec.ofNat 8 n := by bv_omega
  have hf : ∀ x, s.freqAt x = s0.freqAt x := fun x => by simp [State.freqAt, hfreq]
  have hlen := symbolsBelow_length_le s0 n
  have hnext : (s.merge.s + 1).toNat = n + 1 := by bv_omega
  unfold Machine.loadSymbol
  simp only [hx, hf]
  by_cases hpos : 0 < s0.freqAt (BitVec.ofNat 8 n)
  · rw [if_pos hpos]
    refine ⟨?_, hfreq, hnext⟩
    rw [symbolsBelow_succ, if_pos hpos, List.map_append]
    exact (hrow.newNode (by simp; omega) (leafEntry s0 (BitVec.ofNat 8 n))).congr rfl rfl rfl
  · rw [if_neg hpos]
    refine ⟨?_, hfreq, hnext⟩
    rw [symbolsBelow_succ, if_neg hpos, List.append_nil]
    exact hrow.congr rfl rfl rfl

theorem Scanned.loadSymbols {s0 : State} (m : Nat) {n : Nat} {s : State} (h : Scanned s0 n s) (hn : n + m ≤ 256) :
    Scanned s0 (n + m) (loadSymbols m s) := by
  induction m generalizing n s with
  | zero => exact h
  | succ m ih =>
    have := ih (h.loadSymbol (by omega)) (by omega)
    rwa [Nat.add_right_comm] at this

/-- `B_CLEAR` and `B_LOAD` leave one leaf for each symbol with a count. -/
theorem scanned_all (s : State) : Scanned s 256 (loadSymbols 256 (clearTree (beginCommand s))) := by
  have h0 : Scanned s 0 (clearTree (beginCommand s)) :=
    ⟨⟨⟨⟨fun i hi => by simp [clearTree, symbolsBelow], by simp [symbolsBelow]⟩, rfl⟩,
      by simp [queueOf, clearTree, symbolsBelow]⟩, rfl, rfl⟩
  simpa using h0.loadSymbols 256 (by omega)

/-! ### The merges -/

/-- Entry `i` among `es` is an internal node as R42 and R43 demand it. -/
structure IsMerge (es : List Node) (i : Nat) (e : Node) : Prop where
  tag : e.tag = .internal
  sym : e.sym = 0
  left : e.left.toNat < i
  right : e.right.toNat < i
  distinct : e.left ≠ e.right
  weight : e.weight.toNat = weightAt es e.left.toNat + weightAt es e.right.toNat

/-- Between two merges: `es` are the leaves and the internal nodes made so far, each of them in the queue `q` or once a
child, and the weights in the queue sum up to `total`. -/
structure Forest (leaves es : List Node) (total : Nat) (q : List Nat) : Prop where
  first : ∀ i < leaves.length, es[i]? = leaves[i]?
  internal : ∀ i e, leaves.length ≤ i → es[i]? = some e → IsMerge es i e
  size : q.length + es.length = 2 * leaves.length
  once : (q ++ es.flatMap childrenOf).Perm (List.range es.length)
  total : (q.map (weightAt es)).sum = total

/-- The internal node that joins `a` and `b` (R153). -/
def joinEntry (w : Weight) (a b : Idx) : Node := { tag := .internal, sym := 0, weight := w, left := a, right := b }

section Join

variable {leaves es : List Node} {total : Nat} {q rest : List Nat} {a b : Idx}

theorem Forest.lt_of_mem (h : Forest leaves es total q) {i : Nat} (hi : i ∈ q) : i < es.length :=
  List.mem_range.1 (h.once.subset (List.mem_append_left _ hi))

theorem Forest.leaves_le (h : Forest leaves es total q) (hq : q ≠ []) : leaves.length ≤ es.length := by
  by_contra hlt
  have hqlen := List.length_pos_iff.2 hq
  have hnone : es[es.length]? = leaves[es.length]? := h.first _ (by omega)
  rw [List.getElem?_eq_none (Nat.le_refl _), List.getElem?_eq_getElem (by omega)] at hnone
  cases hnone

theorem Forest.ne (h : Forest leaves es total q) (hq : q.Perm (a.toNat :: b.toNat :: rest)) : a ≠ b := by
  rintro rfl
  have hnodup := (((hq.append_right _).symm.trans h.once).nodup_iff).2 List.nodup_range
  simp at hnodup

theorem Forest.total_eq (h : Forest leaves es total q) (hq : q.Perm (a.toNat :: b.toNat :: rest)) :
    weightAt es a.toNat + weightAt es b.toNat + (rest.map (weightAt es)).sum = total := by
  rw [← h.total, (hq.map (weightAt es)).sum_eq, List.map_cons, List.map_cons, List.sum_cons, List.sum_cons,
    Nat.add_assoc]

/-- Joining two members of the queue keeps what holds between two merges. -/
theorem Forest.join (h : Forest leaves es total q) (hq : q.Perm (a.toNat :: b.toNat :: rest)) {w : Weight}
    (hw : w.toNat = weightAt es a.toNat + weightAt es b.toNat) :
    Forest leaves (es ++ [joinEntry w a b]) total (es.length :: rest) := by
  have hmem : ∀ i ∈ a.toNat :: b.toNat :: rest, i < es.length := fun i hi => h.lt_of_mem (hq.symm.subset hi)
  have ha : a.toNat < es.length := hmem _ (by simp)
  have hb : b.toNat < es.length := hmem _ (by simp)
  have hle : leaves.length ≤ es.length := h.leaves_le (by rintro rfl; simpa using hq.length_eq)
  have hlen := hq.length_eq
  refine ⟨fun i hi => ?_, fun i f hi hf => ?_, ?_, ?_, ?_⟩
  · rw [List.getElem?_append_left (by omega), h.first i hi]
  · rcases Nat.lt_or_ge i es.length with hil | hil
    · rw [List.getElem?_append_left hil] at hf
      obtain ⟨htag, hsym, hl, hr, hd, hwt⟩ := h.internal i f hi hf
      exact ⟨htag, hsym, hl, hr, hd, by rw [weightAt_append _ (by omega), weightAt_append _ (by omega), hwt]⟩
    · obtain rfl : i = es.length := by
        have hlt := (List.getElem?_eq_some_iff.1 hf).1
        rw [List.length_append, List.length_singleton] at hlt
        omega
      obtain rfl : joinEntry w a b = f := by simpa using hf
      exact ⟨rfl, rfl, ha, hb, h.ne hq, by
        rw [joinEntry, weightAt_append _ ha, weightAt_append _ hb, hw]⟩
  · have hsize := h.size
    simp only [List.length_cons, List.length_append, List.length_nil] at hlen ⊢
    omega
  · have hchildren : (es ++ [joinEntry w a b]).flatMap childrenOf = es.flatMap childrenOf ++ [a.toNat, b.toNat] := by
      simp [childrenOf, joinEntry]
    rw [hchildren, List.length_append, List.length_singleton, List.range_succ, List.cons_append, ← List.append_assoc]
    have hall : (rest ++ es.flatMap childrenOf ++ [a.toNat, b.toNat]).Perm (List.range es.length) :=
      List.perm_append_comm.trans ((hq.append_right _).symm.trans h.once)
    exact (hall.cons _).trans (List.perm_append_singleton _ _).symm
  · have hrest : rest.map (weightAt (es ++ [joinEntry w a b])) = rest.map (weightAt es) :=
      List.map_congr_left fun i hi => weightAt_append _ (hmem i (by simp [hi]))
    rw [List.map_cons, List.sum_cons, weightAt_last, hrest, joinEntry, hw, h.total_eq hq]

end Join

theorem pqExtractMin_perm {node : Vector Node 511} {pq rest : List Idx} {m : Idx}
    (h : pqExtractMin node pq = some (m, rest)) : pq.Perm (m :: rest) := by
  cases pq with
  | nil => cases h
  | cons i pq =>
    cases h
    exact List.perm_cons_erase (pqLeast_mem node i pq)

/-- `s` with `a` and `b` extracted and `rest` left in the queue. -/
def State.extracted (s : State) (a b : Idx) (rest : List Idx) : State :=
  { s with merge := { s.merge with pq := rest, a := a, b := b } }

/-- A merge takes two members out of the queue and makes one node of them (R156, R159). -/
theorem mergeOnce_of_two {s : State} (h : 2 ≤ s.merge.pq.length) :
    ∃ a b rest, s.merge.pq.Perm (a :: b :: rest) ∧
      mergeOnce s =
        some (newNode (s.extracted a b rest) (joinEntry (nodeWeight s.node a + nodeWeight s.node b) a b)) := by
  obtain ⟨n, hn⟩ : ∃ n, s.merge.pq.length = n + 1 + 1 := ⟨s.merge.pq.length - 2, by omega⟩
  obtain ⟨a, r, ha, hr⟩ := pqExtractMin_of_length (node := s.node) hn
  obtain ⟨b, rest, hb, -⟩ := pqExtractMin_of_length (node := s.node) hr
  refine ⟨a, b, rest, (pqExtractMin_perm ha).trans ((pqExtractMin_perm hb).cons a), ?_⟩
  simp [mergeOnce, extractFirst, extractSecond, ha, hb, mergePair, State.extracted, joinEntry]

/-- BUILD has made `es` and is between two merges. -/
structure Merging (leaves es : List Node) (total : Nat) (s : State) : Prop where
  made : Made es s
  forest : Forest leaves es total (queueOf s)

/-- One merge keeps what holds between two merges, and makes the queue one shorter. -/
theorem Merging.mergeOnce {leaves es : List Node} {total : Nat} {s : State} (h : Merging leaves es total s)
    (hleaves : leaves.length ≤ 256) (htotal : total < 2 ^ 40) (hq : 2 ≤ s.merge.pq.length) :
    ∃ es' t, mergeOnce s = some t ∧ Merging leaves es' total t ∧ t.merge.pq.length + 1 = s.merge.pq.length := by
  obtain ⟨a, b, rest, hperm, hmerge⟩ := mergeOnce_of_two hq
  have hqueue : (queueOf s).Perm (a.toNat :: b.toNat :: rest.map BitVec.toNat) := hperm.map _
  have hlen := hperm.length_eq
  have hlt : es.length < 511 := by
    have hsize := h.forest.size
    rw [queueOf, List.length_map] at hsize
    omega
  have hweight : (nodeWeight s.node a + nodeWeight s.node b).toNat = weightAt es a.toNat + weightAt es b.toNat := by
    have := h.forest.total_eq hqueue
    rw [BitVec.toNat_add, h.made.entries.nodeWeight, h.made.entries.nodeWeight, Nat.mod_eq_of_lt (by omega)]
  have hmade : Made es (s.extracted a b rest) := ⟨h.made.entries, h.made.count⟩
  refine ⟨_, _, hmerge, ⟨hmade.newNode hlt _, ?_⟩, by simpa [State.extracted] using hlen.symm⟩
  rw [hmade.queueOf_newNode]
  exact h.forest.join hqueue hweight

/-- The loop of merges leaves one member in the queue (R156). -/
theorem Merging.mergeLoop {leaves : List Node} {total : Nat} (n : Nat) {es : List Node} {s : State}
    (h : Merging leaves es total s) (hleaves : leaves.length ≤ 256) (htotal : total < 2 ^ 40)
    (hpos : 1 ≤ s.merge.pq.length) (hn : s.merge.pq.length ≤ n + 1) :
    ∃ es', Merging leaves es' total (mergeLoop n s) ∧ (mergeLoop n s).merge.pq.length = 1 := by
  induction n generalizing es s with
  | zero => exact ⟨es, h, Nat.le_antisymm hn hpos⟩
  | succ n ih =>
    by_cases hmore : 1 < s.merge.pq.length
    · obtain ⟨es', t, ht, hmt, hlen⟩ := h.mergeOnce hleaves htotal hmore
      rw [Machine.mergeLoop, if_pos hmore, ht]
      exact ih hmt (by omega) (by omega)
    · rw [mergeLoop_of_not hmore]
      exact ⟨es, h, by omega⟩

/-! ### What BUILD writes -/

/-- From `s` to `t` nothing but `NODE` and the registers of U1 is written. -/
def EntriesOnly (s t : State) : Prop := t = { s with node := t.node, merge := t.merge }

theorem EntriesOnly.refl (s : State) : EntriesOnly s s := rfl

theorem EntriesOnly.trans {s t u : State} (h : EntriesOnly s t) (h' : EntriesOnly t u) : EntriesOnly s u :=
  Eq.trans h' (congrArg (fun v : State => { v with node := u.node, merge := u.merge }) h)

theorem EntriesOnly.nleaf {s t : State} (h : EntriesOnly s t) : t.nleaf = s.nleaf := by
  unfold EntriesOnly at h
  rw [h]

theorem loadSymbol_entriesOnly (s : State) : EntriesOnly s (loadSymbol s) := by
  unfold EntriesOnly loadSymbol
  dsimp only
  split <;> rfl

theorem loadSymbols_entriesOnly (n : Nat) (s : State) : EntriesOnly s (loadSymbols n s) := by
  induction n generalizing s with
  | zero => exact .refl s
  | succ n ih => exact (loadSymbol_entriesOnly s).trans (ih _)

theorem mergeOnce_entriesOnly {s t : State} (h : mergeOnce s = some t) : EntriesOnly s t := by
  simp only [mergeOnce, extractFirst, extractSecond, Option.map_eq_some_iff, Option.bind_eq_some_iff] at h
  obtain ⟨_, ⟨_, ⟨_, -, rfl⟩, _, -, rfl⟩, rfl⟩ := h
  rfl

theorem mergeLoop_entriesOnly (n : Nat) (s : State) : EntriesOnly s (mergeLoop n s) := by
  induction n generalizing s with
  | zero => exact .refl s
  | succ n ih =>
    rw [mergeLoop]
    split
    · split
      · exact (mergeOnce_entriesOnly ‹_›).trans (ih _)
      · exact .refl s
    · exact .refl s

/-! ### From the leaves to the root -/

/-- Entry `i` among the leaves, for the counts that `s` holds: a symbol's leaf, or the placeholder (R42, R43). -/
structure IsLeaf (s : State) (n i : Nat) (e : Node) : Prop where
  kind : (e.tag = .leaf ∧ e.weight.toNat = (s.freqAt e.sym).toNat ∧ 0 < (s.freqAt e.sym).toNat) ∨
    (e.tag = .placeholder ∧ e.sym = 0 ∧ i = 1 ∧ n = 2 ∧ e.weight = 0)
  left : e.left = 0
  right : e.right = 0

/-- `es` are the leaves of BUILD for the counts that `s` holds, the placeholder among them if there is one symbol. -/
structure IsLeaves (s : State) (es : List Node) : Prop where
  two_le : 2 ≤ es.length
  le : es.length ≤ 256
  entry : ∀ i e, es[i]? = some e → IsLeaf s es.length i e
  ascending : es.Pairwise fun e f => e.tag = .leaf → f.tag = .leaf → e.sym < f.sym
  total : (es.map fun e => e.weight.toNat).sum = (s.freq.toList.map BitVec.toNat).sum

theorem IsLeaf.not_internal {s : State} {n i : Nat} {e : Node} (h : IsLeaf s n i e) : e.tag ≠ .internal := by
  rcases h.kind with ⟨ht, -⟩ | ⟨ht, -⟩ <;> simp [ht]

theorem leafEntry_weight (s : State) (x : Byte) : (leafEntry s x).weight.toNat = (s.freqAt x).toNat := by
  simp [leafEntry]; omega

theorem isLeaf_leafEntry {s : State} {x : Byte} (n i : Nat) (h : x ∈ presentSymbols s) :
    IsLeaf s n i (leafEntry s x) :=
  ⟨.inl ⟨rfl, leafEntry_weight s x, BitVec.lt_def.1 (pos_of_mem_presentSymbols h)⟩, rfl, rfl⟩

theorem sum_leafEntries (s : State) :
    (((presentSymbols s).map (leafEntry s)).map fun e => e.weight.toNat).sum = (s.freq.toList.map BitVec.toNat).sum := by
  rw [← sum_presentSymbols, List.map_map]
  exact congrArg List.sum (List.map_congr_left fun x _ => leafEntry_weight s x)

/-- The leaves with no placeholder. -/
theorem isLeaves_of_two {s : State} (h : 2 ≤ (presentSymbols s).length) :
    IsLeaves s ((presentSymbols s).map (leafEntry s)) := by
  refine ⟨by simpa using h, (List.length_map _).trans_le (symbolsBelow_length_le s 256), fun i e he => ?_, ?_, sum_leafEntries s⟩
  · obtain ⟨x, hx, rfl⟩ := List.mem_map.1 (List.mem_of_getElem? he)
    exact isLeaf_leafEntry _ i hx
  · exact List.pairwise_map.2 ((presentSymbols_ascending s).imp fun hlt _ _ => hlt)

/-- One leaf and the placeholder. -/
theorem isLeaves_of_one {s : State} (h : (presentSymbols s).length = 1) :
    IsLeaves s ((presentSymbols s).map (leafEntry s) ++ [placeholderEntry]) := by
  have htotal := sum_leafEntries s
  obtain ⟨x, hx⟩ := List.length_eq_one_iff.1 h
  have hmem : x ∈ presentSymbols s := by simp [hx]
  rw [hx] at htotal ⊢
  refine ⟨by simp, by simp, fun i e he => ?_, ?_, by simpa [placeholderEntry] using htotal⟩
  · match i with
    | 0 => cases he; exact isLeaf_leafEntry _ 0 hmem
    | 1 => cases he; exact ⟨.inr ⟨rfl, rfl, rfl, rfl, rfl⟩, rfl, rfl⟩
    | i + 2 => cases he
  · simp [placeholderEntry]

/-- The leaves before the first merge. -/
theorem Row.merging {es : List Node} {s s0 : State} (h : Row es s) (hes : IsLeaves s0 es) :
    Merging es es (s0.freq.toList.map BitVec.toNat).sum s := by
  refine ⟨h.made, fun _ _ => rfl, fun i e hi he => ?_, ?_, ?_, ?_⟩
  · rw [List.getElem?_eq_none hi] at he
    cases he
  · rw [h.queue.length_eq, List.length_range]
    omega
  · have hnone : es.flatMap childrenOf = [] := by
      refine List.flatMap_eq_nil_iff.2 fun e he => ?_
      obtain ⟨i, hi⟩ := List.mem_iff_getElem?.1 he
      exact if_neg (hes.entry i e hi).not_internal
    rw [hnone, List.append_nil]
    exact h.queue
  · have hrange : (List.range es.length).map (weightAt es) = es.map fun e => e.weight.toNat := by
      refine List.ext_getElem (by simp) fun i hi _ => ?_
      have hi : i < es.length := by simpa using hi
      simp [weightAt, List.getElem?_eq_getElem hi]
    rw [(h.queue.map _).sum_eq, hrange, hes.total]

/-! ### The tree -/

section Root

variable {leaves es : List Node} {total r : Nat}

/-- When the merges are done there are `2n - 1` entries for `n` leaves. -/
theorem Forest.length_of_root (h : Forest leaves es total [r]) : es.length + 1 = 2 * leaves.length :=
  (Nat.add_comm _ _).trans h.size

/-- The one member left in the queue is the last node made: no later node has it as a child. -/
theorem Forest.root_last (h : Forest leaves es total [r]) (hleaves : ∀ e ∈ leaves, e.tag ≠ .internal) :
    r + 1 = es.length := by
  have hr := h.lt_of_mem (List.mem_singleton_self r)
  have hlast : es.length - 1 ∈ [r] ++ es.flatMap childrenOf :=
    h.once.symm.subset (List.mem_range.2 (by omega))
  rcases List.mem_append.1 hlast with hlast | hlast
  · have := List.mem_singleton.1 hlast
    omega
  · obtain ⟨e, he, hchild⟩ := List.mem_flatMap.1 hlast
    obtain ⟨i, hi⟩ := List.mem_iff_getElem?.1 he
    have hlt := (List.getElem?_eq_some_iff.1 hi).1
    rw [childrenOf] at hchild
    split at hchild
    · rcases Nat.lt_or_ge i leaves.length with hleaf | hint
      · exact absurd ‹_› (hleaves e (List.mem_of_getElem? ((h.first i hleaf).symm.trans hi)))
      · obtain ⟨-, -, hl, hr, -, -⟩ := h.internal i e hint hi
        simp only [List.mem_cons, List.not_mem_nil, or_false] at hchild
        omega
    · cases hchild

/-- Every entry but the root is once a child. -/
theorem Forest.count_child (h : Forest leaves es total [r]) {c : Nat} (hc : c < es.length) (hne : c ≠ r) :
    (es.flatMap childrenOf).count c = 1 := by
  have hcount := h.once.count_eq c
  rw [List.count_append, List.count_singleton, List.count_eq_one_of_mem List.nodup_range (List.mem_range.2 hc)] at hcount
  simpa [Ne.symm hne] using hcount

end Root

/-- `t` holds the finished tree on `leaves`, made for the counts that `s` holds. -/
structure Built (s t : State) (leaves es : List Node) : Prop where
  isLeaves : IsLeaves s leaves
  forest : Forest leaves es (s.freq.toList.map BitVec.toNat).sum [t.root.toNat]
  entries : Entries es t.node
  valid : t.status.treeValid = true
  nleaf : t.nleaf.toNat = leaves.length
  nnode : t.nnode.toNat = es.length

section Built

variable {s t : State} {leaves es : List Node}

theorem Built.root_last (h : Built s t leaves es) : t.root.toNat + 1 = es.length := by
  refine h.forest.root_last fun e he => ?_
  obtain ⟨i, hi⟩ := List.mem_iff_getElem?.1 he
  exact (h.isLeaves.entry i e hi).not_internal

theorem Built.treeShape (h : Built s t leaves es) : TreeShape t := by
  have hlen := h.forest.length_of_root
  have hroot := h.root_last
  obtain ⟨hleaves, hforest, hent, hvalid, hnleaf, hnnode⟩ := h
  have hleaf : ∀ i (hi : i < 511), i < leaves.length → leaves[i]? = some t.node[i] := fun i hi hlt =>
    (hforest.first i hlt).symm.trans (hent.getElem?_of_lt hi (by omega))
  refine ⟨hvalid, hnleaf ▸ hleaves.two_le, hnleaf ▸ hleaves.le, by omega, by omega, fun i hi hlt => ?_,
    fun i j hi hj hij hlt => ?_, fun i hi hge hlt => ?_, fun c hc => ?_, fun i hi hge => ?_⟩
  · rw [hnleaf] at hlt ⊢
    obtain ⟨hkind, hl, hr⟩ := hleaves.entry i _ (hleaf i hi hlt)
    exact ⟨hkind.imp And.left fun ⟨ht, hs, h1, h2, _⟩ => ⟨ht, hs, h1, h2⟩, hl, hr⟩
  · rw [hnleaf] at hlt
    obtain ⟨hi', hei⟩ := List.getElem?_eq_some_iff.1 (hleaf i hi (by omega))
    obtain ⟨hj', hej⟩ := List.getElem?_eq_some_iff.1 (hleaf j hj hlt)
    simpa only [hei, hej] using List.pairwise_iff_getElem.1 hleaves.ascending i j hi' hj' hij
  · obtain ⟨htag, hsym, hl, hr, hd, -⟩ := hforest.internal i _ (by omega) (hent.getElem?_of_lt hi (by omega))
    exact ⟨htag, hsym, hl, hr, hd⟩
  · rw [hent.childList]
    exact hforest.count_child (by omega) (by omega)
  · exact hent.unused_of_le hi (by omega)

/-- What an entry of `NODE` can be after BUILD. -/
theorem Built.entry_cases (h : Built s t leaves es) {i : Nat} (hi : i < 511) :
    IsLeaf s leaves.length i t.node[i] ∨ IsMerge es i t.node[i] ∨ t.node[i] = Node.unused := by
  rcases Nat.lt_or_ge i es.length with hmade | hge
  · have he := h.entries.getElem?_of_lt hi hmade
    rcases Nat.lt_or_ge i leaves.length with hleaf | hint
    · exact .inl (h.isLeaves.entry i _ ((h.forest.first i hleaf).symm.trans he))
    · exact .inr (.inl (h.forest.internal i _ hint he))
  · exact .inr (.inr (h.entries.unused_of_le hi hge))

/-- The weight of a leaf is the count of its symbol, which has one (R152). -/
theorem Built.leaf_weight (h : Built s t leaves es) {i : Nat} (hi : i < 511) (htag : t.node[i].tag = .leaf) :
    t.node[i].weight.toNat = (s.freqAt t.node[i].sym).toNat ∧ 0 < (s.freqAt t.node[i].sym).toNat := by
  rcases h.entry_cases hi with hleaf | hmerge | hunused
  · rcases hleaf.kind with ⟨-, hw, hpos⟩ | ⟨hp, -⟩
    · exact ⟨hw, hpos⟩
    · simp [htag] at hp
  · simp [hmerge.tag] at htag
  · simp [hunused] at htag

theorem Built.internal_weight (h : Built s t leaves es) {i : Nat} (hi : i < 511) (htag : t.node[i].tag = .internal) :
    t.node[i].weight.toNat = weightAt es t.node[i].left.toNat + weightAt es t.node[i].right.toNat := by
  rcases h.entry_cases hi with hleaf | hmerge | hunused
  · exact absurd htag hleaf.not_internal
  · exact hmerge.weight
  · simp [hunused] at htag

theorem Built.placeholder_weight (h : Built s t leaves es) {i : Nat} (hi : i < 511)
    (htag : t.node[i].tag = .placeholder) : t.node[i].weight = 0 := by
  rcases h.entry_cases hi with hleaf | hmerge | hunused
  · rcases hleaf.kind with ⟨hl, -⟩ | ⟨-, -, -, -, hw⟩
    · simp [htag] at hl
    · exact hw
  · simp [hmerge.tag] at htag
  · simp [hunused] at htag

theorem Built.invW (h : Built s t leaves es) : InvW t := by
  refine fun i hi => ⟨fun htag => ?_, fun htag => ?_, h.placeholder_weight hi⟩
  · rw [h.entries.nodeWeight, h.entries.nodeWeight, h.internal_weight hi htag]
  · obtain ⟨hw, hpos⟩ := h.leaf_weight hi htag
    have := (s.freqAt t.node[i].sym).isLt
    omega

theorem Built.root_weight (h : Built s t leaves es) :
    (nodeWeight t.node t.root).toNat = (s.freq.toList.map BitVec.toNat).sum := by
  rw [h.entries.nodeWeight]
  simpa using h.forest.total

/-- The end of the command changes nothing of the tree. -/
theorem Built.toIdle (h : Built s t leaves es) : Built s (toIdle t) leaves es :=
  ⟨h.isLeaves, h.forest, h.entries, h.valid, h.nleaf, h.nnode⟩

end Built

/-! ### The whole of BUILD -/

/-- What follows the leaves and the placeholder (R153). -/
theorem Row.built {s u : State} {leaves : List Node} (h : Row leaves u) (hleaves : IsLeaves s leaves) :
    ∃ es, Built s (mergeAndRoot u.merge.pq.length (setLeafCount u)) leaves es := by
  have hq : u.merge.pq.length = leaves.length := by
    simpa [queueOf] using h.queue.length_eq
  have htwo := hleaves.two_le
  have hrow : Row leaves (setLeafCount u) := h.congr rfl rfl rfl
  obtain ⟨es, ⟨hmade, hforest⟩, hone⟩ := (hrow.merging hleaves).mergeLoop u.merge.pq.length hleaves.le (sum_freq_lt s)
    (hq ▸ by omega) (Nat.le_succ _)
  have hnleaf := (mergeLoop_entriesOnly u.merge.pq.length (setLeafCount u)).nleaf
  rw [mergeAndRoot]
  generalize mergeLoop u.merge.pq.length (setLeafCount u) = v at *
  obtain ⟨r, hr⟩ := List.length_eq_one_iff.1 hone
  rw [queueOf, hr] at hforest
  rw [takeRoot, hr]
  exact ⟨es, hleaves, hforest, hmade.entries, rfl, (congrArg BitVec.toNat hnleaf).trans h.made.next, hmade.count⟩

/-- What BUILD does after the leaves, by their number (R151, R153, R155). -/
theorem buildFromLeaves_eq (s : State) :
    buildFromLeaves s =
      if s.merge.k = 0 then noTree s
      else if s.merge.k = 1 then
        mergeAndRoot (addPlaceholder s).merge.pq.length (setLeafCount (addPlaceholder s))
      else mergeAndRoot s.merge.pq.length (setLeafCount s) := by
  unfold buildFromLeaves
  split
  · rfl
  · split <;> rfl

/-- BUILD of a table with a key makes the tree on its leaves. -/
theorem execBuild_built {s : State} (h : presentSymbols s ≠ []) :
    ∃ t leaves es, execBuild s = .next t ∧ Built s t leaves es := by
  obtain ⟨hrow, -, -⟩ := scanned_all s
  rw [symbolsBelow_all] at hrow
  unfold execBuild
  generalize loadSymbols 256 (clearTree (beginCommand s)) = u at *
  have hlen : u.merge.k.toNat = (presentSymbols s).length := hrow.made.count.trans (List.length_map _)
  have hpos := List.length_pos_iff.2 h
  have hle : (presentSymbols s).length ≤ 256 := symbolsBelow_length_le s 256
  rw [buildFromLeaves_eq, if_neg (by bv_omega)]
  by_cases hone : u.merge.k = 1
  · rw [if_pos hone]
    have hrow' := hrow.newNode (by rw [List.length_map]; omega) placeholderEntry
    obtain ⟨es, hes⟩ := Row.built (u := addPlaceholder u) hrow' (isLeaves_of_one (by bv_omega))
    exact ⟨_, _, es, rfl, hes.toIdle⟩
  · rw [if_neg hone]
    obtain ⟨es, hes⟩ := hrow.built (isLeaves_of_two (by bv_omega))
    exact ⟨_, _, es, rfl, hes.toIdle⟩

/-- Settles O26: the entries made are the leaves and the merges, and at the end each of them is the root or once a
child. -/
theorem buildMakesATree : Obligations.BuildMakesATree := by
  intro s h
  obtain ⟨t, leaves, es, ht, hbuilt⟩ := execBuild_built h
  exact ⟨t, ht, hbuilt.treeShape⟩

/-- Settles O27: a merge keeps the sum of the weights in the queue, which is below 2^40 throughout. -/
theorem buildWeightsAreSums : Obligations.BuildWeightsAreSums := by
  intro s h
  obtain ⟨t, leaves, es, ht, hbuilt⟩ := execBuild_built h
  exact ⟨t, ht, hbuilt.invW, fun i hi htag => (hbuilt.leaf_weight hi htag).1, hbuilt.root_weight⟩

end Sys2Proof.Machine

/-! SUPPORT. The walk of GEN (R183) as a traversal in the order of the paths: where it stands is a path, and the leaves
before that path have their codes. -/

namespace Sys2Proof.Machine

/-! ### Paths in a tree -/

section Paths

variable {node : Vector Node 511}

theorem followPath_append (p : Idx) (c d : List Bool) :
    followPath node p (c ++ d) = (followPath node p c).bind fun q => followPath node q d := by
  induction c generalizing p with
  | nil => rfl
  | cons b c ih =>
    simp only [List.cons_append, followPath]
    split
    · rfl
    · split
      · exact ih _
      · rfl

/-- One bit further from an internal node. -/
theorem followPath_snoc {p i : Idx} {c : List Bool} {n : Node} (hc : followPath node p c = some i)
    (hn : node[i.toNat]? = some n) (ht : n.tag = .internal) (b : Bool) :
    followPath node p (c ++ [b]) = some (if b then n.right else n.left) := by
  simp [followPath_append, hc, followPath, hn, ht]

/-- A path that leads on from a node has an internal node there. -/
theorem internal_of_followPath_cons {i j : Idx} {b : Bool} {d : List Bool} (h : followPath node i (b :: d) = some j) :
    ∃ n, node[i.toNat]? = some n ∧ n.tag = .internal := by
  rw [followPath] at h
  split at h
  · cases h
  · split at h
    · exact ⟨_, ‹_›, ‹_›⟩
    · cases h

/-- No path leads on from a node that is not internal. -/
theorem eq_of_prefix_of_not_internal {p i j : Idx} {c q : List Bool} {n : Node} (hc : followPath node p c = some i)
    (hn : node[i.toNat]? = some n) (ht : n.tag ≠ .internal) (hq : followPath node p q = some j) (hpre : c <+: q) :
    j = i := by
  obtain ⟨d, rfl⟩ := hpre
  rw [followPath_append, hc] at hq
  cases d with
  | nil => exact (Option.some.inj hq).symm
  | cons b d =>
    obtain ⟨n', hn', ht'⟩ := internal_of_followPath_cons hq
    rw [hn] at hn'
    cases hn'
    exact absurd ht' ht

theorem leafOf_iff {i : Idx} {n : Node} (hn : node[i.toNat]? = some n) (x : Byte) :
    leafOf node i x ↔ n.tag = .leaf ∧ n.sym = x := by
  simp [leafOf, hn]

end Paths

/-- The path `q` branches to the left where `c` branches to the right. -/
def Before (q c : List Bool) : Prop := ∃ r x y, q = r ++ false :: x ∧ c = r ++ true :: y

theorem not_before_nil (q : List Bool) : ¬ Before q [] := by
  rintro ⟨r, x, y, -, h⟩
  simp at h

theorem Before.snoc {q c : List Bool} (h : Before q c) (b : Bool) : Before q (c ++ [b]) := by
  obtain ⟨r, x, y, hq, rfl⟩ := h
  exact ⟨r, x, y ++ [b], hq, by simp⟩

/-- What is before a path with one bit more is before the path, or it is to the left of that bit. -/
theorem before_snoc {q c : List Bool} {b : Bool} (h : Before q (c ++ [b])) :
    Before q c ∨ (b = true ∧ c ++ [false] <+: q) := by
  obtain ⟨r, x, y, rfl, hc⟩ := h
  rcases y.eq_nil_or_concat with rfl | ⟨y, d, rfl⟩
  · obtain ⟨rfl, hb⟩ := List.append_inj' hc rfl
    exact .inr ⟨by simpa using hb, x, by simp⟩
  · rw [List.concat_eq_append, ← List.cons_append, ← List.append_assoc] at hc
    obtain ⟨rfl, -⟩ := List.append_inj' hc rfl
    exact .inl ⟨r, x, y, rfl, rfl⟩

theorem before_of_left {q c : List Bool} (h : c ++ [false] <+: q) : Before q (c ++ [true]) := by
  obtain ⟨x, rfl⟩ := h
  exact ⟨c, x, [], by simp, rfl⟩

/-- A path that goes on after `c` goes on to the left or to the right. -/
theorem prefix_cases {q c : List Bool} (h : c <+: q) : q = c ∨ c ++ [false] <+: q ∨ c ++ [true] <+: q := by
  obtain ⟨d, rfl⟩ := h
  match d with
  | [] => simp
  | false :: d => exact .inr (.inl ⟨d, by simp⟩)
  | true :: d => exact .inr (.inr ⟨d, by simp⟩)

/-! ### The walker's registers -/

theorem getLsbD_setPathBit (path : BitVec 256) {i : Nat} (hi : i < 256) (b : Bool) (j : Nat) :
    (setPathBit path i b).getLsbD j = if j = i then b else path.getLsbD j := by
  have hone : (1#256 <<< i).getLsbD j = decide (j = i) := by
    simp only [BitVec.getLsbD_shiftLeft, BitVec.getLsbD_one]
    by_cases hj : j = i
    · simp [hj, hi]
    · simp [hj]; omega
  unfold setPathBit
  cases b
  · simp only [Bool.false_eq_true, if_false, BitVec.getLsbD_and, BitVec.getLsbD_not, hone]
    by_cases hlt : j < 256
    · by_cases hj : j = i <;> simp [hj, hlt]
    · simp [BitVec.getLsbD_of_ge path j (by omega)]
  · simp only [if_true, BitVec.getLsbD_or, hone]
    by_cases hj : j = i <;> simp [hj]

/-- The bits of a left-aligned path (R183). -/
theorem getLsbD_leftAligned (path : BitVec 256) {n : Nat} (hn : n ≤ 256) {k : Nat} (hk : k < 256) :
    (leftAligned path n).getLsbD (255 - k) = (decide (k < n) && path.getLsbD k) := by
  induction n with
  | zero => simp [leftAligned]
  | succ n ih =>
    rw [leftAligned, getLsbD_setPathBit _ (by omega), ih (by omega)]
    by_cases hkn : k = n
    · simp [hkn]
    · rw [if_neg (by omega)]
      congr 1
      exact decide_eq_decide.2 (by omega)

/-- The path on which the walker stands. -/
def walkPath (w : WalkRegs) : List Bool := (List.range w.depth.toNat).map fun t => w.path.getLsbD t

@[simp] theorem length_walkPath (w : WalkRegs) : (walkPath w).length = w.depth.toNat := by simp [walkPath]

/-- The walker's registers one level further up. -/
def climb (w : WalkRegs) : WalkRegs := { w with depth := w.depth - 1 }

/-- The walker's registers one level further down, to the left of `n`. -/
def descendLeft (w : WalkRegs) (n : Node) (h : w.depth.toNat < 255) : WalkRegs :=
  { cur := n.left
    depth := w.depth + 1
    path := setPathBit w.path w.depth.toNat false
    stk := w.stk.set w.depth.toNat w.cur (by omega) }

/-- The walker's registers after turning from the left child of `n` to the right one. -/
def turnRight (w : WalkRegs) (n : Node) : WalkRegs :=
  { w with path := setPathBit w.path (w.depth - 1).toNat true, cur := n.right, depth := w.depth - 1 + 1 }

theorem walkPath_descendLeft (w : WalkRegs) (n : Node) (h : w.depth.toNat < 255) :
    walkPath (descendLeft w n h) = walkPath w ++ [false] := by
  have hd : (w.depth + 1).toNat = w.depth.toNat + 1 := by bv_omega
  simp only [walkPath, descendLeft, hd, List.range_succ, List.map_append, List.map_cons, List.map_nil,
    getLsbD_setPathBit _ (show w.depth.toNat < 256 by omega), if_true]
  congr 1
  refine List.map_congr_left fun t ht => if_neg ?_
  have := List.mem_range.1 ht
  omega

theorem walkPath_eq_climb {w : WalkRegs} (h : w.depth ≠ 0) :
    walkPath w = walkPath (climb w) ++ [w.path.getLsbD (w.depth - 1).toNat] := by
  have hd : w.depth.toNat = (w.depth - 1).toNat + 1 := by bv_omega
  simp only [walkPath, climb]
  rw [hd, List.range_succ, List.map_append]
  rfl

theorem walkPath_turnRight {w : WalkRegs} (n : Node) (h : w.depth ≠ 0) (hle : w.depth.toNat ≤ 255) :
    walkPath (turnRight w n) = walkPath (climb w) ++ [true] := by
  have hd : (w.depth - 1 + 1).toNat = (w.depth - 1).toNat + 1 := by bv_omega
  have hlt : (w.depth - 1).toNat < 256 := by bv_omega
  simp only [walkPath, turnRight, climb, hd, List.range_succ, List.map_append, List.map_cons, List.map_nil,
    getLsbD_setPathBit _ hlt, if_true]
  congr 1
  refine List.map_congr_left fun t ht => if_neg ?_
  have := List.mem_range.1 ht
  omega

/-! ### What an iteration of the walk can do -/

/-- `G_DESCEND` (R183). -/
theorem walkDescend_cases (s : State) :
    (∃ f, walkDescend s = .stuck f) ∨
    ∃ n, s.nodeAt s.walk.cur = some n ∧
      ((n.tag = .internal ∧ ∃ h, walkDescend s = .go { s with walk := descendLeft s.walk n h }) ∨
       (n.tag = .leaf ∧ s.walk.depth ≠ 0 ∧ walkDescend s = .go { recordCode s n.sym with phase := .gAscend }) ∨
       (n.tag = .placeholder ∧ walkDescend s = .go { s with phase := .gAscend })) := by
  unfold walkDescend
  cases s.nodeAt s.walk.cur with
  | none => exact .inl ⟨_, rfl⟩
  | some n =>
    dsimp only
    split
    · split
      · exact .inr ⟨n, rfl, .inl ⟨‹_›, ‹_›, rfl⟩⟩
      · exact .inl ⟨_, rfl⟩
    · split
      · exact .inl ⟨_, rfl⟩
      · exact .inr ⟨n, rfl, .inr (.inl ⟨‹_›, ‹_›, rfl⟩)⟩
    · split
      · exact .inl ⟨_, rfl⟩
      · exact .inr ⟨n, rfl, .inr (.inr ⟨‹_›, rfl⟩)⟩
    · exact .inl ⟨_, rfl⟩

/-- The node that the walk passed at depth `t`. -/
def passed (w : WalkRegs) (t : Nat) : Idx := w.stk[t]?.getD 0

/-- `G_ASCEND` (R183). -/
theorem walkAscend_cases (s : State) :
    (s.walk.depth = 0 ∧ walkAscend s = .go { s with phase := .idle }) ∨
    (s.walk.depth ≠ 0 ∧ s.walk.path.getLsbD (s.walk.depth - 1).toNat = true ∧
      walkAscend s = .go { s with walk := climb s.walk }) ∨
    (s.walk.depth ≠ 0 ∧ s.walk.path.getLsbD (s.walk.depth - 1).toNat = false ∧
      ((∃ f, walkAscend s = .stuck f) ∨
        ∃ n, s.nodeAt (passed s.walk (s.walk.depth - 1).toNat) = some n ∧
          walkAscend s = .go { s with phase := .gDescend, walk := turnRight s.walk n })) := by
  unfold walkAscend
  dsimp only
  by_cases hd : s.walk.depth = 0
  · exact .inl ⟨hd, if_pos hd⟩
  · rw [if_neg hd]
    cases hb : s.walk.path.getLsbD (s.walk.depth - 1).toNat
    · refine .inr (.inr ⟨hd, rfl, ?_⟩)
      simp only [Bool.false_eq_true, if_false, passed]
      cases s.nodeAt (s.walk.stk[(s.walk.depth - 1).toNat]?.getD 0) with
      | none => exact .inl ⟨_, rfl⟩
      | some n => exact .inr ⟨n, rfl, rfl⟩
    · exact .inr (.inl ⟨hd, rfl, rfl⟩)

/-! ### The invariant of the walk -/

/-- The walker stands on the path `c`: below an internal node at every step of it. -/
structure OnPath (s : State) (c : List Bool) : Prop where
  path : walkPath s.walk = c
  le : c.length ≤ 255
  above : ∀ t < c.length, followPath s.node s.root (c.take t) = some (passed s.walk t) ∧
    ∃ n, s.nodeAt (passed s.walk t) = some n ∧ n.tag = .internal

/-- An entry of the Code Table is empty or the code of its symbol, left-aligned (R44). -/
def EntrySound (s : State) (x : Byte) (e : CodeEntry) : Prop :=
  e = CodeEntry.none ∨
    (0 < e.len.toNat ∧ isCodeOf s e.bitList x ∧ ∀ k, e.len.toNat ≤ k → k < 256 → e.bit k = false)

/-- The symbols of the leaves at the paths in `P` have an entry. -/
def Covered (s : State) (P : List Bool → Prop) : Prop :=
  ∀ q i x, P q → followPath s.node s.root q = some i → leafOf s.node i x → 0 < (s.codeAt x).len.toNat

/-- The walk goes through the leaves in the order of their paths. -/
structure Walking (s : State) (c : List Bool) : Prop where
  onPath : OnPath s c
  sound : ∀ x, EntrySound s x (s.codeAt x)
  covered : (s.phase = .gDescend ∧ followPath s.node s.root c = some s.walk.cur ∧ Covered s (Before · c)) ∨
    (s.phase = .gAscend ∧ Covered s fun q => Before q c ∨ c <+: q) ∨
    (s.phase = .idle ∧ Covered s fun _ => True)

section Walking

variable {s : State} {c : List Bool}

theorem Walking.at_descend (h : Walking s c) (hp : s.phase = .gDescend) :
    followPath s.node s.root c = some s.walk.cur ∧ Covered s (Before · c) := by
  simpa [hp] using h.covered

theorem Walking.at_ascend (h : Walking s c) (hp : s.phase = .gAscend) : Covered s fun q => Before q c ∨ c <+: q := by
  simpa [hp] using h.covered

theorem Walking.at_idle (h : Walking s c) (hp : s.phase = .idle) : Covered s fun _ => True := by
  simpa [hp] using h.covered

end Walking

/-- The entry that the walker makes where it stands. -/
def walkEntry (w : WalkRegs) : CodeEntry := { len := w.depth.truncate 8, bits := leftAligned w.path w.depth.toNat }

theorem walkEntry_len {w : WalkRegs} (h : w.depth.toNat ≤ 255) : (walkEntry w).len.toNat = w.depth.toNat := by
  simp only [walkEntry]
  bv_omega

theorem walkEntry_bit {w : WalkRegs} (h : w.depth.toNat ≤ 255) {k : Nat} (hk : k < 256) :
    (walkEntry w).bit k = (decide (k < w.depth.toNat) && w.path.getLsbD k) :=
  getLsbD_leftAligned w.path (by omega) hk

theorem walkEntry_bitList {w : WalkRegs} (h : w.depth.toNat ≤ 255) : (walkEntry w).bitList = walkPath w := by
  rw [CodeEntry.bitList, walkEntry_len h, walkPath]
  refine List.map_congr_left fun k hk => ?_
  have hk := List.mem_range.1 hk
  rw [walkEntry_bit h (by omega), decide_eq_true hk, Bool.true_and]

theorem codeAt_recordCode (s : State) (x y : Byte) :
    (recordCode s x).codeAt y = if y = x then walkEntry s.walk else s.codeAt y := by
  simp only [State.codeAt, recordCode, Vector.getElem_set]
  by_cases h : y = x
  · simp [h, walkEntry]
  · rw [if_neg fun he => h (BitVec.eq_of_toNat_eq he.symm), if_neg h]

theorem OnPath.depth_eq {s : State} {c : List Bool} (h : OnPath s c) : s.walk.depth.toNat = c.length := by
  rw [← h.path, length_walkPath]

/-- A node on the way to where the walker stands is no leaf. -/
theorem OnPath.not_leaf {s : State} {c : List Bool} {b : Bool} (h : OnPath s (c ++ [b])) {i : Idx} {x : Byte}
    (hc : followPath s.node s.root c = some i) : ¬ leafOf s.node i x := by
  obtain ⟨hpath, n, hn, hint⟩ := h.above c.length (by simp)
  rw [List.take_left] at hpath
  cases hpath.symm.trans hc
  simp [leafOf_iff hn, hint]

/-- The path above where the walker stands. -/
theorem OnPath.climb {s : State} {c : List Bool} {b : Bool} (h : OnPath s (c ++ [b])) (hd : s.walk.depth ≠ 0) :
    OnPath { s with walk := Machine.climb s.walk } c := by
  have hpath := (walkPath_eq_climb hd).symm.trans h.path
  obtain ⟨hclimb, -⟩ := List.append_inj' hpath rfl
  have hle := h.le
  rw [List.length_append] at hle
  refine ⟨hclimb, by omega, fun t ht => ?_⟩
  have habove := h.above t (by rw [List.length_append]; omega)
  rwa [List.take_append_of_le_length ht.le] at habove

/-- Below an internal node to which `c` leads, to the left. -/
theorem OnPath.descendLeft {s : State} {c : List Bool} {n : Node} (h : OnPath s c)
    (hcur : followPath s.node s.root c = some s.walk.cur) (hn : s.nodeAt s.walk.cur = some n) (ht : n.tag = .internal)
    (hd : s.walk.depth.toNat < 255) :
    OnPath { s with walk := Machine.descendLeft s.walk n hd } (c ++ [false]) := by
  have hlen := h.depth_eq.symm
  refine ⟨by rw [walkPath_descendLeft, h.path], by simp; omega, fun t hlt => ?_⟩
  rw [List.length_append, List.length_singleton] at hlt
  rcases Nat.lt_or_ge t c.length with htc | htc
  · have hstk : passed (Machine.descendLeft s.walk n hd) t = passed s.walk t := by
      simp only [passed, Machine.descendLeft]
      rw [Vector.getElem?_set_ne _ (by omega)]
    simp only [hstk, List.take_append_of_le_length htc.le]
    exact h.above t htc
  · obtain rfl : t = c.length := by omega
    have hstk : passed (Machine.descendLeft s.walk n hd) c.length = s.walk.cur := by
      simp only [passed, Machine.descendLeft, hlen]
      rw [Vector.getElem?_set_self, Option.getD_some]
    simp only [hstk, List.take_left]
    exact ⟨hcur, n, hn, ht⟩

/-- From the left child of a node to the right one. -/
theorem OnPath.turnRight {s : State} {c : List Bool} (n : Node) (h : OnPath s (c ++ [false]))
    (hd : s.walk.depth ≠ 0) : OnPath { s with phase := .gDescend, walk := Machine.turnRight s.walk n } (c ++ [true]) := by
  have hle := h.le
  have hlen := h.depth_eq
  refine ⟨?_, by simpa using hle, fun t ht => ?_⟩
  · have hclimb := (h.climb hd).path
    rw [walkPath_turnRight n hd (by omega)]
    exact congrArg (· ++ [true]) hclimb
  · rw [List.length_append, List.length_singleton] at ht
    have habove := h.above t (by simpa using ht)
    rw [List.take_append_of_le_length (by omega)] at habove ⊢
    exact habove

/-- The entry made at a leaf is the code of its symbol. -/
theorem OnPath.walkEntry_sound {s : State} {c : List Bool} {n : Node} (h : OnPath s c)
    (hcur : followPath s.node s.root c = some s.walk.cur) (hn : s.nodeAt s.walk.cur = some n) (ht : n.tag = .leaf)
    (hd : s.walk.depth ≠ 0) :
    0 < (walkEntry s.walk).len.toNat ∧ EntrySound s n.sym (walkEntry s.walk) := by
  have hle : s.walk.depth.toNat ≤ 255 := h.depth_eq ▸ h.le
  have hlen := walkEntry_len hle
  have hpos : 0 < (walkEntry s.walk).len.toNat := by bv_omega
  refine ⟨hpos, .inr ⟨hpos, ?_, fun k hk hk256 => ?_⟩⟩
  · rw [walkEntry_bitList hle, h.path]
    exact ⟨_, hcur, (leafOf_iff hn n.sym).2 ⟨ht, rfl⟩⟩
  · rw [walkEntry_bit hle hk256, decide_eq_false (by omega), Bool.false_and]

/-- A leaf at or below a node that is not internal is that node. -/
theorem leaf_of_followPath_below {s : State} {c q : List Bool} {n : Node} {i : Idx} {x : Byte}
    (hcur : followPath s.node s.root c = some s.walk.cur) (hn : s.nodeAt s.walk.cur = some n) (ht : n.tag ≠ .internal)
    (hqi : followPath s.node s.root q = some i) (hx : leafOf s.node i x) (hpre : c <+: q) :
    n.tag = .leaf ∧ n.sym = x := by
  obtain rfl := eq_of_prefix_of_not_internal hcur hn ht hqi hpre
  exact (leafOf_iff hn x).1 hx

/-- An iteration in `G_DESCEND` (R183). -/
theorem Walking.descend {s : State} {c : List Bool} (h : Walking s c) (hp : s.phase = .gDescend) :
    (walkDescend s).Ends (fun t => ∃ c', Walking t c') fun _ => False := by
  obtain ⟨hcur, hcov⟩ := h.at_descend hp
  obtain ⟨hon, hsound, -⟩ := h
  rcases walkDescend_cases s with ⟨f, hf⟩ | ⟨n, hn, ⟨ht, hd, hgo⟩ | ⟨ht, hd, hgo⟩ | ⟨ht, hgo⟩⟩
  · rw [hf]; trivial
  · rw [hgo]
    refine ⟨c ++ [false], hon.descendLeft hcur hn ht hd, hsound,
      .inl ⟨hp, followPath_snoc hcur hn ht false, fun q i x hq => ?_⟩⟩
    exact hcov q i x ((before_snoc hq).resolve_right (by simp))
  · rw [hgo]
    obtain ⟨hpos, hentry⟩ := hon.walkEntry_sound hcur hn ht hd
    refine ⟨c, ⟨hon.path, hon.le, hon.above⟩, fun x => ?_, .inr (.inl ⟨rfl, fun q i x hq hqi hx => ?_⟩)⟩
    · change EntrySound s x ((recordCode s n.sym).codeAt x)
      rw [codeAt_recordCode]
      split
      · exact ‹x = n.sym› ▸ hentry
      · exact hsound x
    · change 0 < ((recordCode s n.sym).codeAt x).len.toNat
      rw [codeAt_recordCode]
      split
      · exact hpos
      · refine hcov q i x (hq.resolve_right fun hpre => ?_) hqi hx
        exact ‹x ≠ n.sym› (leaf_of_followPath_below hcur hn (by simp [ht]) hqi hx hpre).2.symm
  · rw [hgo]
    refine ⟨c, ⟨hon.path, hon.le, hon.above⟩, hsound, .inr (.inl ⟨rfl, fun q i x hq hqi hx => ?_⟩)⟩
    refine hcov q i x (hq.resolve_right fun hpre => ?_) hqi hx
    exact absurd (ht.symm.trans (leaf_of_followPath_below hcur hn (by simp [ht]) hqi hx hpre).1) (by simp)

/-- An iteration in `G_ASCEND` (R183). -/
theorem Walking.ascend {s : State} {c : List Bool} (h : Walking s c) (hp : s.phase = .gAscend) :
    (walkAscend s).Ends (fun t => ∃ c', Walking t c') fun _ => False := by
  have hcov := h.at_ascend hp
  obtain ⟨hon, hsound, -⟩ := h
  have hsplit : s.walk.depth ≠ 0 → ∃ c', c = c' ++ [s.walk.path.getLsbD (s.walk.depth - 1).toNat] := fun hd =>
    ⟨_, hon.path.symm.trans (walkPath_eq_climb hd)⟩
  rcases walkAscend_cases s with ⟨hd, hgo⟩ | ⟨hd, hb, hgo⟩ | ⟨hd, hb, ⟨f, hf⟩ | ⟨n, hn, hgo⟩⟩
  · rw [hgo]
    have hnil : c = [] := List.length_eq_zero_iff.1 (by rw [← hon.path, length_walkPath, hd]; rfl)
    exact ⟨c, ⟨hon.path, hon.le, hon.above⟩, hsound,
      .inr (.inr ⟨rfl, fun q i x _ => hcov q i x (.inr (hnil ▸ List.nil_prefix))⟩)⟩
  · rw [hgo]
    obtain ⟨c, rfl⟩ := hsplit hd
    rw [hb] at hon hcov
    refine ⟨c, hon.climb hd, hsound, .inr (.inl ⟨hp, fun q i x hq hqi hx => hcov q i x ?_ hqi hx⟩)⟩
    rcases hq with hq | hpre
    · exact .inl (hq.snoc true)
    · rcases prefix_cases hpre with rfl | hl | hr
      · exact absurd hx (hon.not_leaf hqi)
      · exact .inl (before_of_left hl)
      · exact .inr hr
  · rw [hf]; trivial
  · rw [hgo]
    obtain ⟨c, rfl⟩ := hsplit hd
    rw [hb] at hon hcov
    have hlen := hon.depth_eq
    rw [List.length_append, List.length_singleton] at hlen
    obtain ⟨hpath, n', hn', hint⟩ := hon.above c.length (by simp)
    have hat : passed s.walk c.length = passed s.walk (s.walk.depth - 1).toNat := congrArg _ (by bv_omega)
    rw [List.take_left, hat] at hpath
    rw [hat, hn] at hn'
    cases hn'
    refine ⟨c ++ [true], hon.turnRight n hd, hsound, .inl ⟨rfl, followPath_snoc hpath hn hint true, ?_⟩⟩
    intro q i x hq
    refine hcov q i x ?_
    rcases before_snoc hq with hq | ⟨-, hl⟩
    · exact .inl (hq.snoc false)
    · exact .inr hl

theorem walkLoop_walking (n : Nat) {s : State} {c : List Bool} (h : Walking s c) :
    (walkLoop n s).Ends (fun t => t.phase = .idle ∧ ∃ c', Walking t c') fun _ => False := by
  induction n generalizing s c with
  | zero =>
    rw [walkLoop]
    split
    · exact ⟨‹_›, c, h⟩
    · trivial
  | succ n ih =>
    rw [walkLoop]
    rcases h.covered with ⟨hp, -⟩ | ⟨hp, -⟩ | ⟨hp, -⟩ <;> rw [hp]
    · exact (h.descend hp).andThen fun t ⟨_, ht⟩ => ih ht
    · exact (h.ascend hp).andThen fun t ⟨_, ht⟩ => ih ht
    · exact ⟨hp, c, h⟩

/-- Where GEN's walk starts (R183), the Code Table being empty. -/
theorem walking_startWalk {s : State} (h : ∀ x, s.codeAt x = CodeEntry.none) : Walking (startWalk s) [] :=
  ⟨⟨rfl, by simp, by simp⟩, fun x => .inl (h x), .inl ⟨rfl, rfl, fun q _ _ hq => absurd hq (not_before_nil q)⟩⟩

theorem codeAt_clearCodes (s : State) (x : Byte) : (clearCodes s).codeAt x = CodeEntry.none := by
  simp [State.codeAt, clearCodes]

/-! ### Every leaf has a path -/

/-- A node other than the root is a child of a node with a larger index. -/
theorem TreeShape.exists_parent {s : State} (h : TreeShape s) {i : Nat} (hi : i + 1 < s.nnode.toNat) :
    ∃ (p : Idx) (n : Node) (b : Bool), i < p.toNat ∧ p.toNat < s.nnode.toNat ∧ s.node[p.toNat]? = some n ∧
      n.tag = .internal ∧ (if b then n.right else n.left).toNat = i := by
  have hmem : i ∈ childList s.node := List.count_pos_iff.1 (by rw [h.once i hi]; omega)
  obtain ⟨n, hn, hchild⟩ := List.mem_flatMap.1 hmem
  obtain ⟨p, hp, rfl⟩ := List.mem_iff_getElem.1 hn
  have hp : p < 511 := by simpa using hp
  rw [Vector.getElem_toList] at hchild
  by_cases ht : s.node[p].tag = .internal
  · rw [if_pos ht] at hchild
    have hnn : p < s.nnode.toNat := by
      by_contra hge
      simp [h.rest_empty p hp (by omega)] at ht
    have hnl : s.nleaf.toNat ≤ p := by
      by_contra hlt
      rcases (h.leaf p hp (by omega)).1 with hl | ⟨hl, -⟩ <;> simp [ht] at hl
    obtain ⟨-, -, hleft, hright, -⟩ := h.internal p hp hnl hnn
    have hidx : (BitVec.ofNat 9 p).toNat = p := by simp; omega
    have hat : s.node[(BitVec.ofNat 9 p).toNat]? = some s.node[p] := by
      rw [hidx, Vector.getElem?_eq_getElem hp]
    simp only [List.mem_cons, List.not_mem_nil, or_false] at hchild
    rcases hchild with rfl | rfl
    · exact ⟨BitVec.ofNat 9 p, _, false, by omega, by omega, hat, ht, rfl⟩
    · exact ⟨BitVec.ofNat 9 p, _, true, by omega, by omega, hat, ht, rfl⟩
  · rw [if_neg ht] at hchild
    cases hchild

/-- Every node has a path from the root: its parent has one. -/
theorem TreeShape.reachable {s : State} (h : TreeShape s) (i : Idx) (hi : i.toNat < s.nnode.toNat) :
    ∃ c, followPath s.node s.root c = some i := by
  by_cases hroot : i.toNat + 1 < s.nnode.toNat
  · obtain ⟨p, n, b, hip, hp, hn, ht, hchild⟩ := h.exists_parent hroot
    obtain ⟨c, hc⟩ := h.reachable p hp
    exact ⟨c ++ [b], by rw [followPath_snoc hc hn ht, BitVec.eq_of_toNat_eq hchild]⟩
  · have hlast := h.root_last
    exact ⟨[], congrArg some (BitVec.eq_of_toNat_eq (by omega))⟩
termination_by s.nnode.toNat - i.toNat

theorem TreeShape.leaf_reachable {s : State} (h : TreeShape s) {i : Idx} {x : Byte} (hx : leafOf s.node i x) :
    ∃ c, followPath s.node s.root c = some i := by
  refine h.reachable i ?_
  obtain ⟨n, hn, ht, -⟩ := hx
  obtain ⟨hi, rfl⟩ := Vector.getElem?_eq_some_iff.1 hn
  by_contra hge
  simp [h.rest_empty _ hi (by omega)] at ht

/-! ### The Code Table after GEN -/

/-- When the walk is done the Code Table is that of the tree. -/
theorem Walking.invC {s : State} {c : List Bool} (h : Walking s c) (hp : s.phase = .idle) (htree : TreeShape s) :
    InvC s := by
  have hcov := h.at_idle hp
  refine .inr ⟨htree.valid, fun x => ?_⟩
  rcases h.sound x with hnone | ⟨hpos, hcode, hzero⟩
  · have hlen : (s.codeAt x).len.toNat = 0 := by rw [hnone]; rfl
    refine ⟨⟨fun hpos => by omega, fun ⟨i, hi⟩ => ?_⟩, fun hpos => by omega, fun k _ hk => by simp [hnone, CodeEntry.bit]⟩
    obtain ⟨q, hq⟩ := htree.leaf_reachable hi
    exact hcov q i x trivial hq hi
  · obtain ⟨i, -, hi⟩ := id hcode
    exact ⟨⟨fun _ => ⟨i, hi⟩, fun _ => hpos⟩, fun _ => hcode, hzero⟩

end Sys2Proof.Machine

/-! SUPPORT and the settling of O36. What the parts of a command write, unit by unit: a relation between the state before
a part and the state after it, which is reflexive and transitive and so holds of a whole command. -/

namespace Sys2Proof.Machine

/-! ### Parts that keep a relation -/

theorem Ctl.Ends.imp {P P' Q Q' : State → Prop} {c : Ctl} (h : c.Ends P Q) (hp : ∀ s, P s → P' s)
    (hq : ∀ s, Q s → Q' s) : c.Ends P' Q' := by
  cases c with
  | go s => exact hp s h
  | ended s => exact hq s h
  | stuck e => trivial

/-- From `s` the part goes on to and ends in related states only. -/
def Ctl.Keeps (R : State → State → Prop) (s : State) (c : Ctl) : Prop := c.Ends (R s) (R s)

/-- A relation that can be followed through the parts of a command. -/
structure Chains (R : State → State → Prop) : Prop where
  refl : ∀ s, R s s
  trans : ∀ {s t u}, R s t → R t u → R s u

section Keeps

variable {R : State → State → Prop}

/-- What holds from `t` on holds from an earlier state on. -/
theorem Ctl.Keeps.after (hR : Chains R) {s t : State} {c : Ctl} (h : R s t) (hc : c.Keeps R t) : c.Keeps R s :=
  Ctl.Ends.imp hc (fun _ => hR.trans h) fun _ => hR.trans h

theorem Ctl.Keeps.andThen (hR : Chains R) {s : State} {c : Ctl} {f : State → Ctl}
    (hc : c.Keeps R s) (hf : ∀ t, (f t).Keeps R t) : (c.andThen f).Keeps R s :=
  Ctl.Ends.andThen hc fun t ht => (hf t).after hR ht

theorem Ctl.Keeps.loop (hR : Chains R) {body : State → Ctl}
    (hb : ∀ s, (body s).Keeps R s) (n : Nat) (s : State) : (Ctl.loop body n s).Keeps R s := by
  induction n generalizing s with
  | zero => exact hR.refl s
  | succ n ih => exact (hb s).andThen hR ih

/-- The end of a command whose parts keep the relation. -/
theorem Ctl.Keeps.finish {s t : State} {c : Ctl} (h : c.Keeps R s) (ht : c.finish = .next t) :
    ∃ u, R s u ∧ t = toIdle u := by
  obtain ⟨u, rfl | rfl, rfl⟩ := Ctl.finish_eq_next.1 ht
  · exact ⟨u, h, rfl⟩
  · exact ⟨u, h, rfl⟩

end Keeps

/-- The part does not stop. -/
def Ctl.Completes (c : Ctl) : Prop := ∀ f, c ≠ .stuck f

theorem Ctl.completes_go (s : State) : (Ctl.go s).Completes := fun _ h => by cases h

theorem Ctl.completes_ended (s : State) : (Ctl.ended s).Completes := fun _ h => by cases h

theorem Ctl.Completes.andThen {c : Ctl} {f : State → Ctl} (hc : c.Completes) (hf : ∀ s, (f s).Completes) :
    (c.andThen f).Completes := by
  cases c with
  | go s => exact hf s
  | ended s => exact Ctl.completes_ended s
  | stuck e => exact absurd rfl (hc e)

theorem Ctl.Completes.loop {body : State → Ctl} (hb : ∀ s, (body s).Completes) (n : Nat) (s : State) :
    (Ctl.loop body n s).Completes := by
  induction n generalizing s with
  | zero => exact Ctl.completes_go s
  | succ n ih => exact (hb s).andThen ih

theorem Ctl.Completes.finish {c : Ctl} (h : c.Completes) : ∃ t, c.finish = .next t := by
  cases c with
  | go s => exact ⟨_, rfl⟩
  | ended s => exact ⟨_, rfl⟩
  | stuck e => exact absurd rfl (h e)

/-! ### The form of the machine's state -/

/-- The (`ERR`, `SUB`) pair is one that is produced, `ERR_STICKY` has no unused bit, and the memory is in canonical
form. -/
structure Form (s : State) : Prop where
  status : StatusLegal s
  sticky : StickyLegal s
  memory : s.mem.wf

theorem Form.clearError {s : State} (h : Form s) : Form (clearError s) := ⟨.inl ⟨rfl, rfl, rfl⟩, h.sticky, h.memory⟩

theorem Err.stickyBit_legal (e : Err) : e.stickyBit &&& ~~~stickyMask = 0 := by
  cases e <;> simp [stickyBit, code, stickyMask]

theorem or_stickyLegal {x y : Word} (hx : x &&& ~~~stickyMask = 0) (hy : y &&& ~~~stickyMask = 0) :
    (x ||| y) &&& ~~~stickyMask = 0 := by
  refine BitVec.eq_of_getElem_eq fun k hk => ?_
  have hxk := congrArg (·[k]) hx
  have hyk := congrArg (·[k]) hy
  simp only [BitVec.getElem_and, BitVec.getElem_or, Bool.and_or_distrib_right] at hxk hyk ⊢
  rw [hxk, hyk, Bool.or_self]

/-- R113, R114: what an error records is produced. -/
theorem Err.status_legal {s : State} {e : Err} (herr : s.status.err = e.code) (hsub : s.status.sub = e.sub) :
    StatusLegal s := by
  unfold StatusLegal
  rw [herr, hsub]
  cases e with
  | illegalCommand cause w => cases cause <;> simp [Err.code, Err.sub]
  | _ => simp [Err.code, Err.sub]

theorem raise_statusLegal {s : State} (e : Err) (h : StatusLegal s) : StatusLegal (raise s e) := by
  by_cases herr : s.status.err = 0
  · obtain ⟨hst, -⟩ := raise_status e herr
    exact Err.status_legal (e := e) (by rw [hst]) (by rw [hst])
  · obtain ⟨hst, hinfo⟩ := raise_status_kept e herr
    simpa only [StatusLegal, hst, hinfo] using h

theorem Form.raise {s : State} (e : Err) (h : Form s) : Form (raise s e) := by
  refine ⟨raise_statusLegal e h.status, ?_, by rw [raise_mem]; exact h.memory⟩
  rw [StickyLegal, raise_errSticky]
  exact or_stickyLegal h.sticky e.stickyBit_legal

/-! ### GEN -/

/-- `s` with the fields that GEN's walk writes as in `t`. -/
def codeFields (s t : State) : State := { s with code := t.code, phase := t.phase, walk := t.walk }

/-- From `s` to `t` nothing but `CODE` and the walker's registers is written. -/
def CodesOnly (s t : State) : Prop := t = codeFields s t

theorem codesOnly_chains : Chains CodesOnly where
  refl _ := rfl
  trans {_ _ u} h h' := Eq.trans h' (congrArg (codeFields · u) h :)

theorem walkDescend_codesOnly (s : State) : (walkDescend s).Keeps CodesOnly s := by
  rcases walkDescend_cases s with ⟨f, hf⟩ | ⟨n, -, ⟨-, _, hgo⟩ | ⟨-, -, hgo⟩ | ⟨-, hgo⟩⟩
  · rw [hf]; trivial
  · rw [hgo]; rfl
  · rw [hgo]; rfl
  · rw [hgo]; rfl

theorem walkAscend_codesOnly (s : State) : (walkAscend s).Keeps CodesOnly s := by
  rcases walkAscend_cases s with ⟨-, hgo⟩ | ⟨-, -, hgo⟩ | ⟨-, -, ⟨f, hf⟩ | ⟨n, -, hgo⟩⟩
  · rw [hgo]; rfl
  · rw [hgo]; rfl
  · rw [hf]; trivial
  · rw [hgo]; rfl

theorem walkLoop_codesOnly (n : Nat) (s : State) : (walkLoop n s).Keeps CodesOnly s := by
  induction n generalizing s with
  | zero =>
    rw [walkLoop]
    split
    · exact codesOnly_chains.refl s
    · trivial
  | succ n ih =>
    rw [walkLoop]
    split
    · exact (walkDescend_codesOnly s).andThen codesOnly_chains ih
    · exact (walkAscend_codesOnly s).andThen codesOnly_chains ih
    · exact codesOnly_chains.refl s

/-- What GEN writes (R183). -/
theorem execGen_codesOnly {s t : State} (h : execGen s = .next t) :
    ∃ u, CodesOnly (clearCodes (clearError s)) u ∧ t = toIdle u := by
  rw [execGen_eq] at h
  split at h
  · obtain ⟨u, hu, rfl⟩ := (walkLoop_codesOnly _ _).finish h
    exact ⟨u, codesOnly_chains.trans (t := startWalk (clearCodes (beginCommand s))) rfl hu, rfl⟩
  · cases h
    exact ⟨_, codesOnly_chains.refl _, rfl⟩

/-! ### COUNT -/

/-- `s` with the fields that COUNT writes as in `t`. -/
def countFields (s t : State) : State :=
  { s with
    status := { t.status with treeValid := s.status.treeValid }, errInfo := t.errInfo, errSticky := t.errSticky
    freq := t.freq, resSyms := t.resSyms }

/-- What a part of COUNT can do. -/
structure CountStep (s t : State) : Prop where
  frame : t = countFields s t
  form : Form s → Form t

theorem countStep_chains : Chains CountStep where
  refl _ := ⟨rfl, id⟩
  trans {_ _ u} h h' := ⟨h'.frame.trans (congrArg (countFields · u) h.frame :), h'.form ∘ h.form⟩

theorem raise_countStep (s : State) (e : Err) : CountStep s (raise s e) := by
  refine ⟨?_, Form.raise e⟩
  unfold raise
  dsimp only
  split <;> rfl

theorem countByte_countStep (s : State) : (countByte s).Keeps CountStep s := by
  rcases countByte_cases s with ⟨-, hc⟩ | ⟨-, hc⟩ <;> rw [hc]
  · exact raise_countStep s _
  · exact ⟨rfl, fun h => ⟨h.status, h.sticky, h.memory⟩⟩

/-- What COUNT writes (R141). -/
theorem execCount_countStep {s t : State} (h : execCount s = .next t) :
    ∃ u, CountStep (clearCounts (clearError s)) u ∧ t = toIdle u :=
  (Ctl.Keeps.loop countStep_chains countByte_countStep _ _).finish h

/-! ### ENCODE and DECODE -/

/-- `s` with the fields that ENCODE and DECODE write as in `t`. -/
def outputFields (s t : State) : State :=
  { s with
    status := { t.status with treeValid := s.status.treeValid }, errInfo := t.errInfo, errSticky := t.errSticky
    resBits := t.resBits, resSyms := t.resSyms, resBytes := t.resBytes, mem := t.mem
    pack := t.pack, unpack := t.unpack }

/-- From `s` to `t` bytes are put at the end of the output only: `RES_BYTES` counts them and stays within `DST_CAP`. -/
def PutsBytes (s t : State) : Prop :=
  s.resBytes.toNat ≤ s.dstCap.toNat →
    s.resBytes.toNat ≤ t.resBytes.toNat ∧ t.resBytes.toNat ≤ s.dstCap.toNat ∧
      ∀ a, (a < s.dstAddr.toNat + s.resBytes.toNat ∨ s.dstAddr.toNat + t.resBytes.toNat ≤ a) →
        t.mem.byte a = s.mem.byte a

/-- What a part of ENCODE or DECODE can do. -/
structure OutputStep (s t : State) : Prop where
  frame : t = outputFields s t
  form : Form s → Form t
  puts : PutsBytes s t

theorem outputFields_dstAddr {s t : State} (h : t = outputFields s t) : t.dstAddr = s.dstAddr := by rw [h]; rfl

theorem outputFields_dstCap {s t : State} (h : t = outputFields s t) : t.dstCap = s.dstCap := by rw [h]; rfl

theorem outputStep_chains : Chains OutputStep where
  refl s := ⟨rfl, id, fun h => ⟨Nat.le_refl _, h, fun _ _ => rfl⟩⟩
  trans {_ _ u} h h' := by
    refine ⟨h'.frame.trans (congrArg (outputFields · u) h.frame :), h'.form ∘ h.form, fun hcap => ?_⟩
    obtain ⟨hle, hcap', hmem⟩ := h.puts hcap
    have hputs := h'.puts
    rw [PutsBytes, outputFields_dstAddr h.frame, outputFields_dstCap h.frame] at hputs
    obtain ⟨hle', hcap'', hmem'⟩ := hputs hcap'
    exact ⟨hle.trans hle', hcap'', fun a ha => (hmem' a (by omega)).trans (hmem a (by omega))⟩

/-- A part that writes none but registers. -/
theorem OutputStep.registers (s : State) (bits : BitVec 64) (syms : Word) (pack : PackRegs) (unpack : UnpackRegs) :
    OutputStep s { s with resBits := bits, resSyms := syms, pack := pack, unpack := unpack } :=
  ⟨rfl, fun h => ⟨h.status, h.sticky, h.memory⟩, fun h => ⟨Nat.le_refl _, h, fun _ _ => rfl⟩⟩

theorem raise_outputStep (s : State) (e : Err) : OutputStep s (raise s e) := by
  refine ⟨?_, Form.raise e, fun h => by simpa using h⟩
  unfold raise
  dsimp only
  split <;> rfl

theorem putByte_outputStep (s : State) (v : Byte) : (putByte s v).Keeps OutputStep s := by
  rcases putByte_cases s v with ⟨-, hp⟩ | ⟨-, -, hp⟩ | ⟨hne, hv, hp⟩ <;> rw [hp]
  · exact raise_outputStep s _
  · exact raise_outputStep s _
  · refine ⟨rfl, fun h => ⟨h.status, h.sticky, Memory.wf_write v h.memory (memValid_lt hv)⟩, fun hcap => ?_⟩
    have hnext : (s.resBytes + 1).toNat = s.resBytes.toNat + 1 := by bv_omega
    have hlt : s.resBytes.toNat ≠ s.dstCap.toNat := fun h => hne (BitVec.eq_of_toNat_eq h)
    simp only [hnext, State.dstByteAddr]
    exact ⟨by omega, by omega, fun a ha => Memory.byte_write_other s.mem v (by omega)⟩

theorem putAcc_outputStep (s : State) : (putAcc s).Keeps OutputStep s :=
  (putByte_outputStep s _).andThen outputStep_chains fun t => .registers t _ _ _ _

theorem flushAcc_outputStep (s : State) : (flushAcc s).Keeps OutputStep s := by
  rcases flushAcc_cases s with ⟨-, hf⟩ | ⟨-, hf⟩ <;> rw [hf]
  · exact outputStep_chains.refl s
  · exact putAcc_outputStep s

theorem exitThroughFlush_outputStep {s : State} {c : Ctl} (h : c.Keeps OutputStep s) :
    (exitThroughFlush c).Keeps OutputStep s := by
  cases c with
  | go t => exact h
  | ended t =>
    refine Ctl.Keeps.andThen (c := flushAcc t) outputStep_chains ?_ fun u => outputStep_chains.refl u
    exact (flushAcc_outputStep t).after outputStep_chains h
  | stuck e => trivial

theorem fetchSymbol_outputStep (s : State) : (fetchSymbol s).Keeps OutputStep s := by
  rcases fetchSymbol_cases s with ⟨-, hc⟩ | ⟨-, hc⟩ <;> rw [hc]
  · exact raise_outputStep s _
  · exact .registers s _ _ _ _

theorem lookupSymbol_outputStep (s : State) : (lookupSymbol s).Keeps OutputStep s := by
  rcases lookupSymbol_cases s with ⟨-, hc⟩ | ⟨-, hc⟩ <;> rw [hc]
  · exact raise_outputStep s _
  · exact .registers s _ _ _ _

theorem shiftBit_outputStep (s : State) : (shiftBit s).Keeps OutputStep s := by
  have hpack : OutputStep s (packBit s) := .registers s _ _ _ _
  rw [shiftBit_eq]
  split
  · exact (putAcc_outputStep _).after outputStep_chains hpack
  · exact hpack

theorem encodeSymbol_outputStep (s : State) : (encodeSymbol s).Keeps OutputStep s :=
  (exitThroughFlush_outputStep
    ((fetchSymbol_outputStep s).andThen outputStep_chains lookupSymbol_outputStep)).andThen outputStep_chains fun t =>
      (Ctl.Keeps.loop outputStep_chains shiftBit_outputStep _ t).andThen outputStep_chains fun u => .registers u _ _ _ _

/-- What ENCODE writes (R201). -/
theorem execEncode_outputStep {s t : State} (h : execEncode s = .next t) :
    ∃ u, OutputStep (startEncode (clearError s)) u ∧ t = toIdle u :=
  ((Ctl.Keeps.loop outputStep_chains encodeSymbol_outputStep _ _).andThen outputStep_chains flushAcc_outputStep).finish h

theorem fetchByte_outputStep (s : State) : (fetchByte s).Keeps OutputStep s := by
  rcases fetchByte_cases s with ⟨-, hc⟩ | ⟨-, -, hc⟩ | ⟨-, -, hc⟩ <;> rw [hc]
  · exact outputStep_chains.refl s
  · exact raise_outputStep s _
  · exact .registers s _ _ _ _

/-- U4, `D_WALK` (R224, R228): the walk arrives at a node, which may be the placeholder. -/
theorem walkBit_cases (s : State) :
    (∃ f, walkBit s = .stuck f) ∨
    ∃ pos, walkBit s = .go (walkTo s pos) ∨ walkBit s = .ended (raise (walkTo s pos) (.placeholder pos)) := by
  cases hn : s.nodeAt s.unpack.pos with
  | none => exact .inl ⟨.brokenTree, by simp only [walkBit, hn]⟩
  | some n =>
    by_cases hi : n.tag = .internal
    · cases hc : s.nodeAt (childAt s n) with
      | none => exact .inl ⟨.brokenTree, by simp only [childAt] at hc; simp only [walkBit, hn, hi, if_true, hc]⟩
      | some c =>
        rw [walkBit_of_internal hn hi hc]
        cases c.tag with
        | internal => exact .inr ⟨_, .inl rfl⟩
        | leaf => exact .inr ⟨_, .inl rfl⟩
        | placeholder => exact .inr ⟨_, .inr rfl⟩
        | empty => exact .inl ⟨_, rfl⟩
    · exact .inl ⟨.brokenTree, by simp only [walkBit, hn, hi, if_false]⟩

theorem walkBit_outputStep (s : State) : (walkBit s).Keeps OutputStep s := by
  have hwalk : ∀ pos, OutputStep s (walkTo s pos) := fun _ => .registers s _ _ _ _
  rcases walkBit_cases s with ⟨f, hf⟩ | ⟨pos, hc | hc⟩
  · rw [hf]; trivial
  · rw [hc]; exact hwalk pos
  · rw [hc]; exact outputStep_chains.trans (hwalk pos) (raise_outputStep _ _)

theorem emitSymbol_outputStep (s : State) : (emitSymbol s).Keeps OutputStep s := by
  unfold emitSymbol
  split
  · exact outputStep_chains.refl s
  · split
    · exact (putByte_outputStep s _).andThen outputStep_chains fun t => .registers t _ _ _ _
    · exact outputStep_chains.refl s

theorem decodeBit_outputStep (s : State) : (decodeBit s).Keeps OutputStep s :=
  (((fetchByte_outputStep s).andThen outputStep_chains walkBit_outputStep).andThen outputStep_chains
    emitSymbol_outputStep).andThen outputStep_chains fun t => .registers t _ _ _ _

theorem checkAtRoot_outputStep (s : State) : (checkAtRoot s).Keeps OutputStep s := by
  unfold checkAtRoot
  split
  · exact outputStep_chains.refl s
  · exact raise_outputStep s _

theorem decodeUntilSyms_outputStep (n : Nat) (s : State) : (decodeUntilSyms n s).Keeps OutputStep s := by
  induction n generalizing s with
  | zero =>
    rw [decodeUntilSyms]
    split
    · exact raise_outputStep s _
    · exact outputStep_chains.refl s
  | succ n ih =>
    rw [decodeUntilSyms]
    split
    · exact (decodeBit_outputStep s).andThen outputStep_chains ih
    · exact outputStep_chains.refl s

/-- What DECODE.B writes (R222). -/
theorem execDecodeB_outputStep {s t : State} (h : execDecodeB s = .next t) :
    ∃ u, OutputStep (startDecode (clearError s)) u ∧ t = toIdle u := by
  unfold execDecodeB at h
  dsimp only at h
  split at h
  · cases h
    exact ⟨_, outputStep_chains.refl _, rfl⟩
  · split at h
    · cases h
      exact ⟨_, raise_outputStep _ _, rfl⟩
    · exact ((Ctl.Keeps.loop outputStep_chains decodeBit_outputStep _ _).andThen outputStep_chains
        checkAtRoot_outputStep).finish h

/-- What DECODE.S writes (R223). -/
theorem execDecodeS_outputStep {s t : State} (h : execDecodeS s = .next t) :
    ∃ u, OutputStep (startDecode (clearError s)) u ∧ t = toIdle u := by
  unfold execDecodeS at h
  dsimp only at h
  split at h
  · cases h
    exact ⟨_, outputStep_chains.refl _, rfl⟩
  · exact (decodeUntilSyms_outputStep _ _).finish h

/-! ### ENCODE never stops -/

theorem putAcc_completes (s : State) : (putAcc s).Completes := by
  rcases putAcc_cases s with ⟨-, hc⟩ | ⟨-, -, hc⟩ | ⟨-, -, hc⟩ <;> rw [hc]
  · exact Ctl.completes_ended _
  · exact Ctl.completes_ended _
  · exact Ctl.completes_go _

theorem flushAcc_completes (s : State) : (flushAcc s).Completes := by
  rcases flushAcc_cases s with ⟨-, hf⟩ | ⟨-, hf⟩ <;> rw [hf]
  · exact Ctl.completes_go s
  · exact putAcc_completes s

theorem exitThroughFlush_completes {c : Ctl} (h : c.Completes) : (exitThroughFlush c).Completes := by
  cases c with
  | go t => exact h
  | ended t => exact (flushAcc_completes t).andThen Ctl.completes_ended
  | stuck e => exact h

theorem fetchSymbol_completes (s : State) : (fetchSymbol s).Completes := by
  rcases fetchSymbol_cases s with ⟨-, hc⟩ | ⟨-, hc⟩ <;> rw [hc]
  · exact Ctl.completes_ended _
  · exact Ctl.completes_go _

theorem lookupSymbol_completes (s : State) : (lookupSymbol s).Completes := by
  rcases lookupSymbol_cases s with ⟨-, hc⟩ | ⟨-, hc⟩ <;> rw [hc]
  · exact Ctl.completes_ended _
  · exact Ctl.completes_go _

theorem shiftBit_completes (s : State) : (shiftBit s).Completes := by
  rw [shiftBit_eq]
  split
  · exact putAcc_completes _
  · exact Ctl.completes_go _

theorem encodeSymbol_completes (s : State) : (encodeSymbol s).Completes :=
  (exitThroughFlush_completes ((fetchSymbol_completes s).andThen lookupSymbol_completes)).andThen fun t =>
    (Ctl.Completes.loop shiftBit_completes _ t).andThen fun _ => Ctl.completes_go _

theorem execEncode_completes (s : State) : ∃ t, execEncode s = .next t :=
  ((Ctl.Completes.loop encodeSymbol_completes _ _).andThen flushAcc_completes).finish

/-- Settles O36: no part of ENCODE stops, and each puts bytes at the end of the output only. -/
theorem encodeCompletesInsideItsBuffer : Obligations.EncodeCompletesInsideItsBuffer := by
  intro s
  obtain ⟨t, ht⟩ := execEncode_completes s
  obtain ⟨u, ⟨hframe, -, hputs⟩, rfl⟩ := execEncode_outputStep ht
  obtain ⟨-, hcap, hmem⟩ := hputs (Nat.zero_le _)
  exact ⟨_, ht, congrArg toIdle hframe, hcap, fun a ha => hmem a ha⟩

end Sys2Proof.Machine

/-! SUPPORT and the settling of O15 and O17. What a step from an idle state can do, said once, and what it leaves
unchanged. -/

namespace Sys2Proof.Machine

/-! ### Which command a word is -/

theorem word_cmdFields (w : Word) : (cmdFields w).word = w := by
  refine BitVec.eq_of_getLsbD_eq fun k hk => ?_
  simp only [CmdFields.word, cmdFields, BitVec.getLsbD_append, BitVec.getLsbD_extractLsb']
  by_cases h8 : k < 8
  · simp [h8]
  · by_cases h9 : k = 8
    · simp [h9]
    · simp [h8, show ¬ k - 8 < 1 by omega, show k - 8 - 1 < 23 by omega, show 9 + (k - 8 - 1) = k by omega]

/-- R101: the fields of a word that decodes to a command are that command's. -/
theorem cmdFields_of_decode {w : Word} {i : Instr} (h : decode w = .command i) : cmdFields w = i.fields := by
  unfold decode at h
  generalize cmdFields w = f at h ⊢
  obtain ⟨rsv, mode, opc⟩ := f
  dsimp only at h
  repeat' split at h
  all_goals cases h
  all_goals
    simp only [ne_eq, not_not] at *
    exact CmdFields.mk.injEq .. ▸ ⟨by bv_omega, by bv_omega, by bv_omega⟩

theorem eq_encode_of_decode {w : Word} {i : Instr} (h : decode w = .command i) : w = encode i := by
  rw [encode, ← cmdFields_of_decode h, word_cmdFields]

/-! ### What an offset names -/

/-- R108: where the registers stand that a host write changes. -/
def StandsAt (r : WindowReg) (off : Nat) : Prop :=
  match r with
  | .cmd => off = 0
  | .srcAddr | .srcLen | .dstAddr | .dstCap | .opBitsLo | .opBitsHi | .opSyms => 0x0010 ≤ off ∧ off ≤ 0x0028
  | .freq _ => 0x0400 ≤ off ∧ off < 0x0800
  | _ => True

theorem ofOffset_standsAt (off : Nat) : StandsAt (WindowReg.ofOffset off) off := by
  unfold WindowReg.ofOffset
  split
  case h_19 =>
    split
    · assumption
    · split
      · trivial
      · split <;> trivial
  all_goals simp [StandsAt]

/-! ### One step of the idle engine -/

/-- What a step can do while the engine is idle (R86, R250, R302): it waits, a command runs, an illegal word is
recorded, a register is written, bytes are stored, or the host receives an answer. -/
inductive IdleStep (s : State) : State → Prop
  | wait : IdleStep s s
  | command {i : Instr} {rest : List HostOp} {t : State} (h : s.host = .write 0x0000 (encode i) :: rest)
      (ht : exec i { s with host := rest } = .next t) : IdleStep s t
  | illegal (cause : IllegalCause) (w : Word) (rest : List HostOp) :
      IdleStep s (toIdle (raise (clearError { s with host := rest }) (.illegalCommand cause w)))
  | register {off : Nat} {v : Word} {rest : List HostOp} (h : s.host = .write off v :: rest) :
      IdleStep s (windowWrite { s with host := rest } (WindowReg.ofOffset off) v)
  | store {a : Nat} {bytes : List Byte} {rest : List HostOp} (h : s.host = .store a bytes :: rest)
      (ha : a + bytes.length ≤ Config.memSize) : IdleStep s { s with host := rest, mem := s.mem.writeAll a bytes }
  | reply (r : HostReply) (rest : List HostOp) : IdleStep s (answer { s with host := rest } r)

/-- R250, R255: a write to `CMD`. -/
theorem IdleStep.of_issueCommand {s t : State} {w : Word} {rest : List HostOp} (h : s.host = .write 0x0000 w :: rest)
    (ht : issueCommand { s with host := rest } w = .next t) : IdleStep s t := by
  unfold issueCommand at ht
  split at ht
  · exact .command (eq_encode_of_decode ‹_› ▸ h) ht
  · cases ht
    exact .illegal _ w rest

theorem IdleStep.of_hostWrite {s t : State} {off : Nat} {v : Word} {rest : List HostOp}
    (h : s.host = .write off v :: rest) (ht : hostWrite { s with host := rest } off v = .next t) : IdleStep s t := by
  unfold hostWrite at ht
  split at ht
  · have hoff := ofOffset_standsAt off
    rw [‹WindowReg.ofOffset off = .cmd›] at hoff
    obtain rfl : off = 0 := hoff
    exact .of_issueCommand h ht
  · cases ht
    exact .register h

theorem IdleStep.of_hostAccess {s t : State} {op : HostOp} {rest : List HostOp} (h : s.host = op :: rest)
    (ht : hostAccess { s with host := rest } op = .next t) : IdleStep s t := by
  unfold hostAccess at ht
  split at ht
  · rename_i hwf
    cases op with
    | read off => cases ht; exact .reply _ rest
    | write off v => exact .of_hostWrite h ht
    | store a bytes => cases ht; exact .store h (of_decide_eq_true hwf)
    | load a n => cases ht; exact .reply _ rest
  · cases ht
    exact .reply _ rest

theorem IdleStep.of_step {s t : State} (hp : s.phase = .idle) (ht : step s = .next t) : IdleStep s t := by
  unfold step at ht
  split at ht
  · split at ht
    · cases ht
      exact .wait
    · exact .of_hostAccess ‹_› ht
  · exact absurd hp ‹_›

/-! ### What BUILD writes -/

/-- `s` with the fields that BUILD writes as in `t`, but for `CODE`. -/
def treeFields (s t : State) : State :=
  { s with
    status := { s.status with treeValid := t.status.treeValid }, root := t.root, nleaf := t.nleaf, nnode := t.nnode
    node := t.node, merge := t.merge }

/-- From `s` to `t` nothing but the tree, its registers and those of U1 is written. -/
def TreeOnly (s t : State) : Prop := t = treeFields s t

theorem treeOnly_chains : Chains TreeOnly where
  refl _ := rfl
  trans {_ _ u} h h' := Eq.trans h' (congrArg (treeFields · u) h :)

theorem EntriesOnly.treeOnly {s t : State} (h : EntriesOnly s t) : TreeOnly s t := by
  unfold EntriesOnly at h
  rw [h]
  rfl

theorem mergeAndRoot_treeOnly (n : Nat) (s : State) : TreeOnly s (mergeAndRoot n s) := by
  refine treeOnly_chains.trans (mergeLoop_entriesOnly n s).treeOnly ?_
  unfold mergeAndRoot takeRoot
  generalize mergeLoop n s = v
  cases pqExtractMin v.node v.merge.pq with
  | none => exact treeOnly_chains.refl _
  | some _ => rfl

theorem buildFromLeaves_treeOnly (s : State) : TreeOnly s (buildFromLeaves s) := by
  rw [buildFromLeaves_eq]
  split
  · rfl
  · split
    · exact treeOnly_chains.trans (t := setLeafCount (addPlaceholder s)) rfl (mergeAndRoot_treeOnly _ _)
    · exact treeOnly_chains.trans (t := setLeafCount s) rfl (mergeAndRoot_treeOnly _ _)

theorem execBuild_eq (s : State) :
    execBuild s = .next (toIdle (buildFromLeaves (loadSymbols 256 (clearTree (beginCommand s))))) := rfl

/-- What BUILD writes (R153). -/
theorem execBuild_treeOnly {s t : State} (h : execBuild s = .next t) :
    ∃ u, TreeOnly (clearTree (clearError s)) u ∧ t = toIdle u := by
  rw [execBuild_eq] at h
  exact ⟨_, treeOnly_chains.trans (loadSymbols_entriesOnly _ _).treeOnly (buildFromLeaves_treeOnly _),
    (Host.Outcome.next.inj h).symm⟩

/-! ### What a command leaves unchanged -/

/-- The operand registers and the platform. -/
def operandsOf (s : State) : Word × Word × Word × Word × Word × Word × Word × Platform :=
  (s.srcAddr, s.srcLen, s.dstAddr, s.dstCap, s.opBitsLo, s.opBitsHi, s.opSyms, s.platform)

/-- The tree and its registers. -/
def treeOf (s : State) : Vector Node 511 × Idx × BitVec 9 × BitVec 10 × Bool :=
  (s.node, s.root, s.nleaf, s.nnode, s.status.treeValid)

/-- What the command `i` leaves unchanged (R53). -/
structure Unchanged (i : Instr) (s t : State) : Prop where
  operands : operandsOf t = operandsOf s
  freq : i ≠ .count → t.freq = s.freq
  tree : i ≠ .build → treeOf t = treeOf s
  code : i ≠ .build → i ≠ .gen → t.code = s.code
  mem : i ≠ .encode → i ≠ .decodeB → i ≠ .decodeS → t.mem = s.mem

/-- R53, command by command. -/
theorem exec_unchanged {i : Instr} {s t : State} (h : exec i s = .next t) : Unchanged i s t := by
  cases i with
  | nop =>
    cases h
    exact ⟨rfl, fun _ => rfl, fun _ => rfl, fun _ _ => rfl, fun _ _ _ => rfl⟩
  | count =>
    obtain ⟨u, hu, rfl⟩ := execCount_countStep h
    rw [hu.frame]
    exact ⟨rfl, fun hi => absurd rfl hi, fun _ => rfl, fun _ _ => rfl, fun _ _ _ => rfl⟩
  | build =>
    obtain ⟨u, hu, rfl⟩ := execBuild_treeOnly h
    unfold TreeOnly at hu
    rw [hu]
    exact ⟨rfl, fun _ => rfl, fun hi => absurd rfl hi, fun hi => absurd rfl hi, fun _ _ _ => rfl⟩
  | gen =>
    obtain ⟨u, hu, rfl⟩ := execGen_codesOnly h
    unfold CodesOnly at hu
    rw [hu]
    exact ⟨rfl, fun _ => rfl, fun _ => rfl, fun _ hi => absurd rfl hi, fun _ _ _ => rfl⟩
  | encode =>
    obtain ⟨u, hu, rfl⟩ := execEncode_outputStep h
    rw [hu.frame]
    exact ⟨rfl, fun _ => rfl, fun _ => rfl, fun _ _ => rfl, fun hi => absurd rfl hi⟩
  | decodeB =>
    obtain ⟨u, hu, rfl⟩ := execDecodeB_outputStep h
    rw [hu.frame]
    exact ⟨rfl, fun _ => rfl, fun _ => rfl, fun _ _ => rfl, fun _ hi => absurd rfl hi⟩
  | decodeS =>
    obtain ⟨u, hu, rfl⟩ := execDecodeS_outputStep h
    rw [hu.frame]
    exact ⟨rfl, fun _ => rfl, fun _ => rfl, fun _ _ => rfl, fun _ _ hi => absurd rfl hi⟩

/-- R253: a host write leaves the tree, `CODE`, `MEM` and the platform unchanged. -/
theorem windowWrite_unchanged (s : State) (r : WindowReg) (v : Word) :
    treeOf (windowWrite s r v) = treeOf s ∧ (windowWrite s r v).code = s.code ∧ (windowWrite s r v).mem = s.mem ∧
      (windowWrite s r v).platform = s.platform := by
  cases r <;> exact ⟨rfl, rfl, rfl, rfl⟩

theorem windowWrite_freq {s : State} {r : WindowReg} {v : Word} (h : (windowWrite s r v).freq ≠ s.freq) :
    ∃ x, r = .freq x := by
  cases r with
  | freq x => exact ⟨x, rfl⟩
  | _ => exact absurd rfl h

theorem windowWrite_operands {s : State} {r : WindowReg} {v : Word} {off : Nat} (hoff : StandsAt r off)
    (h : operandsOf (windowWrite s r v) ≠ operandsOf s) : 0x0010 ≤ off ∧ off ≤ 0x0028 := by
  cases r with
  | srcAddr | srcLen | dstAddr | dstCap | opBitsLo | opBitsHi | opSyms => exact hoff
  | _ => exact absurd rfl h

/-- The operations that can change each piece of state (R53), `s.host` being about to do one. -/
structure HasWriters (s t : State) : Prop where
  freq : t.freq ≠ s.freq → ∃ rest, s.host = .write 0x0000 (encode .count) :: rest ∨
    ∃ off v, s.host = .write off v :: rest ∧ 0x0400 ≤ off ∧ off < 0x0800
  tree : treeOf t ≠ treeOf s → ∃ rest, s.host = .write 0x0000 (encode .build) :: rest
  code : t.code ≠ s.code → ∃ rest, s.host = .write 0x0000 (encode .build) :: rest ∨
    s.host = .write 0x0000 (encode .gen) :: rest
  mem : t.mem ≠ s.mem → ∃ rest, s.host = .write 0x0000 (encode .encode) :: rest ∨
    s.host = .write 0x0000 (encode .decodeB) :: rest ∨ s.host = .write 0x0000 (encode .decodeS) :: rest ∨
    ∃ a bs, s.host = .store a bs :: rest
  operands : operandsOf t ≠ operandsOf s → ∃ off v rest, s.host = .write off v :: rest ∧ 0x0010 ≤ off ∧ off ≤ 0x0028
  platform : t.platform = s.platform

theorem operandsOf_platform {s t : State} (h : operandsOf t = operandsOf s) : t.platform = s.platform :=
  congrArg (fun o => o.2.2.2.2.2.2.2) h

theorem HasWriters.of_command {s t : State} {i : Instr} {rest : List HostOp}
    (h : s.host = .write 0x0000 (encode i) :: rest) (hu : Unchanged i s t) : HasWriters s t := by
  obtain ⟨hop, hfreq, htree, hcode, hmem⟩ := hu
  refine ⟨fun hne => ⟨rest, ?_⟩, fun hne => ⟨rest, ?_⟩, fun hne => ⟨rest, ?_⟩, fun hne => ⟨rest, ?_⟩,
    fun hne => absurd hop hne, operandsOf_platform hop⟩
  · obtain rfl : i = .count := by_contra fun hi => hne (hfreq hi)
    exact .inl h
  · obtain rfl : i = .build := by_contra fun hi => hne (htree hi)
    exact h
  · cases i with
    | build => exact .inl h
    | gen => exact .inr h
    | _ => exact absurd (hcode (by simp) (by simp)) hne
  · cases i with
    | encode => exact .inl h
    | decodeB => exact .inr (.inl h)
    | decodeS => exact .inr (.inr (.inl h))
    | _ => exact absurd (hmem (by simp) (by simp) (by simp)) hne

theorem HasWriters.of_register {s : State} {off : Nat} {v : Word} {rest : List HostOp}
    (h : s.host = .write off v :: rest) :
    HasWriters s (windowWrite { s with host := rest } (WindowReg.ofOffset off) v) := by
  have hoff := ofOffset_standsAt off
  generalize WindowReg.ofOffset off = r at hoff
  obtain ⟨htree, hcode, hmem, hplat⟩ := windowWrite_unchanged { s with host := rest } r v
  refine ⟨fun hne => ?_, fun hne => absurd htree hne, fun hne => absurd hcode hne, fun hne => absurd hmem hne,
    fun hne => ⟨off, v, rest, h, windowWrite_operands hoff hne⟩, hplat⟩
  obtain ⟨x, rfl⟩ := windowWrite_freq hne
  exact ⟨rest, .inr ⟨off, v, h, hoff⟩⟩

theorem IdleStep.hasWriters {s t : State} (h : IdleStep s t) : HasWriters s t := by
  cases h with
  | command h ht =>
    obtain ⟨hop, hfreq, htree, hcode, hmem⟩ := exec_unchanged ht
    exact .of_command h ⟨hop, hfreq, htree, hcode, hmem⟩
  | register h => exact .of_register h
  | store h ha =>
    exact ⟨absurd rfl, absurd rfl, absurd rfl, fun _ => ⟨_, .inr (.inr (.inr ⟨_, _, h⟩))⟩, absurd rfl, rfl⟩
  | illegal cause w rest =>
    exact ⟨absurd (by simp), absurd (by simp [treeOf, raise_treeValid]), absurd (by simp), absurd (by simp),
      absurd (by simp [operandsOf]), by simp⟩
  | wait => exact ⟨absurd rfl, absurd rfl, absurd rfl, absurd rfl, absurd rfl, rfl⟩
  | reply r rest => exact ⟨absurd rfl, absurd rfl, absurd rfl, absurd rfl, absurd rfl, rfl⟩

/-- Settles O17: by the operation that the host does. -/
theorem stateHasItsWriters : Obligations.StateHasItsWriters := by
  intro s t hp ht
  obtain ⟨hfreq, htree, hcode, hmem, hop, hplat⟩ := (IdleStep.of_step hp ht).hasWriters
  refine ⟨hfreq, fun hne => htree fun heq => ?_, hcode, hmem, fun hne => hop fun heq => ?_, hplat⟩
  · simp only [treeOf, Prod.mk.injEq] at heq
    simp [heq] at hne
  · simp only [operandsOf, Prod.mk.injEq] at heq
    simp [heq] at hne

/-! ### The form of the state -/

/-- Every command ends with the engine idle. -/
theorem exec_toIdle {i : Instr} {s t : State} (h : exec i s = .next t) : ∃ u, t = toIdle u := by
  cases i with
  | nop => cases h; exact ⟨_, rfl⟩
  | count => exact (execCount_countStep h).imp fun _ => And.right
  | build => exact (execBuild_treeOnly h).imp fun _ => And.right
  | gen => exact (execGen_codesOnly h).imp fun _ => And.right
  | encode => exact (execEncode_outputStep h).imp fun _ => And.right
  | decodeB => exact (execDecodeB_outputStep h).imp fun _ => And.right
  | decodeS => exact (execDecodeS_outputStep h).imp fun _ => And.right

/-- The form of the state rests on the error fields and `MEM`. -/
theorem Form.congr {s t : State} (h : Form s) (herr : t.status.err = s.status.err) (hsub : t.status.sub = s.status.sub)
    (hinfo : t.errInfo = s.errInfo) (hsticky : t.errSticky = s.errSticky) (hmem : t.mem = s.mem) : Form t := by
  obtain ⟨hst, hsk, hm⟩ := h
  exact ⟨by simpa only [StatusLegal, herr, hsub, hinfo] using hst, by rw [StickyLegal, hsticky]; exact hsk, hmem ▸ hm⟩

theorem exec_form {i : Instr} {s t : State} (h : exec i s = .next t) (hs : Form s) : Form t := by
  have hbegin := hs.clearError
  cases i with
  | nop =>
    cases h
    exact hbegin.congr rfl rfl rfl rfl rfl
  | count =>
    obtain ⟨u, hu, rfl⟩ := execCount_countStep h
    exact (hu.form (hbegin.congr rfl rfl rfl rfl rfl)).congr rfl rfl rfl rfl rfl
  | build =>
    obtain ⟨u, hu, rfl⟩ := execBuild_treeOnly h
    unfold TreeOnly at hu
    rw [hu]
    exact hbegin.congr rfl rfl rfl rfl rfl
  | gen =>
    obtain ⟨u, hu, rfl⟩ := execGen_codesOnly h
    unfold CodesOnly at hu
    rw [hu]
    exact hbegin.congr rfl rfl rfl rfl rfl
  | encode =>
    obtain ⟨u, hu, rfl⟩ := execEncode_outputStep h
    exact (hu.form (hbegin.congr rfl rfl rfl rfl rfl)).congr rfl rfl rfl rfl rfl
  | decodeB =>
    obtain ⟨u, hu, rfl⟩ := execDecodeB_outputStep h
    exact (hu.form (hbegin.congr rfl rfl rfl rfl rfl)).congr rfl rfl rfl rfl rfl
  | decodeS =>
    obtain ⟨u, hu, rfl⟩ := execDecodeS_outputStep h
    exact (hu.form (hbegin.congr rfl rfl rfl rfl rfl)).congr rfl rfl rfl rfl rfl

theorem clearSticky_legal {x : Word} (v : Word) (h : x &&& ~~~stickyMask = 0) :
    clearSticky x v &&& ~~~stickyMask = 0 := by
  rw [clearSticky, BitVec.and_assoc, BitVec.and_comm (~~~(v &&& stickyMask)), ← BitVec.and_assoc, h]
  exact BitVec.zero_and

theorem Form.windowWrite {s : State} (h : Form s) (r : WindowReg) (v : Word) : Form (windowWrite s r v) := by
  cases r with
  | errSticky => exact ⟨h.status, clearSticky_legal v h.sticky, h.memory⟩
  | _ => exact h.congr rfl rfl rfl rfl rfl

/-- The internal state (R45 to R49). -/
def internalsOf (s : State) : Phase × Bool × MergeRegs × WalkRegs × PackRegs × UnpackRegs :=
  (s.phase, s.mode, s.merge, s.walk, s.pack, s.unpack)

theorem toIdle_eq_iff (s : State) :
    toIdle s = s ↔ internalsOf s = (.idle, false, .idle, .idle, .idle, .idle) := by
  constructor
  · intro h
    rw [← h]
    rfl
  · intro h
    obtain ⟨⟩ := s
    simp only [internalsOf, Prod.mk.injEq] at h
    obtain ⟨rfl, rfl, rfl, rfl, rfl, rfl⟩ := h
    rfl

theorem windowWrite_internals (s : State) (r : WindowReg) (v : Word) :
    internalsOf (windowWrite s r v) = internalsOf s := by
  cases r <;> rfl

/-- The engine is idle after the step as it was before it (R251). -/
theorem IdleStep.toIdle_eq {s t : State} (h : IdleStep s t) (hs : toIdle s = s) : toIdle t = t := by
  rw [toIdle_eq_iff] at hs
  cases h with
  | command h ht =>
    obtain ⟨u, rfl⟩ := exec_toIdle ht
    rfl
  | register h => exact (toIdle_eq_iff _).2 ((windowWrite_internals _ _ _).trans hs)
  | illegal cause w rest => rfl
  | store h ha => exact (toIdle_eq_iff _).2 hs
  | wait => exact (toIdle_eq_iff _).2 hs
  | reply r rest => exact (toIdle_eq_iff _).2 hs

theorem IdleStep.form {s t : State} (h : IdleStep s t) (hs : Form s) : Form t := by
  have hrest : ∀ rest : List HostOp, Form { s with host := rest } := fun _ => hs.congr rfl rfl rfl rfl rfl
  cases h with
  | command h ht => exact exec_form ht (hrest _)
  | register h => exact (hrest _).windowWrite _ _
  | illegal cause w rest => exact ((hrest rest).clearError.raise _).congr rfl rfl rfl rfl rfl
  | store h ha => exact ⟨hs.status, hs.sticky, Memory.wf_writeAll _ hs.memory ha⟩
  | wait => exact hs
  | reply r rest => exact hs.congr rfl rfl rfl rfl rfl

theorem phase_of_toIdle_eq {s : State} (h : toIdle s = s) : s.phase = .idle := (congrArg State.phase h).symm

/-- Settles O15: by the operation that the host does. -/
theorem stepKeepsTheMachineForm : Obligations.StepKeepsTheMachineForm := by
  intro s t hidle hstatus hsticky hmem ht
  have hstep := IdleStep.of_step (phase_of_toIdle_eq hidle) ht
  obtain ⟨hstatus', hsticky', hmem'⟩ := hstep.form ⟨hstatus, hsticky, hmem⟩
  exact ⟨hstep.toIdle_eq hidle, hstatus', hsticky', hmem'⟩

end Sys2Proof.Machine

/-! SUPPORT and the settling of O16, with O13 and O14. BUILD makes the tree or none, GEN makes the Code Table of the tree,
and every other step leaves both alone. -/

namespace Sys2Proof.Machine

/-! ### The invariants rest on the tree and the Code Table -/

section Congr

variable {s t : State}

theorem TreeShape.congr (h : TreeShape s) (htree : treeOf t = treeOf s) : TreeShape t := by
  simp only [treeOf, Prod.mk.injEq] at htree
  obtain ⟨hnode, hroot, hnleaf, hnnode, hvalid⟩ := htree
  obtain ⟨h1, h2, h3, h4, h5, h6, h7, h8, h9, h10⟩ := h
  constructor <;> simp only [hnode, hroot, hnleaf, hnnode, hvalid] <;> assumption

theorem InvT.congr (h : InvT s) (htree : treeOf t = treeOf s) : InvT t := by
  refine h.imp (fun hno => ?_) fun hshape => hshape.congr htree
  simp only [treeOf, Prod.mk.injEq] at htree
  obtain ⟨hnode, hroot, hnleaf, hnnode, hvalid⟩ := htree
  simpa only [NoTree, hnode, hroot, hnleaf, hnnode, hvalid] using hno

theorem InvW.congr (h : InvW s) (hnode : t.node = s.node) : InvW t := by
  simpa only [InvW, hnode] using h

theorem InvC.congr (h : InvC s) (htree : treeOf t = treeOf s) (hcode : t.code = s.code) : InvC t := by
  simp only [treeOf, Prod.mk.injEq] at htree
  obtain ⟨hnode, hroot, -, -, hvalid⟩ := htree
  simpa only [InvC, State.codeAt, isCodeOf, hcode, hnode, hroot, hvalid] using h

end Congr

/-- INV-T, INV-W and INV-C (R42 to R44). -/
structure Tables (s : State) : Prop where
  tree : InvT s
  weights : InvW s
  codes : InvC s

theorem Tables.congr {s t : State} (h : Tables s) (htree : treeOf t = treeOf s) (hcode : t.code = s.code) : Tables t :=
  ⟨h.tree.congr htree, h.weights.congr (congrArg Prod.fst htree), h.codes.congr htree hcode⟩

/-! ### BUILD -/

/-- R151: BUILD of a table without a key leaves no tree. -/
theorem noTree_of_execBuild {s t : State} (h : presentSymbols s = []) (ht : execBuild s = .next t) : NoTree t := by
  obtain ⟨hrow, -, -⟩ := scanned_all s
  rw [symbolsBelow_all, h, List.map_nil] at hrow
  rw [execBuild_eq] at ht
  generalize loadSymbols 256 (clearTree (beginCommand s)) = u at hrow ht
  rw [buildFromLeaves_eq, if_pos (BitVec.eq_of_toNat_eq hrow.made.count)] at ht
  cases ht
  exact ⟨rfl, rfl, rfl, rfl, Vector.ext fun i hi => by
    rw [Vector.getElem_replicate]; exact hrow.made.entries.unused_of_le hi (Nat.zero_le i)⟩

/-- The Code Table is empty after BUILD (R162). -/
theorem execBuild_code {s t : State} (h : execBuild s = .next t) (x : Byte) : t.codeAt x = CodeEntry.none := by
  obtain ⟨u, hu, rfl⟩ := execBuild_treeOnly h
  unfold TreeOnly at hu
  rw [hu]
  simp [State.codeAt, treeFields, clearTree]

theorem execBuild_tables {s t : State} (h : execBuild s = .next t) : Tables t := by
  have hcodes : InvC t := .inl (execBuild_code h)
  by_cases hkeys : presentSymbols s = []
  · have hno := noTree_of_execBuild hkeys h
    refine ⟨.inl hno, fun i hi => ?_, hcodes⟩
    obtain ⟨-, -, -, -, hnode⟩ := hno
    simp [hnode]
  · obtain ⟨t', leaves, es, ht', hbuilt⟩ := execBuild_built hkeys
    cases Host.Outcome.next.inj (ht'.symm.trans h)
    exact ⟨.inr hbuilt.treeShape, hbuilt.invW, hcodes⟩

/-! ### GEN -/

/-- GEN with a tree leaves the Code Table of that tree. -/
theorem execGen_invC {s t : State} (hs : InvT s) (h : execGen s = .next t) : InvC t := by
  have htree : treeOf t = treeOf s := (exec_unchanged (i := .gen) h).tree (by simp)
  rw [execGen_eq] at h
  split at h
  · rename_i hvalid
    have hshape : TreeShape s := hs.resolve_left fun hno => by simp [hno.1] at hvalid
    have hwalk := walkLoop_walking (2 * 511) (walking_startWalk (codeAt_clearCodes (beginCommand s)))
    obtain ⟨u, hgo | hended, rfl⟩ := Ctl.finish_eq_next.1 h
    · rw [hgo] at hwalk
      obtain ⟨hp, c, hc⟩ := hwalk
      exact (hc.invC hp (hshape.congr htree)).congr rfl rfl
    · rw [hended] at hwalk
      exact hwalk.elim
  · cases h
    exact .inl (codeAt_clearCodes (beginCommand s))

theorem execGen_tables {s t : State} (hs : Tables s) (h : execGen s = .next t) : Tables t := by
  have htree : treeOf t = treeOf s := (exec_unchanged (i := .gen) h).tree (by simp)
  exact ⟨hs.tree.congr htree, hs.weights.congr (congrArg Prod.fst htree), execGen_invC hs.tree h⟩

/-! ### Every step -/

theorem exec_tables {i : Instr} {s t : State} (hs : Tables s) (h : exec i s = .next t) : Tables t := by
  have hu := exec_unchanged h
  cases i with
  | build => exact execBuild_tables h
  | gen => exact execGen_tables hs h
  | _ => exact hs.congr (hu.tree (by simp)) (hu.code (by simp) (by simp))

theorem IdleStep.tables {s t : State} (h : IdleStep s t) (hs : Tables s) : Tables t := by
  cases h with
  | command h ht =>
    refine exec_tables ?_ ht
    exact hs.congr rfl rfl
  | register h =>
    obtain ⟨htree, hcode, -, -⟩ := windowWrite_unchanged { s with host := _ } (WindowReg.ofOffset _) _
    exact hs.congr htree hcode
  | illegal cause w rest => exact hs.congr (by simp [treeOf, raise_treeValid]) (by simp)
  | store h ha => exact hs.congr rfl rfl
  | wait => exact hs
  | reply r rest => exact hs.congr rfl rfl

/-- Settles O16: by the operation that the host does. -/
theorem stepKeepsTheTableInvariants : Obligations.StepKeepsTheTableInvariants := by
  intro s t hidle htree hweights hcodes ht
  obtain ⟨htree', hweights', hcodes'⟩ :=
    (IdleStep.of_step (phase_of_toIdle_eq hidle) ht).tables ⟨htree, hweights, hcodes⟩
  exact ⟨htree', hweights', hcodes'⟩

/-! ### Reset -/

theorem noTree_reset : NoTree State.reset := ⟨rfl, rfl, rfl, rfl, rfl⟩

/-- Every register of the window is 0 after reset. -/
theorem windowWord_reset (r : WindowReg) : windowWord State.reset r = 0 := by
  cases r with
  | freq x => simp [windowWord, State.freqAt, State.reset]
  | node i w =>
    have hunused : State.reset.node[i] = Node.unused := by simp [State.reset]
    rw [windowWord, hunused]
    revert w
    decide
  | code x w =>
    have hnone : State.reset.codeAt x = CodeEntry.none := by simp [State.codeAt, State.reset]
    rw [windowWord, hnone]
    revert w
    decide
  | _ => rfl

/-- Settles O13, register by register. -/
theorem resetIsAllZero : Obligations.ResetIsAllZero :=
  ⟨fun off _ _ => windowWord_reset (WindowReg.ofOffset off), noTree_reset, rfl, rfl⟩

/-- Settles O14: there is no tree, and the Code Table is empty. -/
theorem resetMeetsTheInvariants : Obligations.ResetMeetsTheInvariants where
  idle := rfl
  tree := .inl noTree_reset
  weights i h := by simp [State.reset]
  codes := .inl fun x => by simp [State.codeAt, State.reset]
  status := .inl ⟨rfl, rfl, rfl⟩
  sticky := rfl
  memory := reset_mem_wf

end Sys2Proof.Machine

/-! SUPPORT and the settling of O53 and O54. What a command never looks at can be put over the state before it or after
it: the bits of `ERR_STICKY` set earlier, and the internal registers of the other units. -/

namespace Sys2Proof.Machine

/-! ### What is put over a state -/

/-- Bits to be set in `ERR_STICKY`, and for each of the internal registers what replaces its value: `id` keeps it. -/
structure Overlay where
  sticky : Word
  phase : Phase → Phase
  mode : Bool → Bool
  merge : MergeRegs → MergeRegs
  walk : WalkRegs → WalkRegs
  pack : PackRegs → PackRegs
  unpack : UnpackRegs → UnpackRegs

/-- The state `s` with `o` put over it. -/
def Overlay.on (o : Overlay) (s : State) : State :=
  { s with
    errSticky := o.sticky ||| s.errSticky
    phase := o.phase s.phase, mode := o.mode s.mode, merge := o.merge s.merge
    walk := o.walk s.walk, pack := o.pack s.pack, unpack := o.unpack s.unpack }

/-- The bits `x`, and every internal register as in `r`. -/
def Overlay.of (x : Word) (r : State) : Overlay where
  sticky := x
  phase _ := r.phase
  mode _ := r.mode
  merge _ := r.merge
  walk _ := r.walk
  pack _ := r.pack
  unpack _ := r.unpack

/-- BUILD uses the registers of U1. -/
def Overlay.forBuild (x : Word) (r : State) : Overlay := { Overlay.of x r with merge := id }

/-- GEN uses the phase and the registers of U2. -/
def Overlay.forGen (x : Word) (r : State) : Overlay := { Overlay.of x r with phase := id, walk := id }

/-- ENCODE uses the registers of U3. -/
def Overlay.forEncode (x : Word) (r : State) : Overlay := { Overlay.of x r with pack := id }

/-- The DECODE commands use the registers of U4. -/
def Overlay.forDecode (x : Word) (r : State) : Overlay := { Overlay.of x r with unpack := id }

/-! ### Parts that do not look at it -/

/-- It makes no difference whether `g` is applied before the part or after it. -/
def Commutes (g : State → State) (f : State → Ctl) : Prop := ∀ s, f (g s) = (f s).map g

section Commutes

variable {g : State → State} {f h : State → Ctl}

theorem Commutes.andThen (hf : Commutes g f) (hh : Commutes g h) : Commutes g fun s => (f s).andThen h := by
  intro s
  simp only [hf s]
  cases f s with
  | go t => exact hh t
  | ended t => rfl
  | stuck e => rfl

theorem Commutes.loop (hf : Commutes g f) (n : Nat) : Commutes g (Ctl.loop f n) := by
  induction n with
  | zero => exact fun s => rfl
  | succ n ih => exact hf.andThen ih

theorem Commutes.ite {c : State → Prop} [DecidablePred c] (hc : ∀ s, c (g s) = c s) (hf : Commutes g f)
    (hh : Commutes g h) : Commutes g fun s => if c s then f s else h s := by
  intro s
  simp only [hc s]
  split
  · exact hf s
  · exact hh s

theorem Commutes.go {k : State → State} (hk : ∀ s, k (g s) = g (k s)) : Commutes g fun s => .go (k s) :=
  fun s => congrArg Ctl.go (hk s)

end Commutes

theorem raise_on (o : Overlay) (s : State) (e : Err) : raise (o.on s) e = o.on (raise s e) := by
  by_cases h : s.status.err = 0#4 <;> simp [raise, Overlay.on, h, BitVec.or_assoc]

theorem Commutes.raise {o : Overlay} {e : State → Err} (he : ∀ s, e (o.on s) = e s) :
    Commutes o.on fun s => .ended (raise s (e s)) := by
  intro s
  simp only [he s, raise_on, Ctl.map_ended]

theorem memWrite_on (o : Overlay) (s : State) (a : Nat) (v : Byte) :
    memWrite (o.on s) a v = (memWrite s a v).map o.on := by
  cases hv : s.platform.memValid a <;> simp [memWrite, Overlay.on, hv]

theorem putByte_commutes (o : Overlay) (v : Byte) : Commutes o.on (putByte · v) := by
  refine .ite (fun _ => rfl) (.raise fun _ => rfl) fun s => ?_
  rw [memWrite_on, raise_on]
  change (match (memWrite s s.dstByteAddr v).map o.on with | none => _ | some _ => _) = _
  cases memWrite s s.dstByteAddr v <;> rfl

/-! ### COUNT -/

theorem countByte_commutes (x : Word) (r : State) : Commutes (Overlay.of x r).on countByte := by
  intro s
  unfold countByte
  simp only [raise_on]
  change (match memRead s (s.srcByteAddr s.resSyms.toNat) with | none => _ | some _ => _) = _
  cases memRead s (s.srcByteAddr s.resSyms.toNat) <;> rfl

/-! ### ENCODE -/

section Encode

variable (x : Word) (r : State)

theorem putAcc_commutes : Commutes (Overlay.forEncode x r).on putAcc := fun s =>
  Commutes.andThen (putByte_commutes (Overlay.forEncode x r) s.pack.acc) (fun _ => rfl) s

theorem flushAcc_commutes : Commutes (Overlay.forEncode x r).on flushAcc :=
  .ite (fun _ => rfl) (.go fun _ => rfl) (putAcc_commutes x r)

theorem exitThroughFlush_commutes {f : State → Ctl} (hf : Commutes (Overlay.forEncode x r).on f) :
    Commutes (Overlay.forEncode x r).on fun s => exitThroughFlush (f s) := by
  intro s
  simp only [hf s]
  cases f s with
  | go t => rfl
  | ended t => exact Commutes.andThen (flushAcc_commutes x r) (h := .ended) (fun _ => rfl) t
  | stuck e => rfl

theorem fetchSymbol_commutes : Commutes (Overlay.forEncode x r).on fetchSymbol := by
  intro s
  unfold fetchSymbol
  simp only [raise_on]
  change (match memRead s (s.srcByteAddr s.pack.i.toNat) with | none => _ | some _ => _) = _
  cases memRead s (s.srcByteAddr s.pack.i.toNat) <;> rfl

theorem lookupSymbol_commutes : Commutes (Overlay.forEncode x r).on lookupSymbol :=
  .ite (fun _ => rfl) (.raise fun _ => rfl) (.go fun _ => rfl)

theorem shiftBit_commutes : Commutes (Overlay.forEncode x r).on shiftBit :=
  .ite (c := fun s => (packBit s).pack.nacc = 8) (fun _ => rfl) (fun s => putAcc_commutes x r (packBit s))
    (.go fun _ => rfl)

theorem encodeSymbol_commutes : Commutes (Overlay.forEncode x r).on encodeSymbol := by
  refine Commutes.andThen (exitThroughFlush_commutes x r ((fetchSymbol_commutes x r).andThen (lookupSymbol_commutes x r)))
    fun t => ?_
  exact ((shiftBit_commutes x r).loop (t.codeAt t.pack.sym).len.toNat).andThen (.go (k := nextSymbol) fun _ => rfl) t

end Encode

/-! ### DECODE -/

section Decode

variable (x : Word) (r : State)

theorem fetchByte_commutes : Commutes (Overlay.forDecode x r).on fetchByte := by
  refine .ite (fun _ => rfl) (fun s => ?_) (.go fun _ => rfl)
  simp only [raise_on]
  change (match memRead s (s.srcByteAddr (s.unpack.j.toNat / 8)) with | none => _ | some _ => _) = _
  cases memRead s (s.srcByteAddr (s.unpack.j.toNat / 8)) <;> rfl

theorem walkBit_commutes : Commutes (Overlay.forDecode x r).on walkBit := by
  intro s
  unfold walkBit
  change (match s.nodeAt s.unpack.pos with | none => _ | some _ => _) = _
  cases s.nodeAt s.unpack.pos with
  | none => rfl
  | some n =>
    by_cases hi : n.tag = .internal
    · simp only [hi, if_true]
      change (match s.nodeAt (childAt s n) with | none => _ | some _ => _) =
        (match s.nodeAt (childAt s n) with | none => _ | some _ => _ : Ctl).map _
      cases s.nodeAt (childAt s n) with
      | none => rfl
      | some c =>
        obtain ⟨tag, _⟩ := c
        cases tag with
        | placeholder => exact congrArg Ctl.ended (raise_on _ (walkTo s (childAt s n)) (.placeholder (childAt s n)))
        | internal => rfl
        | leaf => rfl
        | empty => rfl
    · simp only [hi, if_false]; rfl

theorem emitSymbol_commutes : Commutes (Overlay.forDecode x r).on emitSymbol := by
  intro s
  by_cases h : s.atLeaf
  · obtain ⟨n, hn, hl⟩ := Option.map_eq_some_iff.1 h
    rw [emitSymbol_of_leaf hn hl, emitSymbol_of_leaf (s := (Overlay.forDecode x r).on s) hn hl]
    exact (putByte_commutes _ n.sym).andThen (.go (k := symbolPut) fun _ => rfl) s
  · rw [emitSymbol_of_not_leaf h, emitSymbol_of_not_leaf (s := (Overlay.forDecode x r).on s) h]
    rfl

theorem decodeBit_commutes : Commutes (Overlay.forDecode x r).on decodeBit :=
  (((fetchByte_commutes x r).andThen (walkBit_commutes x r)).andThen (emitSymbol_commutes x r)).andThen
    (.go (k := nextBit) fun _ => rfl)

theorem checkAtRoot_commutes : Commutes (Overlay.forDecode x r).on checkAtRoot :=
  .ite (fun _ => rfl) (.go fun _ => rfl) (.raise fun _ => rfl)

theorem decodeUntilSyms_commutes (n : Nat) : Commutes (Overlay.forDecode x r).on (decodeUntilSyms n) := by
  induction n with
  | zero => exact .ite (fun _ => rfl) (.raise fun _ => rfl) (.go fun _ => rfl)
  | succ n ih => exact .ite (fun _ => rfl) ((decodeBit_commutes x r).andThen ih) (.go fun _ => rfl)

end Decode

/-! ### GEN -/

section Gen

variable (x : Word) (r : State)

theorem walkDescend_commutes : Commutes (Overlay.forGen x r).on walkDescend := by
  intro s
  unfold walkDescend
  change (match s.nodeAt s.walk.cur with | none => _ | some _ => _) = _
  cases s.nodeAt s.walk.cur with
  | none => rfl
  | some n =>
    obtain ⟨tag, _⟩ := n
    cases tag with
    | internal => by_cases hd : s.walk.depth.toNat < 255 <;> simp [Overlay.on, Overlay.forGen, hd]
    | leaf => by_cases hd : s.walk.depth = 0#9 <;> simp [Overlay.on, Overlay.forGen, recordCode, hd]
    | placeholder => by_cases hd : s.walk.depth = 0#9 <;> simp [Overlay.on, Overlay.forGen, hd]
    | empty => rfl

theorem walkAscend_commutes : Commutes (Overlay.forGen x r).on walkAscend := by
  refine .ite (fun _ => rfl) (.go fun _ => rfl) (.ite (fun _ => rfl) (.go fun _ => rfl) fun s => ?_)
  change (match s.nodeAt (passed s.walk (s.walk.depth - 1).toNat) with | none => _ | some _ => _) =
    (match s.nodeAt (passed s.walk (s.walk.depth - 1).toNat) with | none => _ | some _ => _ : Ctl).map _
  cases s.nodeAt (passed s.walk (s.walk.depth - 1).toNat) <;> rfl

theorem walkLoop_commutes (n : Nat) : Commutes (Overlay.forGen x r).on (walkLoop n) := by
  induction n with
  | zero => exact .ite (fun _ => rfl) (.go fun _ => rfl) fun _ => rfl
  | succ n ih =>
    intro s
    unfold walkLoop
    change (match s.phase with | .gDescend => _ | .gAscend => _ | _ => _) = _
    cases s.phase with
    | gDescend => exact (walkDescend_commutes x r).andThen ih s
    | gAscend => exact (walkAscend_commutes x r).andThen ih s
    | _ => rfl

end Gen

/-! ### BUILD -/

section Build

variable (x : Word) (r : State)

theorem loadSymbol_on (s : State) :
    loadSymbol ((Overlay.forBuild x r).on s) = (Overlay.forBuild x r).on (loadSymbol s) := by
  unfold loadSymbol
  dsimp only
  by_cases h : 0 < s.freqAt (s.merge.s.truncate 8)
  · rw [if_pos h, if_pos (by exact h)]; rfl
  · rw [if_neg h, if_neg (by exact h)]; rfl

theorem loadSymbols_on (n : Nat) (s : State) :
    loadSymbols n ((Overlay.forBuild x r).on s) = (Overlay.forBuild x r).on (loadSymbols n s) := by
  induction n generalizing s with
  | zero => rfl
  | succ n ih => rw [loadSymbols, loadSymbol_on, ih]; rfl

theorem mergeOnce_on (s : State) :
    mergeOnce ((Overlay.forBuild x r).on s) = (mergeOnce s).map (Overlay.forBuild x r).on := by
  unfold mergeOnce extractFirst
  change ((Option.map _ (pqExtractMin s.node s.merge.pq)).bind extractSecond).map mergePair = _
  cases pqExtractMin s.node s.merge.pq with
  | none => rfl
  | some m =>
    obtain ⟨a, pq⟩ := m
    change ((Option.map _ (pqExtractMin s.node pq))).map mergePair =
      ((Option.map _ (pqExtractMin s.node pq)).map mergePair).map _
    cases pqExtractMin s.node pq <;> rfl

theorem mergeLoop_on (n : Nat) (s : State) :
    mergeLoop n ((Overlay.forBuild x r).on s) = (Overlay.forBuild x r).on (mergeLoop n s) := by
  induction n generalizing s with
  | zero => rfl
  | succ n ih =>
    rw [mergeLoop, mergeLoop, mergeOnce_on]
    change (if 1 < s.merge.pq.length then _ else _) = _
    split
    · cases mergeOnce s with
      | none => rfl
      | some t => exact ih t
    · rfl

theorem mergeAndRoot_on (n : Nat) (s : State) :
    mergeAndRoot n ((Overlay.forBuild x r).on s) = (Overlay.forBuild x r).on (mergeAndRoot n s) := by
  unfold mergeAndRoot takeRoot
  rw [mergeLoop_on]
  generalize mergeLoop n s = v
  change (Option.map _ (pqExtractMin v.node v.merge.pq)).getD _ = _
  cases pqExtractMin v.node v.merge.pq <;> rfl

theorem buildFromLeaves_on (s : State) :
    buildFromLeaves ((Overlay.forBuild x r).on s) = (Overlay.forBuild x r).on (buildFromLeaves s) := by
  rw [buildFromLeaves_eq, buildFromLeaves_eq]
  change (if s.merge.k = 0 then _ else if s.merge.k = 1 then _ else _) = _
  split
  · rfl
  · split
    · exact mergeAndRoot_on x r _ (setLeafCount (addPlaceholder s))
    · exact mergeAndRoot_on x r _ (setLeafCount s)

end Build

/-! ### Whole commands -/

/-- `s` with the bits `x` of `ERR_STICKY` set as well. -/
def withSticky (x : Word) (s : State) : State := { s with errSticky := x ||| s.errSticky }

/-- The outcome with its next state changed by `f`. -/
def mapNext (f : State → State) : Host.Outcome State Fault Refusal → Host.Outcome State Fault Refusal
  | .next s => .next (f s)
  | .fault e => .fault e
  | .refused e => .refused e

theorem finish_map (o : Overlay) (c : Ctl) : (c.map o.on).finish = mapNext (withSticky o.sticky) c.finish := by
  cases c <;> rfl

theorem Commutes.finish {o : Overlay} {f : State → Ctl} (h : Commutes o.on f) (s : State) :
    (f (o.on s)).finish = mapNext (withSticky o.sticky) (f s).finish := by
  rw [h s, finish_map]

/-- All of `s` that a command can look at: no error is recorded, no bit is sticky, the internal registers are idle. -/
def blank (s : State) : State := { toIdle (clearError s) with errSticky := 0 }

/-- A command starts on what it can look at, with the sticky bits and the internal registers put over it. -/
theorem clearError_eq_on (s : State) : clearError s = (Overlay.of s.errSticky s).on (clearError (blank s)) := by
  have hsticky : s.errSticky = s.errSticky ||| 0 := BitVec.or_zero.symm
  exact congrArg (fun x => { clearError s with errSticky := x }) hsticky

theorem startEncode_on (x : Word) (r s : State) :
    startEncode ((Overlay.of x r).on s) = (Overlay.forEncode x r).on (startEncode s) := rfl

theorem startDecode_on (x : Word) (r s : State) :
    startDecode ((Overlay.of x r).on s) = (Overlay.forDecode x r).on (startDecode s) := rfl

theorem clearTree_on (x : Word) (r s : State) :
    clearTree ((Overlay.of x r).on s) = (Overlay.forBuild x r).on (clearTree s) := rfl

theorem execBuild_blank (s : State) : execBuild s = mapNext (withSticky s.errSticky) (execBuild (blank s)) := by
  have hc : Commutes (Overlay.forBuild s.errSticky s).on fun u => .go (buildFromLeaves (loadSymbols 256 u)) :=
    .go fun u => by rw [loadSymbols_on, buildFromLeaves_on]
  unfold execBuild
  rw [beginCommand_eq, clearError_eq_on, clearTree_on]
  exact hc.finish _

theorem execGen_blank (s : State) : execGen s = mapNext (withSticky s.errSticky) (execGen (blank s)) := by
  have hc := walkLoop_commutes s.errSticky s (2 * 511)
  rw [execGen_eq, execGen_eq, beginCommand_eq, clearError_eq_on]
  change (if s.status.treeValid then _ else _) = mapNext _ (if s.status.treeValid then _ else _)
  split
  · exact hc.finish (startWalk (clearCodes (clearError (blank s))))
  · rfl

theorem execEncode_blank (s : State) : execEncode s = mapNext (withSticky s.errSticky) (execEncode (blank s)) := by
  have hc := ((encodeSymbol_commutes s.errSticky s).loop s.srcLen.toNat).andThen (flushAcc_commutes s.errSticky s)
  unfold execEncode
  rw [beginCommand_eq, clearError_eq_on, startEncode_on]
  exact hc.finish _

/-- DECODE.B with its start taken apart from what follows (R221, R222, R229). -/
def decodeBFrom (s : State) : Ctl :=
  if !s.status.treeValid then .go s
  else if 8 * s.srcLen.toNat < s.opBits then .ended (raise s .overrun)
  else (Ctl.loop decodeBit s.opBits s).andThen checkAtRoot

theorem execDecodeB_eq (s : State) : execDecodeB s = (decodeBFrom (startDecode (clearError s))).finish := by
  unfold execDecodeB decodeBFrom
  dsimp only [beginCommand_eq]
  split
  · rfl
  · split <;> rfl

theorem decodeBFrom_commutes (x : Word) (r : State) : Commutes (Overlay.forDecode x r).on decodeBFrom :=
  .ite (fun _ => rfl) (.go fun _ => rfl) <| .ite (fun _ => rfl) (.raise fun _ => rfl) fun s =>
    (((decodeBit_commutes x r).loop s.opBits).andThen (checkAtRoot_commutes x r)) s

theorem execDecodeB_blank (s : State) : execDecodeB s = mapNext (withSticky s.errSticky) (execDecodeB (blank s)) := by
  rw [execDecodeB_eq, execDecodeB_eq, clearError_eq_on, startDecode_on]
  exact (decodeBFrom_commutes s.errSticky s).finish _

/-- DECODE.S with its start taken apart from what follows (R221, R223). -/
def decodeSFrom (s : State) : Ctl :=
  if !s.status.treeValid then .go s else decodeUntilSyms (8 * s.srcLen.toNat) s

theorem execDecodeS_eq (s : State) : execDecodeS s = (decodeSFrom (startDecode (clearError s))).finish := by
  unfold execDecodeS decodeSFrom
  dsimp only [beginCommand_eq]
  split <;> rfl

theorem decodeSFrom_commutes (x : Word) (r : State) : Commutes (Overlay.forDecode x r).on decodeSFrom :=
  .ite (fun _ => rfl) (.go fun _ => rfl) fun s => decodeUntilSyms_commutes x r (8 * s.srcLen.toNat) s

theorem execDecodeS_blank (s : State) : execDecodeS s = mapNext (withSticky s.errSticky) (execDecodeS (blank s)) := by
  rw [execDecodeS_eq, execDecodeS_eq, clearError_eq_on, startDecode_on]
  exact (decodeSFrom_commutes s.errSticky s).finish _

/-- A command does on `s` what it does on all it can look at, and keeps the sticky bits that `s` has (R50, R54). -/
theorem exec_blank (i : Instr) (s : State) : exec i s = mapNext (withSticky s.errSticky) (exec i (blank s)) := by
  cases i with
  | nop => exact congrArg (fun u => Host.Outcome.next (toIdle u)) (clearError_eq_on s)
  | count =>
    have hc := (countByte_commutes s.errSticky s).loop s.srcLen.toNat
    change (Ctl.loop countByte s.srcLen.toNat (clearCounts (clearError s))).finish = _
    rw [clearError_eq_on]
    exact hc.finish (clearCounts (clearError (blank s)))
  | build => exact execBuild_blank s
  | gen => exact execGen_blank s
  | encode => exact execEncode_blank s
  | decodeB => exact execDecodeB_blank s
  | decodeS => exact execDecodeS_blank s

/-- Settles O54: what a command can look at does not hold the internal registers. -/
theorem commandsIgnoreInternalState : Obligations.CommandsIgnoreInternalState := by
  intro i s p md mg wk pk up
  rw [exec_blank i s, exec_blank]
  rfl

/-- Settles O53: what a command can look at holds no error, and the sticky bits of before are kept. -/
theorem commandsIgnoreEarlierErrors : Obligations.CommandsIgnoreEarlierErrors := by
  intro i s t err sub info sticky ht
  have ht' := exec_blank i { s with status := { s.status with err := err, sub := sub }, errInfo := info, errSticky := sticky }
  change _ = mapNext (withSticky sticky) (exec i (blank s)) at ht'
  rw [exec_blank i s] at ht
  rw [ht']
  cases hu : exec i (blank s) with
  | next u =>
    rw [hu] at ht
    cases ht
    exact ⟨u.errSticky, rfl, rfl⟩
  | fault f => rw [hu] at ht; cases ht
  | refused f => rw [hu] at ht; cases ht

end Sys2Proof.Machine

/-! SUPPORT and the settling of O6. What the host's bus refuses. -/

namespace Sys2Proof.Machine

/-- With the engine idle a step does the first host operation (R86). -/
theorem step_of_host {s : State} {op : HostOp} {rest : List HostOp} (hp : s.phase = .idle) (h : s.host = op :: rest) :
    step s = hostAccess { s with host := rest } op := by
  simp only [step, hp, h]

/-- R82: the window is accessed by words at a multiple of 4 inside it, to read and to write. -/
theorem read_refused {off : Nat} (h : off % 4 ≠ 0 ∨ 0x8000 ≤ off) : (HostOp.read off).wellFormed = false := by
  rcases h with halign | houtside
  · simp [HostOp.wellFormed, halign]
  · simp [HostOp.wellFormed, houtside]

/-- A refused access is answered with a bus error (R82). -/
theorem hostAccess_refused {s : State} {op : HostOp} (h : op.wellFormed = false) :
    hostAccess s op = .next (answer s .busError) := by
  simp [hostAccess, h]

/-- Settles O6: none of the accesses named is well formed. -/
theorem refusedAccessChangesNothing : Obligations.RefusedAccessChangesNothing := by
  intro s op rest hp hhost hrefused
  have hwf : op.wellFormed = false := by
    cases op with
    | read off => exact read_refused hrefused
    | write off v => exact read_refused hrefused
    | store a bytes => exact decide_eq_false (Nat.not_le.2 hrefused)
    | load a n => exact decide_eq_false (Nat.not_le.2 hrefused)
  rw [step_of_host hp hhost, hostAccess_refused hwf]
  rfl

end Sys2Proof.Machine

/-! SUPPORT and the settling of O49. On a tree DECODE never stops: the walk stands at an internal node before every
bit. -/

namespace Sys2Proof.Machine

/-! ### Parts that do not stop -/

/-- The part does not stop: it goes on to a state with `P` or ends in one with `Q`. -/
def Ctl.Reaches (P Q : State → Prop) : Ctl → Prop
  | .go s => P s
  | .ended s => Q s
  | .stuck _ => False

section Reaches

variable {P P' Q : State → Prop} {c : Ctl}

theorem Ctl.Reaches.andThen {f : State → Ctl} (hc : c.Reaches P Q) (hf : ∀ s, P s → (f s).Reaches P' Q) :
    (c.andThen f).Reaches P' Q := by
  cases c with
  | go s => exact hf s hc
  | ended s => exact hc
  | stuck e => exact hc.elim

/-- The induction over a loop whose invariant speaks of the iterations that are left. -/
theorem Ctl.Reaches.loop {I : Nat → State → Prop} {body : State → Ctl}
    (hb : ∀ n s, I (n + 1) s → (body s).Reaches (I n) Q) (n : Nat) {s : State} (hs : I n s) :
    (Ctl.loop body n s).Reaches (I 0) Q := by
  induction n generalizing s with
  | zero => exact hs
  | succ n ih => exact (hb n s hs).andThen fun t ht => ih ht

theorem Ctl.Reaches.finish (h : c.Reaches P P) : ∃ s, c.finish = .next (toIdle s) ∧ P s := by
  cases c with
  | go s => exact ⟨s, rfl, h⟩
  | ended s => exact ⟨s, rfl, h⟩
  | stuck e => exact h.elim

end Reaches

/-! ### Nodes of a tree -/

section Tree

variable {s : State}

theorem TreeShape.root_internal (h : TreeShape s) : (s.nodeAt s.root).map Node.tag = some .internal := by
  have hge := h.leaves_ge
  have hle := h.leaves_le
  have hnodes := h.nodes
  have hroot := h.root_last
  have hr : s.root.toNat < 511 := by omega
  obtain ⟨htag, -⟩ := h.internal _ hr (by omega) (by omega)
  simp [State.nodeAt, Vector.getElem?_eq_getElem hr, htag]

/-- The entries below `NNODE` are nodes (R42). -/
theorem TreeShape.node_of_lt (h : TreeShape s) {i : Idx} (hi : i.toNat < s.nnode.toNat) :
    ∃ n, s.nodeAt i = some n ∧ n.tag ≠ .empty := by
  have hle := h.leaves_le
  have hnodes := h.nodes
  have hlt : i.toNat < 511 := by omega
  refine ⟨s.node[i.toNat], Vector.getElem?_eq_getElem hlt, ?_⟩
  rcases Nat.lt_or_ge i.toNat s.nleaf.toNat with hleaf | hint
  · rcases (h.leaf _ hlt hleaf).1 with htag | ⟨htag, -⟩ <;> simp [htag]
  · simp [(h.internal _ hlt hint hi).1]

/-- An internal entry stands between the leaves and `NNODE`, so its children are nodes (R42). -/
theorem TreeShape.child_of_internal (h : TreeShape s) {i : Idx} {n : Node} (hn : s.nodeAt i = some n)
    (ht : n.tag = .internal) (b : Bool) :
    ∃ c, s.nodeAt (if b then n.right else n.left) = some c ∧ c.tag ≠ .empty := by
  obtain ⟨hlt, rfl⟩ := Vector.getElem?_eq_some_iff.1 hn
  have hnode : i.toNat < s.nnode.toNat := by
    by_contra hge
    simp [h.rest_empty _ hlt (by omega)] at ht
  have hint : s.nleaf.toNat ≤ i.toNat := by
    by_contra hleaf
    rcases (h.leaf _ hlt (by omega)).1 with htag | ⟨htag, -⟩ <;> simp [ht] at htag
  obtain ⟨-, -, hleft, hright, -⟩ := h.internal _ hlt hint hnode
  exact h.node_of_lt (by cases b <;> simp <;> omega)

end Tree

/-! ### The invariant of the bits -/

/-- The results of a DECODE, at its end or before (R222, R223): every symbol is one byte, and no more bits are consumed
than the source has. -/
structure Counted (s : State) : Prop where
  symbols : s.resBytes = s.resSyms
  bits : s.resBits.toNat ≤ 8 * s.srcLen.toNat

/-- DECODE on a tree, with at least `n` bits of the source from bit `j` on. -/
structure Decoding (n : Nat) (s : State) : Prop where
  tree : TreeShape s
  counted : Counted s
  left : s.unpack.j.toNat + n ≤ 8 * s.srcLen.toNat

/-- The bit number does not wrap: the source has less than 2^35 bits. -/
theorem Decoding.toNat_next {n : Nat} {s : State} (h : Decoding (n + 1) s) :
    (s.unpack.j + 1).toNat = s.unpack.j.toNat + 1 := by
  have hlt := s.srcLen.isLt
  have hleft := h.left
  bv_omega

/-- The walk is at an internal node. -/
def State.atInternal (s : State) : Prop := (s.nodeAt s.unpack.pos).map Node.tag = some .internal

/-- What holds before a bit, `n` bits being left. -/
structure BeforeBit (n : Nat) (s : State) : Prop extends Decoding n s where
  internal : s.atInternal

/-- What holds after `D_WALK` of a bit (R224). -/
structure Walked (n : Nat) (s : State) : Prop extends Decoding n s where
  node : s.atInternal ∨ s.atLeaf

theorem Counted.raise {s : State} (h : Counted s) (e : Err) : Counted (raise s e) :=
  ⟨by simpa using h.symbols, by simpa using h.bits⟩

/-- The walk in a tree (R224, R228): the bit leads to a node, and to the placeholder with an error. -/
theorem walkBit_of_tree {s : State} (h : TreeShape s) (hint : s.atInternal) :
    ∃ pos, (walkBit s = .go (walkTo s pos) ∧ ((walkTo s pos).atInternal ∨ (walkTo s pos).atLeaf)) ∨
      walkBit s = .ended (raise (walkTo s pos) (.placeholder pos)) := by
  obtain ⟨n, hn, ht⟩ := Option.map_eq_some_iff.1 hint
  obtain ⟨c, hc, hempty⟩ := h.child_of_internal hn ht (streamBit s.unpack.cur (s.unpack.j.toNat % 8))
  have htag : (s.nodeAt (childAt s n)).map Node.tag = some c.tag := congrArg (Option.map Node.tag) hc
  refine ⟨childAt s n, ?_⟩
  rw [walkBit_of_internal hn ht hc]
  cases hg : c.tag with
  | internal => exact .inl ⟨rfl, .inl (htag.trans (congrArg some hg))⟩
  | leaf => exact .inl ⟨rfl, .inr (htag.trans (congrArg some hg))⟩
  | placeholder => exact .inr rfl
  | empty => exact absurd hg hempty

section Bits

variable {n : Nat} {s : State}

theorem BeforeBit.fetchByte (h : BeforeBit n s) : (fetchByte s).Reaches (BeforeBit n) Counted := by
  rcases fetchByte_cases s with ⟨-, hc⟩ | ⟨-, -, hc⟩ | ⟨-, -, hc⟩ <;> rw [hc]
  · exact h
  · exact h.counted.raise _
  · exact ⟨⟨h.tree.congr rfl, ⟨h.counted.symbols, h.counted.bits⟩, h.left⟩, h.internal⟩

theorem BeforeBit.walkBit (h : BeforeBit (n + 1) s) : (walkBit s).Reaches (Walked (n + 1)) Counted := by
  have hbits : (s.unpack.j + 1).toNat ≤ 8 * s.srcLen.toNat := by
    have hleft := h.left
    rw [h.toNat_next]
    omega
  have hcounted : ∀ pos, Counted (walkTo s pos) := fun _ => ⟨h.counted.symbols, hbits⟩
  obtain ⟨pos, ⟨hgo, hnode⟩ | hended⟩ := walkBit_of_tree h.tree h.internal
  · rw [hgo]
    exact ⟨⟨h.tree.congr rfl, hcounted pos, h.left⟩, hnode⟩
  · rw [hended]
    exact (hcounted pos).raise _

theorem Walked.emitSymbol (h : Walked n s) : (emitSymbol s).Reaches (BeforeBit n) Counted := by
  rcases h.node with hint | hleaf
  · have hne : ¬ s.atLeaf := fun hl => by cases hint.symm.trans hl
    rw [emitSymbol_of_not_leaf hne]
    exact ⟨h.toDecoding, hint⟩
  · obtain ⟨m, hm, hl⟩ := Option.map_eq_some_iff.1 hleaf
    rw [emitSymbol_of_leaf hm hl]
    rcases putByte_cases s m.sym with ⟨-, hp⟩ | ⟨-, -, hp⟩ | ⟨-, -, hp⟩ <;> rw [hp]
    · exact h.counted.raise _
    · exact h.counted.raise _
    · exact ⟨⟨h.tree.congr rfl, ⟨congrArg (· + 1) h.counted.symbols, h.counted.bits⟩, h.left⟩,
        h.tree.root_internal⟩

theorem BeforeBit.nextBit (h : BeforeBit (n + 1) s) : BeforeBit n (nextBit s) := by
  have hleft : (s.unpack.j + 1).toNat + n ≤ 8 * s.srcLen.toNat := by
    have hleft := h.left
    rw [h.toNat_next]
    omega
  exact ⟨⟨h.tree.congr rfl, ⟨h.counted.symbols, h.counted.bits⟩, hleft⟩, h.internal⟩

/-- `Step(j)` (R224) in a tree. -/
theorem BeforeBit.decodeBit (h : BeforeBit (n + 1) s) : (decodeBit s).Reaches (BeforeBit n) Counted :=
  ((h.fetchByte.andThen fun _ => BeforeBit.walkBit).andThen fun _ => Walked.emitSymbol).andThen fun _ =>
    BeforeBit.nextBit

/-- `D_FINAL` (R227). -/
theorem Counted.checkAtRoot (h : Counted s) : (checkAtRoot s).Reaches Counted Counted := by
  unfold Machine.checkAtRoot
  split
  · exact h
  · exact h.raise _

theorem BeforeBit.decodeUntilSyms (h : BeforeBit n s) : (decodeUntilSyms n s).Reaches Counted Counted := by
  induction n generalizing s with
  | zero =>
    rw [Machine.decodeUntilSyms]
    split
    · exact h.counted.raise _
    · exact h.counted
  | succ n ih =>
    rw [Machine.decodeUntilSyms]
    split
    · exact h.decodeBit.andThen fun t ht => ih ht
    · exact h.counted

end Bits

/-! ### The whole commands -/

theorem counted_startDecode (s : State) : Counted (startDecode (clearError s)) := ⟨rfl, Nat.zero_le _⟩

/-- Before the first bit the walk stands at the root (R222, R223). -/
theorem beforeBit_startDecode {s : State} (h : TreeShape s) {n : Nat} (hn : n ≤ 8 * s.srcLen.toNat) :
    BeforeBit n (startDecode (clearError s)) :=
  ⟨⟨h.congr rfl, counted_startDecode s, (Nat.zero_add n).trans_le hn⟩, h.root_internal⟩

/-- With INV-T, past DECODE's test of `TREE_VALID` (R221) there is a tree. -/
theorem InvT.treeShape {s : State} (h : InvT s) (hvalid : ¬ (!s.status.treeValid) = true) : TreeShape s :=
  h.resolve_left fun ⟨hno, _⟩ => hvalid (by simp [hno])

/-- DECODE.B with INV-T (R221, R222, R229). -/
theorem decodeBFrom_reaches {s : State} (h : InvT s) :
    (decodeBFrom (startDecode (clearError s))).Reaches Counted Counted := by
  unfold decodeBFrom
  split
  case isTrue => exact counted_startDecode s
  case isFalse hvalid =>
    split
    case isTrue => exact (counted_startDecode s).raise _
    case isFalse hover =>
      have hbefore := beforeBit_startDecode (h.treeShape hvalid) (Nat.le_of_not_lt hover)
      exact (Ctl.Reaches.loop (fun _ _ => BeforeBit.decodeBit) _ hbefore).andThen fun _ ht => ht.counted.checkAtRoot

/-- DECODE.S with INV-T (R221, R223). -/
theorem decodeSFrom_reaches {s : State} (h : InvT s) :
    (decodeSFrom (startDecode (clearError s))).Reaches Counted Counted := by
  unfold decodeSFrom
  split
  case isTrue => exact counted_startDecode s
  case isFalse hvalid =>
    exact (beforeBit_startDecode (h.treeShape hvalid) (Nat.le_refl _)).decodeUntilSyms

theorem execDecodeB_counted {s : State} (h : InvT s) : ∃ t, execDecodeB s = .next t ∧ Counted t := by
  obtain ⟨u, hu, hcounted⟩ := (decodeBFrom_reaches h).finish
  exact ⟨toIdle u, (execDecodeB_eq s).trans hu, hcounted.symbols, hcounted.bits⟩

theorem execDecodeS_counted {s : State} (h : InvT s) : ∃ t, execDecodeS s = .next t ∧ Counted t := by
  obtain ⟨u, hu, hcounted⟩ := (decodeSFrom_reaches h).finish
  exact ⟨toIdle u, (execDecodeS_eq s).trans hu, hcounted.symbols, hcounted.bits⟩

/-- Settles O49: on a tree, or with no tree, both commands end with the counts as said, and each of their parts puts
bytes at the end of the output only. -/
theorem decodeCompletesInsideItsBuffer : Obligations.DecodeCompletesInsideItsBuffer := by
  intro s i htree hi
  obtain ⟨t, ht, hcounted, u, hstep, rfl⟩ : ∃ t, exec i s = .next t ∧ Counted t ∧
      ∃ u, OutputStep (startDecode (clearError s)) u ∧ t = toIdle u := by
    rcases hi with rfl | rfl
    · obtain ⟨t, ht, hcounted⟩ := execDecodeB_counted htree
      exact ⟨t, ht, hcounted, execDecodeB_outputStep ht⟩
    · obtain ⟨t, ht, hcounted⟩ := execDecodeS_counted htree
      exact ⟨t, ht, hcounted, execDecodeS_outputStep ht⟩
  obtain ⟨hframe, -, hputs⟩ := hstep
  obtain ⟨-, hcap, hmem⟩ := hputs (Nat.zero_le _)
  have hlen : u.srcLen = s.srcLen := (congrArg State.srcLen hframe :)
  exact ⟨_, ht, congrArg toIdle hframe, hcounted.symbols, hcap, hlen ▸ hcounted.bits, fun a ha => hmem a ha⟩

end Sys2Proof.Machine

/-! SUPPORT and the settling of O1 and O2. Encoding and decoding of command words undo each other, and the cause of an
illegal word is read from its low byte. -/

namespace Sys2Proof.Machine

theorem decode_encode (i : Instr) : decode (encode i) = .command i := by
  cases i <;> decide

/-- R101, R103: the seven words of the commands are the words that decode. -/
theorem decode_eq_command_iff {w : Word} {i : Instr} : decode w = .command i ↔ w = encode i :=
  ⟨eq_encode_of_decode, fun h => h ▸ decode_encode i⟩

theorem toNat_opc (w : Word) : (cmdFields w).opc.toNat = w.toNat % 256 := by
  simp [cmdFields]

/-- R104: why a word is illegal, `BAD_OPC` when both causes apply. -/
theorem cause_of_decode {w : Word} {cause : IllegalCause} (h : decode w = .illegal cause) :
    cause = if 5 < w.toNat % 256 then .badOpc else .badRsv := by
  have hlt : 5 < (cmdFields w).opc ↔ 5 < w.toNat % 256 := by
    rw [BitVec.lt_def, toNat_opc]
    rfl
  rw [decode] at h
  by_cases hopc : 5 < (cmdFields w).opc
  · rw [if_pos (hlt.1 hopc)]
    rw [if_pos hopc] at h
    cases h
    rfl
  · rw [if_neg (mt hlt.2 hopc)]
    rw [if_neg hopc] at h
    repeat' split at h
    all_goals cases h
    all_goals rfl

/-- Settles O1: a word that decodes has the fields of its command, and an illegal word has the cause its low byte
gives. -/
theorem decodeAcceptsExactlyTheSevenWords : Obligations.DecodeAcceptsExactlyTheSevenWords := by
  refine ⟨by decide, fun w i => decode_eq_command_iff, fun w hw => ?_⟩
  cases hd : decode w with
  | command i => exact absurd (decode_eq_command_iff.1 hd) (hw i)
  | illegal cause => rw [cause_of_decode hd]

/-- Settles O2, word by word. -/
theorem specWordsDecode : Obligations.SpecWordsDecode := by
  unfold Obligations.SpecWordsDecode
  decide

end Sys2Proof.Machine

/-! SUPPORT and the settling of O3. What an offset of the window names above the last single register, by the range it
lies in, and the three tables' offsets. -/

namespace Sys2Proof.Machine

/-- R109 to R111: an offset above `NNODE` lies in one of the three tables and names an entry, or it names nothing. -/
theorem ofOffset_cases {off : Nat} (h : 0x0048 < off) :
    (0x0400 ≤ off ∧ off < 0x0800 ∧ WindowReg.ofOffset off = .freq (BitVec.ofNat 8 ((off - 0x0400) / 4))) ∨
    (0x4000 ≤ off ∧ off < 0x8000 ∧ WindowReg.ofOffset off =
      .code (BitVec.ofNat 8 ((off - 0x4000) / 64)) (Fin.ofNat 16 ((off - 0x4000) / 4))) ∨
    (∃ hi : (off - 0x1000) / 16 < 511, 0x1000 ≤ off ∧ off < 0x2FF0 ∧ WindowReg.ofOffset off =
      .node ⟨(off - 0x1000) / 16, hi⟩ (Fin.ofNat 4 ((off - 0x1000) / 4))) ∨
    (¬ (0x0400 ≤ off ∧ off < 0x0800) ∧ ¬ (0x4000 ≤ off ∧ off < 0x8000) ∧ ¬ (0x1000 ≤ off ∧ off < 0x2FF0) ∧
      WindowReg.ofOffset off = .unused) := by
  unfold WindowReg.ofOffset
  split
  case h_19 =>
    split
    · exact .inl ⟨by omega, by omega, rfl⟩
    · split
      · exact .inr (.inl ⟨by omega, by omega, rfl⟩)
      · split
        · exact .inr (.inr (.inl ⟨by omega, by omega, by omega, rfl⟩))
        · exact .inr (.inr (.inr ⟨by assumption, by assumption, by assumption, rfl⟩))
  all_goals omega

/-- R109. -/
theorem ofOffset_freq (x : Byte) : WindowReg.ofOffset (0x0400 + 4 * x.toNat) = .freq x := by
  have hx := x.isLt
  rcases ofOffset_cases (off := 0x0400 + 4 * x.toNat) (by omega) with
    ⟨-, -, h⟩ | ⟨_, -⟩ | ⟨-, _, -⟩ | ⟨hf, -⟩
  · rw [h, show (0x0400 + 4 * x.toNat - 0x0400) / 4 = x.toNat by omega, BitVec.ofNat_toNat, BitVec.setWidth_eq]
  all_goals omega

/-- R110. -/
theorem ofOffset_node (i : Fin 511) (w : Fin 4) :
    WindowReg.ofOffset (0x1000 + 16 * i.val + 4 * w.val) = .node i w := by
  rcases ofOffset_cases (off := 0x1000 + 16 * i.val + 4 * w.val) (by omega) with
    ⟨-, _, -⟩ | ⟨_, -⟩ | ⟨hi, -, -, h⟩ | ⟨-, -, hn, -⟩
  · omega
  · omega
  · rw [h]
    congr 1
    · exact Fin.ext (by dsimp only; omega)
    · exact Fin.ext (by rw [Fin.val_ofNat]; omega)
  · omega

/-- R111. -/
theorem ofOffset_code (x : Byte) (w : Fin 16) :
    WindowReg.ofOffset (0x4000 + 64 * x.toNat + 4 * w.val) = .code x w := by
  have hx := x.isLt
  rcases ofOffset_cases (off := 0x4000 + 64 * x.toNat + 4 * w.val) (by omega) with
    ⟨-, _, -⟩ | ⟨-, -, h⟩ | ⟨_, _, _, -⟩ | ⟨-, hc, -⟩
  · omega
  · rw [h, show (0x4000 + 64 * x.toNat + 4 * w.val - 0x4000) / 64 = x.toNat by omega, BitVec.ofNat_toNat,
      BitVec.setWidth_eq]
    exact congrArg _ (Fin.ext (by rw [Fin.val_ofNat]; omega))
  · omega
  · omega

/-- The offset of a register is an aligned offset of the window and names it (R108 to R111). -/
theorem ofOffset_of_offset {r : WindowReg} {off : Nat} (h : r.offset = some off) :
    off % 4 = 0 ∧ off < 0x8000 ∧ WindowReg.ofOffset off = r := by
  cases r with
  | freq x =>
    obtain rfl := Option.some.inj h
    exact ⟨by omega, by omega, ofOffset_freq x⟩
  | node i w =>
    obtain rfl := Option.some.inj h
    exact ⟨by omega, by omega, ofOffset_node i w⟩
  | code x w =>
    obtain rfl := Option.some.inj h
    exact ⟨by omega, by omega, ofOffset_code x w⟩
  | unused => cases h
  | _ =>
    obtain rfl := Option.some.inj h
    exact ⟨by decide, by decide, rfl⟩

theorem offset_ofOffset_low :
    ∀ off < 0x0049, WindowReg.ofOffset off ≠ .unused → (WindowReg.ofOffset off).offset = some off := by decide

/-- An aligned offset that names a register is its offset (R108 to R111). -/
theorem offset_ofOffset {off : Nat} (halign : off % 4 = 0) (hused : WindowReg.ofOffset off ≠ .unused) :
    (WindowReg.ofOffset off).offset = some off := by
  by_cases hlow : off < 0x0049
  · exact offset_ofOffset_low off hlow hused
  · rcases ofOffset_cases (off := off) (by omega) with
      ⟨hge, hlt, h⟩ | ⟨hge, hlt, h⟩ | ⟨_, hge, hlt, h⟩ | ⟨-, -, -, h⟩
    · rw [h, WindowReg.offset, BitVec.toNat_ofNat]
      exact congrArg some (by omega)
    · rw [h, WindowReg.offset, BitVec.toNat_ofNat, Fin.val_ofNat]
      exact congrArg some (by omega)
    · rw [h, WindowReg.offset, Fin.val_ofNat]
      exact congrArg some (by dsimp only; omega)
    · exact absurd h hused

/-- Settles O3: register by register one way, range by range the other. -/
theorem windowOffsetsRoundTrip : Obligations.WindowOffsetsRoundTrip :=
  ⟨fun _ _ => ofOffset_of_offset, fun _ halign _ => offset_ofOffset halign⟩

end Sys2Proof.Machine

/-! SUPPORT and the settling of O8 and O9. The words of the records of `NODE` and `CODE`, and the offsets of the window
that name nothing or a register the host cannot write. -/

namespace Sys2Proof.Machine

/-! ### The records -/

/-- R110. -/
theorem hostRead_node (s : State) {i : Nat} (h : i < 511) (w : Fin 4) :
    hostRead s (0x1000 + 16 * i + 4 * w.val) = s.node[i].word w :=
  congrArg (windowWord s) (ofOffset_node ⟨i, h⟩ w)

/-- R111. -/
theorem hostRead_code (s : State) (x : Byte) (w : Fin 16) :
    hostRead s (0x4000 + 64 * x.toNat + 4 * w.val) = (s.codeAt x).word w :=
  congrArg (windowWord s) (ofOffset_code x w)

/-- Two fields of a word that do not meet. -/
theorem toNat_or_shiftLeft {m n : Nat} (a : BitVec m) (b : BitVec n) {k : Nat} (hm : m ≤ k) (hn : n + k ≤ 32) :
    ((a.zeroExtend 32 ||| (b.zeroExtend 32 <<< k) : Word)).toNat = a.toNat + 2 ^ k * b.toNat := by
  have ha : a.toNat < 2 ^ k := a.isLt.trans_le (Nat.pow_le_pow_right (by decide) hm)
  have hb : b.toNat * 2 ^ k < 2 ^ 32 := calc
    b.toNat * 2 ^ k < 2 ^ n * 2 ^ k := Nat.mul_lt_mul_of_pos_right b.isLt (Nat.two_pow_pos k)
    _ = 2 ^ (n + k) := (Nat.pow_add 2 n k).symm
    _ ≤ 2 ^ 32 := Nat.pow_le_pow_right (by decide) hn
  rw [BitVec.toNat_or, BitVec.toNat_shiftLeft, BitVec.toNat_setWidth_of_le (by omega),
    BitVec.toNat_setWidth_of_le (by omega), Nat.shiftLeft_eq, Nat.mod_eq_of_lt hb, Nat.mul_comm, Nat.or_comm,
    ← Nat.two_pow_add_eq_or_of_lt ha, Nat.add_comm]

theorem Node.toNat_word_zero (n : Node) : (n.word 0).toNat = n.tag.code.toNat + 256 * n.sym.toNat :=
  toNat_or_shiftLeft n.tag.code n.sym (by decide) (by decide)

theorem Node.toNat_word_one (n : Node) : (n.word 1).toNat = n.weight.toNat % 2 ^ 32 := by
  simp [Node.word]

theorem Node.toNat_word_two (n : Node) : (n.word 2).toNat = n.weight.toNat / 2 ^ 32 := by
  have hw := n.weight.isLt
  simp only [Node.word, BitVec.truncate_eq_setWidth, BitVec.toNat_setWidth, BitVec.extractLsb'_toNat,
    Nat.shiftRight_eq_div_pow]
  omega

theorem Node.toNat_word_three (n : Node) : (n.word 3).toNat = n.left.toNat + 65536 * n.right.toNat :=
  toNat_or_shiftLeft n.left n.right (by decide) (by decide)

theorem CodeEntry.toNat_word_zero (e : CodeEntry) : (e.word 0).toNat = e.len.toNat :=
  BitVec.toNat_setWidth_of_le (b := e.len) (w' := 32) (by decide)

/-- Words 1 to 7 of a `CODE` record are reserved. -/
theorem CodeEntry.word_reserved (e : CodeEntry) {w : Fin 16} (h1 : 1 ≤ w.val) (h7 : w.val ≤ 7) : e.word w = 0 := by
  rw [CodeEntry.word, if_neg (by omega), if_pos (by omega)]

/-- Code bit `k` stands in word `8 + k / 32`, the first of the word's bits in its bit 31. -/
theorem CodeEntry.getLsbD_word (e : CodeEntry) {k : Nat} (hk : k < 256) {w : Fin 16} (hw : w.val = 8 + k / 32) :
    (e.word w).getLsbD (31 - k % 32) = e.bits.getLsbD (255 - k) := by
  rw [CodeEntry.word, if_neg (by omega), if_neg (by omega), BitVec.getLsbD_extractLsb',
    show 224 - 32 * (w.val - 8) + (31 - k % 32) = 255 - k by omega]
  simp [show 31 - k % 32 < 32 by omega]

/-! ### Offsets that name nothing -/

/-- R108: the offsets of the window that the register map does not list. -/
theorem ofOffset_unlisted {off : Nat}
    (h : off = 0x002C ∨ (0x004C ≤ off ∧ off < 0x0400) ∨ (0x0800 ≤ off ∧ off < 0x1000) ∨
      (0x2FF0 ≤ off ∧ off < 0x4000)) : WindowReg.ofOffset off = .unused := by
  rcases h with rfl | h
  · rfl
  · rcases ofOffset_cases (off := off) (by omega) with ⟨_, _, -⟩ | ⟨_, _, -⟩ | ⟨_, _, _, -⟩ | ⟨-, -, -, hunused⟩
    · omega
    · omega
    · omega
    · exact hunused

theorem hostRead_unlisted (s : State) {off : Nat} (h : WindowReg.ofOffset off = .unused) : hostRead s off = 0 :=
  congrArg (windowWord s) h

/-- Settles O8: each offset names a word of its record, and the fields stand in the words. -/
theorem tableRecordsRead : Obligations.TableRecordsRead := by
  intro s
  refine ⟨fun off _ hge hlt => hostRead_unlisted s (ofOffset_unlisted (by omega)), fun i hi => ⟨?_, ?_, ?_, ?_⟩,
    fun x => ⟨?_, fun w h1 h7 => ?_, fun k hk => ?_⟩⟩
  · refine (congrArg BitVec.toNat (hostRead_node s hi 0)).trans ((Node.toNat_word_zero _).trans ?_)
    cases s.node[i].tag <;> rfl
  · exact (congrArg BitVec.toNat (hostRead_node s hi 1)).trans (Node.toNat_word_one _)
  · exact (congrArg BitVec.toNat (hostRead_node s hi 2)).trans (Node.toNat_word_two _)
  · exact (congrArg BitVec.toNat (hostRead_node s hi 3)).trans (Node.toNat_word_three _)
  · exact (congrArg BitVec.toNat (hostRead_code s x 0)).trans (CodeEntry.toNat_word_zero _)
  · exact (hostRead_code s x ⟨w, by omega⟩).trans (CodeEntry.word_reserved _ h1 h7)
  · rw [hostRead_code s x ⟨8 + k / 32, by omega⟩, CodeEntry.getLsbD_word _ hk rfl]

/-! ### Offsets whose writes are ignored -/

/-- R253: the registers that a host write can change; a write to `CMD` issues a command. -/
def writable : WindowReg → Bool
  | .cmd | .errSticky | .srcAddr | .srcLen | .dstAddr | .dstCap | .opBitsLo | .opBitsHi | .opSyms | .freq _ => true
  | _ => false

theorem windowWrite_of_not_writable (s : State) {r : WindowReg} (v : Word) (h : writable r = false) :
    windowWrite s r v = s := by
  cases r with
  | errSticky | srcAddr | srcLen | dstAddr | dstCap | opBitsLo | opBitsHi | opSyms | freq _ => cases h
  | _ => rfl

/-- A write to a register other than `CMD` (R253). -/
theorem hostAccess_register (s : State) {off : Nat} (v : Word) (h : (HostOp.write off v).wellFormed = true)
    (hcmd : WindowReg.ofOffset off ≠ .cmd) :
    hostAccess s (.write off v) = .next (windowWrite s (WindowReg.ofOffset off) v) := by
  rw [hostAccess, if_pos h]
  simp only [hostWrite]

theorem write_wellFormed {off : Nat} (v : Word) (halign : off % 4 = 0) (hlt : off < 0x8000) :
    (HostOp.write off v).wellFormed = true := by
  simp [HostOp.wellFormed, halign, hlt]

theorem not_writable_low : ∀ off < 0x0049, off % 4 = 0 → (off = 0x0004 ∨ off = 0x0008 ∨ 0x002C ≤ off) →
    writable (WindowReg.ofOffset off) = false := by decide

/-- R108, R253: the offsets that are read-only or name nothing. -/
theorem not_writable_ofOffset {off : Nat} (halign : off % 4 = 0)
    (h : off = 0x0004 ∨ off = 0x0008 ∨ (0x002C ≤ off ∧ off < 0x0400) ∨ 0x0800 ≤ off) :
    writable (WindowReg.ofOffset off) = false := by
  by_cases hlow : off < 0x0049
  · exact not_writable_low off hlow halign (by omega)
  · rcases ofOffset_cases (off := off) (by omega) with ⟨_, _, -⟩ | ⟨-, -, hr⟩ | ⟨_, -, -, hr⟩ | ⟨-, -, -, hr⟩
    · omega
    all_goals rw [hr]; rfl

/-- Settles O9: the offsets that read 0 name nothing, and those whose writes are ignored name no register that can be
written. -/
theorem otherOffsetsReadZeroAndIgnoreWrites : Obligations.OtherOffsetsReadZeroAndIgnoreWrites := by
  refine ⟨fun s off _ h => hostRead_unlisted s (ofOffset_unlisted h), fun s off v rest hp hhost halign hlt h => ?_⟩
  have hfixed := not_writable_ofOffset halign h
  have hcmd : WindowReg.ofOffset off ≠ .cmd := fun hc => absurd (hc ▸ hfixed) (by decide)
  rw [step_of_host hp hhost, hostAccess_register _ v (write_wellFormed v halign hlt) hcmd,
    windowWrite_of_not_writable _ v hfixed]

end Sys2Proof.Machine

/-! SUPPORT and the settling of O60. A script line by line: a register write, and a command that leaves an error or
none. BUILD and GEN leave none, so TABLES and COMPRESS stop at COUNT or not before their last command. -/

namespace Sys2Proof.Machine

/-! ### Commands that leave no error -/

theorem execBuild_err {s t : State} (h : execBuild s = .next t) : t.status.err = 0 := by
  obtain ⟨u, hu, rfl⟩ := execBuild_treeOnly h
  exact (congrArg (fun v : State => v.status.err) hu :)

theorem execGen_err {s t : State} (h : execGen s = .next t) : t.status.err = 0 := by
  obtain ⟨u, hu, rfl⟩ := execGen_codesOnly h
  exact (congrArg (fun v : State => v.status.err) hu :)

/-! ### Lines of a script -/

/-- `WR off, v` with a value that stands in the script, to a register other than `CMD`. -/
theorem runScript_write {off : Nat} (v : Word) (rest : List ScriptLine) (e : ScriptVars) (s : State)
    (h : (HostOp.write off v).wellFormed = true) (hcmd : WindowReg.ofOffset off ≠ .cmd) :
    runScript (.op (.write off v) :: rest) e s = runScript rest e (windowWrite s (WindowReg.ofOffset off) v) := by
  have hplain : HostOp.isCommand (.write off v) = false := by
    cases off with
    | zero => exact absurd rfl hcmd
    | succ n => rfl
  simp [runScript, ScriptLine.hostOp, hostAccess_register s v h hcmd, hplain, bindRead]

section
variable {i : Instr} {s t : State} (rest : List ScriptLine) (e : ScriptVars)

/-- A script goes on after a command that leaves no error. -/
theorem runScript_command_next (h : exec i s = .next t) (herr : t.status.err = 0) :
    runScript (Script.command i :: rest) e s = runScript rest e t := by
  rw [runScript_command, h]
  exact if_pos herr

/-- A script stops at a command that leaves an error. -/
theorem runScript_command_stop (h : exec i s = .next t) (herr : t.status.err ≠ 0) :
    runScript (Script.command i :: rest) e s = .next t := by
  rw [runScript_command, h]
  exact if_neg herr

end

/-- The last line of a script, if it is a command, ends it with that command's outcome. -/
theorem runScript_command_last (i : Instr) (e : ScriptVars) (s : State) :
    runScript [Script.command i] e s = exec i s := by
  rw [runScript_command]
  cases exec i s with
  | next t => simp
  | fault f => rfl
  | refused r => rfl

/-! ### The pseudo-instructions -/

theorem run_setSrc (a n : Word) (s : State) :
    Script.run (Script.setSrc a n) s = .next { s with srcAddr := a, srcLen := n } := by
  rw [Script.run, Script.setSrc, runScript_write a _ _ _ rfl (by decide), runScript_write n _ _ _ rfl (by decide)]
  rfl

theorem run_setDst (a n : Word) (s : State) :
    Script.run (Script.setDst a n) s = .next { s with dstAddr := a, dstCap := n } := by
  rw [Script.run, Script.setDst, runScript_write a _ _ _ rfl (by decide), runScript_write n _ _ _ rfl (by decide)]
  rfl

theorem run_useBits (s : State) :
    Script.run Script.useBits s = .next { s with
      opBitsLo := s.resBits.extractLsb' 0 32, opBitsHi := s.resBits.extractLsb' 32 32
      replies := s.replies ++ [.word (s.resBits.extractLsb' 0 32), .word (s.resBits.extractLsb' 32 32)] } := by
  rw [Script.run, Script.useBits, runScript_readTo _ _ _ _ rfl, runScript_readTo _ _ _ _ rfl,
    runScript_writeFrom _ _ _ _ rfl (by decide), runScript_writeFrom _ _ _ _ rfl (by decide), runScript_nil,
    List.append_cons s.replies]
  rfl

/-- The two words of `RES_BITS` (R31). -/
theorem toNat_halves (v : BitVec 64) :
    (v.extractLsb' 32 32).toNat * 2 ^ 32 + (v.extractLsb' 0 32).toNat = v.toNat := by
  have hv := v.isLt
  simp only [BitVec.extractLsb'_toNat, Nat.shiftRight_eq_div_pow]
  omega

theorem run_useSyms (s : State) :
    Script.run Script.useSyms s = .next
      { s with opSyms := s.resSyms, replies := s.replies ++ [.word s.resSyms] } := by
  rw [Script.run, Script.useSyms, runScript_readTo _ _ _ _ rfl, runScript_writeFrom _ _ _ _ rfl (by decide)]
  rfl

/-- After COUNT, BUILD and GEN without error the rest of the script runs (R117). -/
theorem runScript_tables {s t1 t2 t3 : State} (rest : List ScriptLine) (e : ScriptVars)
    (hcount : exec .count s = .next t1) (herr : t1.status.err = 0) (hbuild : exec .build t1 = .next t2)
    (hgen : exec .gen t2 = .next t3) : runScript (Script.tables ++ rest) e s = runScript rest e t3 := by
  calc runScript (Script.tables ++ rest) e s
    _ = runScript (Script.command .build :: Script.command .gen :: rest) e t1 :=
      runScript_command_next _ e hcount herr
    _ = runScript (Script.command .gen :: rest) e t2 := runScript_command_next _ e hbuild (execBuild_err hbuild)
    _ = runScript rest e t3 := runScript_command_next rest e hgen (execGen_err hgen)

/-- Settles O60, script by script. -/
theorem pseudoInstructionsExpand : Obligations.PseudoInstructionsExpand := by
  intro s _
  refine ⟨fun a n => run_setSrc a n s, fun a n => run_setDst a n s, ⟨_, _, run_useBits s, toNat_halves s.resBits⟩,
    run_useSyms s, fun t hcount herr => ⟨?_, ?_⟩, fun t1 t2 t3 hcount herr hbuild hgen => ⟨?_, ?_⟩, ?_, ?_⟩
  · exact runScript_command_stop _ _ hcount herr
  · exact runScript_command_stop _ _ hcount herr
  · exact runScript_tables [] _ hcount herr hbuild hgen
  · exact (runScript_tables _ _ hcount herr hbuild hgen).trans (runScript_command_last .encode _ t3)
  · exact runScript_command_last .decodeB _ s
  · exact runScript_command_last .decodeS _ s

end Sys2Proof.Machine

/-! SUPPORT and the settling of O19 and O20. After `n` source bytes, and the common start and `C_CLEAR` before them,
`FREQ` is the Frequency Table of those bytes and `RES_SYMS` is `n`. -/

namespace Sys2Proof.Machine

/-! ### Frequency Tables -/

/-- The Frequency Table of `bs`, each count modulo 2^32. -/
def freqOf (bs : List Byte) : Vector Word 256 := Vector.ofFn fun i => BitVec.ofNat 32 (bs.count (BitVec.ofFin i))

theorem freqOf_get (bs : List Byte) (x : Byte) : (freqOf bs)[x.toNat]'x.isLt = BitVec.ofNat 32 (bs.count x) :=
  Vector.getElem_ofFn x.isLt

theorem freqOf_nil : freqOf [] = Vector.replicate 256 0 := by
  ext i hi
  simp [freqOf]

/-- One more byte adds 1 to the count of its symbol (R141). -/
theorem freqOf_concat (bs : List Byte) (b : Byte) :
    freqOf (bs ++ [b]) = (freqOf bs).set b.toNat ((freqOf bs)[b.toNat]'b.isLt + 1) b.isLt := by
  refine Vector.ext fun i hi => ?_
  have hget (cs : List Byte) : (freqOf cs)[i] = BitVec.ofNat 32 (cs.count (BitVec.ofFin ⟨i, hi⟩)) :=
    Vector.getElem_ofFn hi
  rw [hget, List.count_append]
  by_cases h : b.toNat = i
  · subst h
    rw [Vector.getElem_set_self, freqOf_get, BitVec.ofNat_add]
    simp
  · have hb : b ≠ BitVec.ofFin ⟨i, hi⟩ := fun hb => h (congrArg BitVec.toNat hb)
    rw [Vector.getElem_set_ne b.isLt hi h, hget, List.count_singleton, if_neg (by simpa using hb), Nat.add_zero]

/-- No count of fewer than 2^32 bytes wraps around (R140). -/
theorem isFreqOf_freqOf {bs : List Byte} (h : bs.length < 2 ^ 32) : isFreqOf (freqOf bs) bs := fun x => by
  rw [freqOf_get, BitVec.toNat_ofNat, Nat.mod_eq_of_lt (List.count_le_length.trans_lt h)]

/-- The counts of a Frequency Table sum to the length (R140). -/
theorem isFreqOf.sum {f : Vector Word 256} {bs : List Byte} (h : isFreqOf f bs) :
    (f.toList.map BitVec.toNat).sum = bs.length := by
  have hcounts : f.toList.map BitVec.toNat = List.ofFn fun i : Fin 256 => (bs.map BitVec.toFin).count i := by
    refine List.ext_getElem (by rw [List.length_map, Vector.length_toList, List.length_ofFn]) fun i hi _ => ?_
    have hi : i < 256 := by simpa using hi
    rw [List.getElem_map, Vector.getElem_toList, List.getElem_ofFn]
    exact (h (BitVec.ofFin ⟨i, hi⟩)).trans
      (List.count_map_of_injective bs BitVec.toFin (fun _ _ => BitVec.eq_of_toFin_eq) (BitVec.ofFin ⟨i, hi⟩)).symm
  have hsum := Multiset.sum_count_eq_card (s := Finset.univ) (m := (bs.map BitVec.toFin : Multiset (Fin 256)))
    fun _ _ => Finset.mem_univ _
  rw [hcounts, List.sum_ofFn]
  simpa using hsum

/-! ### The bytes of a buffer -/

theorem Memory.length_bytesFrom (m : Memory) (a n : Nat) : (m.bytesFrom a n).length = n := by
  simp [Memory.bytesFrom]

theorem Memory.bytesFrom_succ (m : Memory) (a n : Nat) :
    m.bytesFrom a (n + 1) = m.bytesFrom a n ++ [m.byte (a + n)] := by
  simp [Memory.bytesFrom, List.range_succ]

/-! ### The scan -/

/-- COUNT, started from `s`, after `n` source bytes have been counted. -/
def State.scanned (s : State) (n : Nat) : State :=
  { clearResults (clearError s) with
    freq := freqOf (s.mem.bytesFrom s.srcAddr.toNat n), resSyms := BitVec.ofNat 32 n }

/-- After `C_CLEAR` no byte has been counted. -/
theorem clearCounts_eq_scanned (s : State) : clearCounts (clearError s) = s.scanned 0 :=
  congrArg (fun f => { clearResults (clearError s) with freq := f }) freqOf_nil.symm

theorem scanned_srcByteAddr (s : State) {n : Nat} (hn : n < 2 ^ 32) :
    (s.scanned n).srcByteAddr (s.scanned n).resSyms.toNat = s.srcByteAddr n :=
  congrArg s.srcByteAddr (Nat.mod_eq_of_lt hn)

/-- A valid byte is counted, and the scan goes on (R141). -/
theorem countByte_scanned {s : State} {n : Nat} (hn : n < 2 ^ 32)
    (hvalid : s.platform.memValid (s.srcByteAddr n) = true) : countByte (s.scanned n) = .go (s.scanned (n + 1)) := by
  have hcases := countByte_cases (s.scanned n)
  simp only [scanned_srcByteAddr s hn] at hcases
  obtain ⟨hinvalid, -⟩ | ⟨-, hgo⟩ := hcases
  · exact absurd (hvalid.symm.trans hinvalid) (by decide)
  · rw [hgo]
    unfold State.scanned
    rw [Memory.bytesFrom_succ, freqOf_concat, BitVec.ofNat_add]
    rfl

/-- An invalid byte ends the scan (R144). -/
theorem countByte_scanned_invalid {s : State} {n : Nat} (hn : n < 2 ^ 32)
    (hinvalid : s.platform.memValid (s.srcByteAddr n) = false) :
    countByte (s.scanned n) = .ended (raise (s.scanned n) (.ioRead (s.srcByteAddr n))) := by
  have hcases := countByte_cases (s.scanned n)
  simp only [scanned_srcByteAddr s hn] at hcases
  obtain ⟨-, hended⟩ | ⟨hvalid, -⟩ := hcases
  · exact hended
  · exact absurd (hvalid.symm.trans hinvalid) (by decide)

/-- The scan of `n` valid bytes. -/
theorem loop_countByte {s : State} {n : Nat} (hn : n ≤ 2 ^ 32) (hvalid : s.srcValid n) :
    Ctl.loop countByte n (s.scanned 0) = .go (s.scanned n) := by
  induction n with
  | zero => rfl
  | succ n ih =>
    rw [Ctl.loop_add, ih (by omega) fun i hi => hvalid i (by omega), Ctl.andThen_go, Ctl.loop_succ,
      countByte_scanned (by omega) (hvalid n (by omega)), Ctl.andThen_go, Ctl.loop_zero]

theorem execCount_eq (s : State) : execCount s = (Ctl.loop countByte s.srcLen.toNat (s.scanned 0)).finish :=
  congrArg (fun t => (Ctl.loop countByte s.srcLen.toNat t).finish) (clearCounts_eq_scanned s)

/-! ### The whole command -/

/-- The end of a command that has done nothing after the common start (R250). -/
theorem commandEnd_zero (s : State) : s.commandEnd 0 0 0 0 = toIdle (clearError s) :=
  congrArg (fun x => { toIdle (clearError s) with errSticky := x }) BitVec.or_zero

/-- The end after `n` bytes, without error. -/
theorem toIdle_scanned (s : State) (n : Nat) :
    toIdle (s.scanned n) =
      { s.commandEnd 0 0 0 0 with
        freq := freqOf (s.mem.bytesFrom s.srcAddr.toNat n), resBits := 0, resSyms := BitVec.ofNat 32 n
        resBytes := 0 } := by
  rw [commandEnd_zero]
  rfl

/-- Settles O19: the scan runs over the whole buffer. -/
theorem countCountsTheSource : Obligations.CountCountsTheSource := by
  intro s hvalid
  have hlen : s.srcBytes.length = s.srcLen.toNat := Memory.length_bytesFrom _ _ _
  have hfreq : isFreqOf (freqOf s.srcBytes) s.srcBytes := isFreqOf_freqOf (hlen ▸ s.srcLen.isLt)
  refine ⟨freqOf s.srcBytes, ?_, hfreq, hfreq.sum.trans hlen⟩
  calc execCount s
    _ = .next (toIdle (s.scanned s.srcLen.toNat)) := by
      rw [execCount_eq, loop_countByte s.srcLen.isLt.le hvalid, Ctl.finish_go]
    _ = _ := by rw [toIdle_scanned, BitVec.ofNat_toNat, BitVec.setWidth_eq]; rfl

/-- Settles O20: the scan runs up to byte `i`, whose read raises `IoError(READ)`; the start of the command has cleared
every earlier error, so this one is recorded. -/
theorem countStopsAtAnInvalidByte : Obligations.CountStopsAtAnInvalidByte := by
  intro s i hi hvalid hinvalid
  have hlt : i < 2 ^ 32 := hi.trans s.srcLen.isLt
  obtain ⟨m, hm⟩ : ∃ m, s.srcLen.toNat = i + (m + 1) := ⟨s.srcLen.toNat - i - 1, by omega⟩
  refine ⟨_, ?_, isFreqOf_freqOf (by rwa [Memory.length_bytesFrom])⟩
  calc execCount s
    _ = .next (toIdle (raise (s.scanned i) (.ioRead (s.srcByteAddr i)))) := by
      rw [execCount_eq, hm, Ctl.loop_add, loop_countByte hlt.le hvalid, Ctl.andThen_go, Ctl.loop_succ,
        countByte_scanned_invalid hlt hinvalid, Ctl.andThen_ended, Ctl.finish_ended]
    _ = _ := rfl

end Sys2Proof.Machine

/-! SUPPORT and the settling of O28 and O29: the keys of R157 as numbers, the member that the queue's search
finds, and the two members that a merge joins. -/

namespace Sys2Proof.Machine

/-! ### The order of the keys -/

/-- The key of `i` as one number: the weight, then the index, which has 9 bits (R157). -/
def keyNum (node : Vector Node 511) (i : Idx) : Nat := (nodeWeight node i).toNat * 2 ^ 9 + i.toNat

theorem keyLess_iff {node : Vector Node 511} {i j : Idx} :
    keyLess node i j = true ↔
      (nodeWeight node i).toNat < (nodeWeight node j).toNat ∨
        ((nodeWeight node i).toNat = (nodeWeight node j).toNat ∧ i.toNat < j.toNat) := by
  simp [keyLess, BitVec.lt_def, BitVec.toNat_inj]

theorem keyLess_iff_keyNum {node : Vector Node 511} {i j : Idx} :
    keyLess node i j = true ↔ keyNum node i < keyNum node j := by
  rw [keyLess_iff, keyNum, keyNum]
  omega

theorem keyLess_eq_false_iff {node : Vector Node 511} {i j : Idx} :
    keyLess node i j = false ↔ keyNum node j ≤ keyNum node i := by
  rw [← Bool.not_eq_true, keyLess_iff_keyNum, Nat.not_lt]

/-- Different indices have different keys (R157). -/
theorem keyNum_inj {node : Vector Node 511} {i j : Idx} (h : keyNum node i = keyNum node j) : i = j := by
  unfold keyNum at h
  bv_omega

theorem keyLess_of_le_of_ne {node : Vector Node 511} {i j : Idx} (hle : keyNum node i ≤ keyNum node j) (hne : i ≠ j) :
    keyLess node i j = true :=
  keyLess_iff_keyNum.2 (Nat.lt_of_le_of_ne hle (mt keyNum_inj hne))

/-! ### The member with the least key -/

theorem keyNum_pqLeast_le (node : Vector Node 511) (m : Idx) (pq : List Idx) :
    ∀ i ∈ m :: pq, keyNum node (pqLeast node m pq) ≤ keyNum node i := by
  induction pq generalizing m with
  | nil => simp [pqLeast]
  | cons j rest ih =>
    rw [pqLeast]
    obtain ⟨m', hm', hle, hlej⟩ : ∃ m', (if keyLess node j m then j else m) = m' ∧
        keyNum node m' ≤ keyNum node m ∧ keyNum node m' ≤ keyNum node j := by
      split
      · exact ⟨j, rfl, (keyLess_iff_keyNum.1 ‹_›).le, Nat.le_refl _⟩
      · exact ⟨m, rfl, Nat.le_refl _, keyLess_eq_false_iff.1 (Bool.eq_false_of_not_eq_true ‹_›)⟩
    rw [hm']
    intro i hi
    obtain rfl | rfl | hi : i = m ∨ i = j ∨ i ∈ rest := by simpa using hi
    · exact (ih m' m' List.mem_cons_self).trans hle
    · exact (ih m' m' List.mem_cons_self).trans hlej
    · exact ih m' i (List.mem_cons_of_mem _ hi)

/-- R163: `extractMin` of a queue with a member takes out the one with the least key. -/
theorem pqExtractMin_least {node : Vector Node 511} {pq : List Idx} (h : pq ≠ []) :
    ∃ m, pqExtractMin node pq = some (m, pq.erase m) ∧ m ∈ pq ∧ ∀ i ∈ pq, keyNum node m ≤ keyNum node i := by
  cases pq with
  | nil => exact absurd rfl h
  | cons i rest => exact ⟨_, rfl, pqLeast_mem node i rest, keyNum_pqLeast_le node i rest⟩

/-- Only one member has the least key (R157). -/
theorem pqExtractMin_eq {node : Vector Node 511} {pq : List Idx} {m : Idx} (hm : m ∈ pq)
    (hle : ∀ i ∈ pq, keyNum node m ≤ keyNum node i) : pqExtractMin node pq = some (m, pq.erase m) := by
  obtain ⟨m', hext, hmem, hle'⟩ := pqExtractMin_least (node := node) (List.ne_nil_of_mem hm)
  rwa [keyNum_inj (Nat.le_antisymm (hle m' hmem) (hle' m hm))]

/-- Settles O28: the key as one number is injective, and the search keeps the least key met so far. -/
theorem extractMinTakesTheLeastKey : Obligations.ExtractMinTakesTheLeastKey := by
  refine ⟨fun node i j => ⟨keyLess_iff, fun hne => ?_⟩, fun node pq hpq => ?_⟩
  · rw [keyLess_iff_keyNum, keyLess_eq_false_iff]
    exact ⟨Nat.le_of_lt, fun hle => Nat.lt_of_le_of_ne hle (mt keyNum_inj hne)⟩
  · obtain ⟨m, hext, hmem, hle⟩ := pqExtractMin_least (node := node) hpq
    exact ⟨m, hext, hmem, fun i hi hne => keyLess_of_le_of_ne (hle i hi) hne.symm⟩

/-! ### A merge -/

/-- The merge of the two members that are extracted one after the other (R153). -/
theorem mergeOnce_of_extract {s : State} {a b : Idx} {r rest : List Idx}
    (ha : pqExtractMin s.node s.merge.pq = some (a, r)) (hb : pqExtractMin s.node r = some (b, rest)) :
    mergeOnce s =
      some (newNode (s.extracted a b rest) (joinEntry (nodeWeight s.node a + nodeWeight s.node b) a b)) := by
  simp [mergeOnce, extractFirst, extractSecond, ha, hb, mergePair, State.extracted, joinEntry]

theorem mergeLoop_succ (n : Nat) {s t : State} (hmore : 1 < s.merge.pq.length) (h : mergeOnce s = some t) :
    mergeLoop (n + 1) s = mergeLoop n t := by
  rw [mergeLoop, if_pos hmore, h]

/-- Settles O29: the second extraction is from the queue without the first member, which is in it only once. -/
theorem mergeJoinsTheTwoLeast : Obligations.MergeJoinsTheTwoLeast := by
  intro s hlen hnodup hk
  obtain ⟨a, ha, hamem, hale⟩ :=
    pqExtractMin_least (node := s.node) (List.ne_nil_of_length_pos (Nat.lt_of_lt_of_le (by decide) hlen))
  have hrest : 0 < (s.merge.pq.erase a).length := by
    rw [List.length_erase_of_mem hamem]
    omega
  obtain ⟨b, hb, hbmem, hble⟩ := pqExtractMin_least (node := s.node) (List.ne_nil_of_length_pos hrest)
  obtain ⟨hne, hbq⟩ := hnodup.mem_erase_iff.1 hbmem
  refine ⟨a, b, _, mergeOnce_of_extract ha hb, hamem, hbq, keyLess_of_le_of_ne (hale b hbq) hne.symm,
    fun i hi hia hib => keyLess_of_le_of_ne (hble i (hnodup.mem_erase_iff.2 ⟨hia, hi⟩)) hib.symm, ?_, fun i hi => ?_,
    .rfl, rfl⟩
  · exact Vector.getElem?_setIfInBounds_self_of_lt hk
  · exact Vector.getElem?_setIfInBounds_ne hi.symm

end Sys2Proof.Machine

/-! SUPPORT and the settling of O30: the heap of R164. While a sift runs, heap order holds but for one place, which each
round moves one level up or down. -/

namespace Sys2Proof.Machine

/-! ### Positions of a heap -/

/-- The key of the member at position `p`. -/
def heapKey (node : Vector Node 511) (h : List Idx) (p : Nat) : Nat := keyNum node (heapAt h p)

theorem heapAt_eq_getElem {h : List Idx} {p : Nat} (hp : p < h.length) : heapAt h p = h[p] :=
  List.getD_eq_getElem h 0 hp

theorem heapAt_append_left {h : List Idx} (t : List Idx) {p : Nat} (hp : p < h.length) :
    heapAt (h ++ t) p = heapAt h p := List.getD_append h t 0 p hp

@[simp] theorem length_heapSwap (h : List Idx) (p q : Nat) : (heapSwap h p q).length = h.length := by
  simp [heapSwap]

theorem heapSwap_perm {h : List Idx} {p q : Nat} (hp : p < h.length) (hq : q < h.length) : (heapSwap h p q).Perm h := by
  rw [heapSwap, heapAt_eq_getElem hp, heapAt_eq_getElem hq]
  exact List.set_set_perm hp hq

theorem heapAt_heapSwap {h : List Idx} {p q : Nat} (hp : p < h.length) (hq : q < h.length) (x : Nat) :
    heapAt (heapSwap h p q) x = if x = q then heapAt h p else if x = p then heapAt h q else heapAt h x := by
  simp only [heapAt, heapSwap, List.getD_eq_getElem?_getD, List.getElem?_set, List.length_set, eq_comm (b := x), hp, hq,
    if_true]
  split_ifs <;> rfl

theorem heapKey_heapSwap {h : List Idx} {p q : Nat} (node : Vector Node 511) (hp : p < h.length) (hq : q < h.length)
    (x : Nat) :
    heapKey node (heapSwap h p q) x =
      if x = q then heapKey node h p else if x = p then heapKey node h q else heapKey node h x := by
  rw [heapKey, heapAt_heapSwap hp hq, apply_ite (keyNum node), apply_ite (keyNum node)]
  rfl

/-! ### Heap order -/

/-- The heap order of R164, seen from the child: the parent of position `d` is `(d - 1) / 2`. -/
def HeapOrdered (node : Vector Node 511) (h : List Idx) : Prop :=
  ∀ d, 0 < d → d < h.length → heapKey node h ((d - 1) / 2) ≤ heapKey node h d

/-- The heap order, seen from the parent. -/
theorem heapOrdered_iff {node : Vector Node 511} {h : List Idx} :
    HeapOrdered node h ↔ ∀ p c, (c = 2 * p + 1 ∨ c = 2 * p + 2) → c < h.length →
      keyLess node (heapAt h c) (heapAt h p) = false := by
  simp only [keyLess_eq_false_iff]
  constructor
  · intro hord p c hc hlt
    have hp : (c - 1) / 2 = p := by omega
    exact hp ▸ hord c (by omega) hlt
  · intro hord d hd hlt
    exact hord _ _ (by omega) hlt

/-- The root of a heap has the least key. -/
theorem HeapOrdered.root_le {node : Vector Node 511} {h : List Idx} (hord : HeapOrdered node h) (d : Nat)
    (hd : d < h.length) : heapKey node h 0 ≤ heapKey node h d := by
  induction d using Nat.strong_induction_on with
  | h d ih =>
    rcases Nat.eq_zero_or_pos d with rfl | hpos
    · exact Nat.le_refl _
    · exact (ih _ (by omega) (by omega)).trans (hord d hpos hd)

/-- Heap order but for the positions in `bad`, which meet at `c`; the children of `c` are in order with its parent. -/
structure HeapBut (bad : Nat → Prop) (node : Vector Node 511) (h : List Idx) (c : Nat) : Prop where
  order : ∀ d, 0 < d → d < h.length → ¬ bad d → heapKey node h ((d - 1) / 2) ≤ heapKey node h d
  skip : 0 < c → ∀ d, 0 < d → d < h.length → (d - 1) / 2 = c → heapKey node h ((c - 1) / 2) ≤ heapKey node h d

/-- One round of `insert`'s loop moves the position that may be out of order to its parent. -/
theorem HeapBut.up {node : Vector Node 511} {h : List Idx} {c : Nat} (hb : HeapBut (· = c) node h c) (hpos : 0 < c)
    (hc : c < h.length) (hless : heapKey node h c < heapKey node h ((c - 1) / 2)) :
    HeapBut (· = (c - 1) / 2) node (heapSwap h c ((c - 1) / 2)) ((c - 1) / 2) := by
  obtain ⟨horder, hskip⟩ := hb
  have hp : (c - 1) / 2 < h.length := by omega
  generalize hpc : (c - 1) / 2 = p at *
  refine ⟨fun d hd hlt hbad => ?_, fun hp0 d hd hlt hdp => ?_⟩
  all_goals
    rw [length_heapSwap] at hlt
    rw [heapKey_heapSwap node hc hp, heapKey_heapSwap node hc hp]
  · rw [if_neg hbad]
    by_cases hdc : d = c
    · rw [if_pos (hdc ▸ hpc), if_pos hdc]
      exact hless.le
    · rw [if_neg hdc]
      have hold := horder d hd hlt hdc
      split_ifs with hdp hdc'
      · exact hless.le.trans (hdp ▸ hold)
      · exact hskip hpos d hd hlt hdc'
      · exact hold
  · have habove := horder p hp0 hp (by omega)
    rw [if_neg (by omega : (p - 1) / 2 ≠ p), if_neg (by omega : (p - 1) / 2 ≠ c), if_neg (by omega : d ≠ p)]
    split_ifs with hdc
    · exact habove
    · exact habove.trans (hdp ▸ horder d hd hlt hdc)

/-- Sifting up restores the heap order and keeps the members (R164). -/
theorem siftUp_spec {node : Vector Node 511} (fuel : Nat) {c : Nat} {h : List Idx} (hfuel : c ≤ fuel)
    (hc : c < h.length) (hb : HeapBut (· = c) node h c) :
    (siftUp node fuel c h).Perm h ∧ HeapOrdered node (siftUp node fuel c h) := by
  induction fuel generalizing c h with
  | zero => exact ⟨.rfl, fun d hd hlt => hb.order d hd hlt (by omega)⟩
  | succ fuel ih =>
    rw [siftUp]
    split
    · rename_i hcond
      obtain ⟨hpos, hless⟩ : 0 < c ∧ heapLess node h c ((c - 1) / 2) = true := by simpa using hcond
      obtain ⟨hperm, hord⟩ :=
        ih (by omega) (by rw [length_heapSwap]; omega) (hb.up hpos hc (keyLess_iff_keyNum.1 hless))
      exact ⟨hperm.trans (heapSwap_perm hc (by omega)), hord⟩
    · rename_i hcond
      refine ⟨.rfl, fun d hd hlt => ?_⟩
      by_cases hdc : d = c
      · subst hdc
        exact keyLess_eq_false_iff.1 (by simpa [heapLess, hd] using hcond)
      · exact hb.order d hd hlt hdc

/-- The position where a round of `extractMin`'s loop goes on: the child with the least key, if that is less than the
parent's (R164). -/
theorem leastChild_cases (node : Vector Node 511) (h : List Idx) (p : Nat) :
    (leastChild node h p = p ∧ ∀ d, 0 < d → d < h.length → (d - 1) / 2 = p → heapKey node h p ≤ heapKey node h d) ∨
    (0 < leastChild node h p ∧ leastChild node h p < h.length ∧ (leastChild node h p - 1) / 2 = p ∧
      heapKey node h (leastChild node h p) < heapKey node h p ∧
      ∀ d, 0 < d → d < h.length → (d - 1) / 2 = p → heapKey node h (leastChild node h p) ≤ heapKey node h d) := by
  have hless (x y : Nat) : heapLess node h x y = true ↔ heapKey node h x < heapKey node h y := keyLess_iff_keyNum
  have hboth {k : Nat} (hl : 2 * p + 1 < h.length → k ≤ heapKey node h (2 * p + 1))
      (hr : 2 * p + 2 < h.length → k ≤ heapKey node h (2 * p + 2)) :
      ∀ d, 0 < d → d < h.length → (d - 1) / 2 = p → k ≤ heapKey node h d := by
    intro d hd hlt hdp
    obtain rfl | rfl : d = 2 * p + 1 ∨ d = 2 * p + 2 := by omega
    · exact hl hlt
    · exact hr hlt
  unfold leastChild
  simp only [Bool.and_eq_true, decide_eq_true_eq, hless]
  split_ifs with hl hr hr
  · exact .inr ⟨by omega, hr.1, by omega, hr.2.trans hl.2, hboth (by omega) (by omega)⟩
  · exact .inr ⟨by omega, hl.1, by omega, hl.2, hboth (by omega) (by omega)⟩
  · exact .inr ⟨by omega, hr.1, by omega, hr.2, hboth (by omega) (by omega)⟩
  · exact .inl ⟨rfl, hboth (by omega) (by omega)⟩

/-- One round of `extractMin`'s loop moves the position whose children may be out of order to its least child. -/
theorem HeapBut.down {node : Vector Node 511} {h : List Idx} {p t : Nat}
    (hb : HeapBut (fun d => (d - 1) / 2 = p) node h p) (hpos : 0 < t) (ht : t < h.length) (hchild : (t - 1) / 2 = p)
    (hless : heapKey node h t < heapKey node h p)
    (hleast : ∀ d, 0 < d → d < h.length → (d - 1) / 2 = p → heapKey node h t ≤ heapKey node h d) :
    HeapBut (fun d => (d - 1) / 2 = t) node (heapSwap h t p) t := by
  obtain ⟨horder, hskip⟩ := hb
  have hp : p < h.length := by omega
  refine ⟨fun d hd hlt hbad => ?_, fun _ d hd hlt hdt => ?_⟩
  all_goals
    rw [length_heapSwap] at hlt
    rw [heapKey_heapSwap node ht hp, heapKey_heapSwap node ht hp]
  · by_cases hdp : (d - 1) / 2 = p
    · rw [if_pos hdp, if_neg (by omega : d ≠ p)]
      split_ifs
      · exact hless.le
      · exact hleast d hd hlt hdp
    · rw [if_neg hdp, if_neg hbad, if_neg (by rintro rfl; exact hdp hchild : d ≠ t)]
      split_ifs with h
      · exact h ▸ hskip (h ▸ hd) t hpos ht hchild
      · exact horder d hd hlt hdp
  · rw [if_pos hchild, if_neg (by omega : d ≠ p), if_neg (by omega : d ≠ t)]
    exact hdt ▸ horder d hd hlt (by omega)

/-- Sifting down restores the heap order and keeps the members (R164). -/
theorem siftDown_spec {node : Vector Node 511} (fuel : Nat) {p : Nat} {h : List Idx} (hfuel : h.length ≤ p + fuel)
    (hb : HeapBut (fun d => (d - 1) / 2 = p) node h p) :
    (siftDown node fuel p h).Perm h ∧ HeapOrdered node (siftDown node fuel p h) := by
  induction fuel generalizing p h with
  | zero => exact ⟨.rfl, fun d hd (hlt : d < h.length) => hb.order d hd hlt (by omega)⟩
  | succ fuel ih =>
    rw [siftDown]
    rcases leastChild_cases node h p with ⟨hstop, hle⟩ | ⟨hpos, ht, hchild, hless, hleast⟩
    · rw [if_pos hstop]
      refine ⟨.rfl, fun d hd hlt => ?_⟩
      by_cases hdp : (d - 1) / 2 = p
      · rw [hdp]; exact hle d hd hlt hdp
      · exact hb.order d hd hlt hdp
    · rw [if_neg (by omega)]
      obtain ⟨hperm, hord⟩ :=
        ih (by rw [length_heapSwap]; omega) (hb.down hpos ht hchild hless hleast)
      exact ⟨hperm.trans (heapSwap_perm ht (by omega)), hord⟩

/-! ### The two operations -/

/-- `insert` keeps the heap order and adds one member. -/
theorem heapInsert_spec {node : Vector Node 511} {h : List Idx} (hord : HeapOrdered node h) (i : Idx) :
    (heapInsert node h i).Perm (i :: h) ∧ HeapOrdered node (heapInsert node h i) := by
  have hb : HeapBut (· = h.length) node (h ++ [i]) h.length := by
    refine ⟨fun d hd hlt hne => ?_, fun _ d hd hlt hdp => ?_⟩
    all_goals rw [List.length_append, List.length_singleton] at hlt
    · rw [heapKey, heapKey, heapAt_append_left [i] (by omega), heapAt_append_left [i] (by omega)]
      exact hord d hd (by omega)
    · omega
  obtain ⟨hperm, hheap⟩ := siftUp_spec h.length (Nat.le_refl _) (by simp) hb
  exact ⟨hperm.trans (List.perm_append_singleton i h), hheap⟩

/-- `extractMin` takes the root and leaves a heap of the other members. -/
theorem heapExtractMin_spec {node : Vector Node 511} {m : Idx} {rest : List Idx} (hord : HeapOrdered node (m :: rest)) :
    ∃ h', heapExtractMin node (m :: rest) = some (m, h') ∧ h'.Perm rest ∧ HeapOrdered node h' := by
  rw [heapExtractMin]
  cases hlast : rest.getLast? with
  | none =>
    rw [List.getLast?_eq_none_iff] at hlast
    exact ⟨[], rfl, hlast ▸ .rfl, fun d _ hlt => absurd hlt (Nat.not_lt_zero d)⟩
  | some last =>
    obtain ⟨init, rfl⟩ := List.getLast?_eq_some_iff.1 hlast
    have hb : HeapBut (fun d => (d - 1) / 2 = 0) node (last :: init) 0 := by
      refine ⟨fun d hd hlt hne => ?_, fun h0 => absurd h0 (Nat.lt_irrefl 0)⟩
      have hkey (e : Nat) (he : 0 < e) (hle : e ≤ d) :
          heapKey node (last :: init) e = heapKey node (m :: (init ++ [last])) e := by
        obtain ⟨e, rfl⟩ := Nat.exists_eq_succ_of_ne_zero (Nat.ne_of_gt he)
        rw [List.length_cons] at hlt
        exact congrArg (keyNum node) (heapAt_append_left (h := init) [last] (by omega)).symm
      rw [hkey d hd (Nat.le_refl _), hkey _ (by omega) (by omega)]
      exact hord d hd (by simpa using Nat.lt_succ_of_lt hlt)
    obtain ⟨hperm, hheap⟩ := siftDown_spec (init ++ [last]).length (by simp) hb
    rw [List.dropLast_concat]
    exact ⟨_, rfl, hperm.trans (List.perm_append_singleton last init).symm, hheap⟩

/-- The root is what the abstract queue extracts. -/
theorem HeapOrdered.pqExtractMin {node : Vector Node 511} {m : Idx} {rest : List Idx}
    (hord : HeapOrdered node (m :: rest)) : pqExtractMin node (m :: rest) = some (m, (m :: rest).erase m) := by
  refine pqExtractMin_eq List.mem_cons_self fun i hi => ?_
  obtain ⟨d, hd, rfl⟩ := List.getElem_of_mem hi
  rw [← heapAt_eq_getElem hd]
  exact hord.root_le d hd

/-- Settles O30: sifting moves the one place that may be out of order up or down until there is none, and the root of a
heap has the least key. -/
theorem heapExtractsLikeTheQueue : Obligations.HeapExtractsLikeTheQueue := by
  intro node h _ hord
  rw [← heapOrdered_iff] at hord
  refine ⟨fun i _ => ?_, fun hne => ?_⟩
  · rw [← heapOrdered_iff]
    exact heapInsert_spec hord i
  · obtain ⟨m, rest, rfl⟩ := List.exists_cons_of_ne_nil hne
    obtain ⟨h', hext, hperm, hheap⟩ := heapExtractMin_spec hord
    exact ⟨m, h', hext, hord.pqExtractMin, by rwa [List.erase_cons_head], heapOrdered_iff.1 hheap⟩

end Sys2Proof.Machine

/-! SUPPORT and the settling of O21 to O25: what BUILD writes and what it reads. The leaves are those of `leavesOf`, the
placeholder among them if there is one symbol, and the tree registers depend on their number alone. -/

namespace Sys2Proof.Machine

/-! ### What BUILD writes -/

/-- The state that BUILD leaves, but for the tree and its registers (R153, R162). -/
theorem execBuild_frame {s t : State} (h : execBuild s = .next t) :
    t = { s.commandEnd 0 0 0 0 with
      status := { err := 0, treeValid := t.status.treeValid, sub := 0 }
      root := t.root, nleaf := t.nleaf, nnode := t.nnode, node := t.node
      code := Vector.replicate 256 CodeEntry.none } := by
  obtain ⟨u, hu, rfl⟩ := execBuild_treeOnly h
  rw [commandEnd_zero]
  exact congrArg toIdle hu

/-- `TREE_VALID` after BUILD (R151, R153). -/
theorem execBuild_treeValid {s t : State} (h : execBuild s = .next t) :
    t.status.treeValid = decide (presentSymbols s ≠ []) := by
  by_cases hkeys : presentSymbols s = []
  · simpa [hkeys] using (noTree_of_execBuild hkeys h).1
  · obtain ⟨t', leaves, es, ht', hbuilt⟩ := execBuild_built hkeys
    cases Host.Outcome.next.inj (ht'.symm.trans h)
    simpa [hkeys] using hbuilt.valid

/-- Settles O23: what BUILD writes, with `TREE_VALID` by the cases of a table without and with a key. -/
theorem buildWritesOnlyTheTree : Obligations.BuildWritesOnlyTheTree := by
  intro s
  have h := execBuild_eq s
  exact ⟨_, h, execBuild_treeValid h ▸ execBuild_frame h⟩

/-- Settles O21: BUILD leaves no tree, and what it writes beside the tree is known. -/
theorem buildOfAnEmptyTable : Obligations.BuildOfAnEmptyTable := by
  intro s hfreq
  have hkeys : presentSymbols s = [] := List.filter_eq_nil_iff.2 fun x _ => by simp [hfreq x]
  have h := execBuild_eq s
  have hframe := execBuild_frame h
  obtain ⟨hvalid, hroot, hnleaf, hnnode, hnode⟩ := noTree_of_execBuild hkeys h
  rw [hvalid, hroot, hnleaf, hnnode, hnode] at hframe
  exact h.trans (congrArg Host.Outcome.next hframe)

/-! ### The leaves -/

/-- The leaves of BUILD's tree for the counts that `s` holds: one for each symbol with a count, and the placeholder if
there is one such symbol (R152, R155). -/
def leavesOf (s : State) : List Node :=
  (presentSymbols s).map (leafEntry s) ++ if (presentSymbols s).length = 1 then [placeholderEntry] else []

theorem length_leavesOf (s : State) :
    (leavesOf s).length = if (presentSymbols s).length = 1 then 2 else (presentSymbols s).length := by
  unfold leavesOf
  split_ifs with h <;> simp [h]

theorem isLeaves_leavesOf {s : State} (h : presentSymbols s ≠ []) : IsLeaves s (leavesOf s) := by
  unfold leavesOf
  split_ifs with hone
  · exact isLeaves_of_one hone
  · have := List.length_pos_iff.2 h
    simpa using isLeaves_of_two (s := s) (by omega)

/-- Phase `B_PH` (R155): the placeholder is added to a single leaf. -/
def withPlaceholder (s : State) : State := if s.merge.k = 1 then addPlaceholder s else s

/-- What BUILD does after the leaves if there is one (R153). -/
theorem buildFromLeaves_of_ne {s : State} (h : s.merge.k ≠ 0) :
    buildFromLeaves s = mergeAndRoot (withPlaceholder s).merge.pq.length (setLeafCount (withPlaceholder s)) := by
  rw [buildFromLeaves, if_neg h]
  rfl

/-- The state of BUILD, started from `s`, after the symbol values are scanned. -/
def State.loaded (s : State) : State := loadSymbols 256 (clearTree (beginCommand s))

theorem execBuild_loaded (s : State) : execBuild s = .next (toIdle (buildFromLeaves s.loaded)) := rfl

theorem row_loaded (s : State) : Row ((presentSymbols s).map (leafEntry s)) s.loaded := (scanned_all s).row

theorem loaded_k (s : State) : s.loaded.merge.k.toNat = (presentSymbols s).length :=
  (row_loaded s).made.count.trans (List.length_map _)

theorem row_withPlaceholder (s : State) : Row (leavesOf s) (withPlaceholder s.loaded) := by
  have hrow := row_loaded s
  have hk := loaded_k s
  unfold leavesOf withPlaceholder
  by_cases hone : (presentSymbols s).length = 1
  · rw [if_pos hone, if_pos (by bv_omega)]
    exact hrow.newNode (by rw [List.length_map]; omega) placeholderEntry
  · rw [if_neg hone, if_neg (by bv_omega), List.append_nil]
    exact hrow

/-- BUILD of a table with a key makes a tree on `leavesOf s`. -/
theorem execBuild_built_leavesOf {s t : State} (h : presentSymbols s ≠ []) (ht : execBuild s = .next t) :
    ∃ es, Built s t (leavesOf s) es := by
  have hk := loaded_k s
  have hpos := List.length_pos_iff.2 h
  obtain ⟨es, hbuilt⟩ := (row_withPlaceholder s).built (isLeaves_leavesOf h)
  rw [← buildFromLeaves_of_ne (by bv_omega)] at hbuilt
  obtain rfl := Host.Outcome.next.inj ((execBuild_loaded s).symm.trans ht)
  exact ⟨es, hbuilt.toIdle⟩

/-- Settles O25: the merges come after the leaves, and each makes the queue one shorter. -/
theorem buildLeavesInSymbolOrder : Obligations.BuildLeavesInSymbolOrder := by
  intro s h
  have ht := execBuild_eq s
  obtain ⟨es, hbuilt⟩ := execBuild_built_leavesOf h ht
  have hcount := hbuilt.forest.length_of_root
  refine ⟨_, ht, fun i x hx => ?_, hbuilt.nleaf.trans (length_leavesOf s), ?_⟩
  · have hleaf : (leavesOf s)[i]? = some (leafEntry s x) := by
      have hlen : i < (presentSymbols s).length := (List.getElem?_eq_some_iff.1 hx).1
      rw [leavesOf, List.getElem?_append_left (by simpa using hlen), List.getElem?_map, hx]
      rfl
    have hlt := (List.getElem?_eq_some_iff.1 hleaf).1
    have hi : i < 511 := by have := hbuilt.isLeaves.le; omega
    rw [Vector.getElem?_eq_getElem hi, ← hbuilt.entries.getElem?_of_lt hi (by omega), hbuilt.forest.first i hlt]
    exact hleaf
  · rw [hbuilt.nnode, hbuilt.nleaf]
    exact hcount

/-! ### BUILD reads only FREQ -/

/-- `t` with all that BUILD reads once it has cleared the tree taken from `s`: `FREQ`, `NODE` and the registers of
U1. -/
def State.withInput (t s : State) : State := { t with freq := s.freq, node := s.node, merge := s.merge }

theorem loadSymbol_withInput (t s : State) : loadSymbol (t.withInput s) = t.withInput (loadSymbol s) := by
  unfold loadSymbol
  dsimp only
  by_cases h : 0 < s.freqAt (s.merge.s.truncate 8)
  · rw [if_pos h, if_pos (by exact h)]; rfl
  · rw [if_neg h, if_neg (by exact h)]; rfl

theorem loadSymbols_withInput (n : Nat) (t s : State) :
    loadSymbols n (t.withInput s) = t.withInput (loadSymbols n s) := by
  induction n generalizing s with
  | zero => rfl
  | succ n ih => rw [loadSymbols, loadSymbol_withInput, ih]; rfl

theorem mergeOnce_withInput (t : State) {s s' : State} (h : mergeOnce s = some s') :
    mergeOnce (t.withInput s) = some (t.withInput s') := by
  simp only [mergeOnce, extractFirst, extractSecond, Option.map_eq_some_iff, Option.bind_eq_some_iff] at h
  obtain ⟨_, ⟨_, ⟨⟨a, r⟩, ha, rfl⟩, ⟨b, rest⟩, hb, rfl⟩, rfl⟩ := h
  exact mergeOnce_of_extract (s := t.withInput s) ha hb

theorem mergeLoop_withInput (n : Nat) (t s : State) : mergeLoop n (t.withInput s) = t.withInput (mergeLoop n s) := by
  induction n generalizing s with
  | zero => rfl
  | succ n ih =>
    by_cases hmore : 1 < s.merge.pq.length
    · obtain ⟨_, _, _, -, hmerge⟩ := mergeOnce_of_two hmore
      rw [mergeLoop_succ n hmore hmerge, mergeLoop_succ n (by exact hmore) (mergeOnce_withInput t hmerge), ih]
    · rw [mergeLoop_of_not hmore, mergeLoop_of_not (by exact hmore)]

theorem mergeAndRoot_node (n : Nat) (s : State) : (mergeAndRoot n s).node = (mergeLoop n s).node := by
  unfold mergeAndRoot takeRoot
  cases pqExtractMin (mergeLoop n s).node (mergeLoop n s).merge.pq <;> rfl

theorem withPlaceholder_withInput (t s : State) :
    withPlaceholder (t.withInput s) = t.withInput (withPlaceholder s) := by
  unfold withPlaceholder
  by_cases h : s.merge.k = 1
  · rw [if_pos h, if_pos (by exact h)]; rfl
  · rw [if_neg h, if_neg (by exact h)]

theorem buildFromLeaves_node_withInput (t s : State) :
    (buildFromLeaves (t.withInput s)).node = (buildFromLeaves s).node := by
  by_cases h : s.merge.k = 0
  · rw [buildFromLeaves, buildFromLeaves, if_pos h, if_pos (by exact h)]; rfl
  · rw [buildFromLeaves_of_ne h, buildFromLeaves_of_ne (by exact h), withPlaceholder_withInput, mergeAndRoot_node,
      mergeAndRoot_node]
    exact (congrArg State.node (mergeLoop_withInput (withPlaceholder s).merge.pq.length
      (setLeafCount (t.withInput (withPlaceholder s))) (setLeafCount (withPlaceholder s))) :)

/-- The entries that BUILD makes depend on `FREQ` alone. -/
theorem execBuild_node_eq {s s' t t' : State} (hfreq : s.freq = s'.freq) (h : execBuild s = .next t)
    (h' : execBuild s' = .next t') : t.node = t'.node := by
  have hclear : clearTree (beginCommand s') = (clearTree (beginCommand s')).withInput (clearTree (beginCommand s)) :=
    congrArg (fun f => { clearTree (beginCommand s') with freq := f }) hfreq.symm
  have hloaded : s'.loaded = (clearTree (beginCommand s')).withInput s.loaded := by
    rw [State.loaded, hclear, loadSymbols_withInput]
    rfl
  obtain rfl := Host.Outcome.next.inj ((execBuild_loaded s).symm.trans h)
  obtain rfl := Host.Outcome.next.inj ((execBuild_loaded s').symm.trans h')
  rw [toIdle_node, toIdle_node, hloaded, buildFromLeaves_node_withInput]

/-- The tree registers of a tree with given leaves. -/
theorem Built.registers_eq {s s' t t' : State} {leaves es es' : List Node} (h : Built s t leaves es)
    (h' : Built s' t' leaves es') : t.root = t'.root ∧ t.nleaf = t'.nleaf ∧ t.nnode = t'.nnode := by
  have hcount := h.forest.length_of_root
  have hcount' := h'.forest.length_of_root
  have hroot := h.root_last
  have hroot' := h'.root_last
  refine ⟨?_, ?_, ?_⟩ <;> apply BitVec.eq_of_toNat_eq
  · omega
  · rw [h.nleaf, h'.nleaf]
  · rw [h.nnode, h'.nnode]
    omega

/-- Settles O24: the merges read nothing else, and the tree registers are given by the number of leaves. -/
theorem buildDependsOnFreqAlone : Obligations.BuildDependsOnFreqAlone := by
  intro s s' hfreq
  obtain ⟨t, h⟩ : ∃ t, execBuild s = .next t := ⟨_, execBuild_eq s⟩
  obtain ⟨t', h'⟩ : ∃ t, execBuild s' = .next t := ⟨_, execBuild_eq s'⟩
  have hcount : s.freqAt = s'.freqAt := by
    unfold State.freqAt
    rw [hfreq]
  have hkeys : presentSymbols s = presentSymbols s' := by rw [presentSymbols, presentSymbols, hcount]
  have hleaves : leavesOf s = leavesOf s' := by
    unfold leavesOf leafEntry
    rw [hkeys, hcount]
  have hregs : t.root = t'.root ∧ t.nleaf = t'.nleaf ∧ t.nnode = t'.nnode := by
    by_cases hne : presentSymbols s = []
    · obtain ⟨-, hroot, hnleaf, hnnode, -⟩ := noTree_of_execBuild hne h
      obtain ⟨-, hroot', hnleaf', hnnode', -⟩ := noTree_of_execBuild (hkeys ▸ hne) h'
      exact ⟨hroot.trans hroot'.symm, hnleaf.trans hnleaf'.symm, hnnode.trans hnnode'.symm⟩
    · obtain ⟨es, hbuilt⟩ := execBuild_built_leavesOf hne h
      obtain ⟨es', hbuilt'⟩ := execBuild_built_leavesOf (hkeys ▸ hne) h'
      exact hbuilt.registers_eq (hleaves ▸ hbuilt')
  obtain ⟨hroot, hnleaf, hnnode⟩ := hregs
  refine ⟨t, t', h, h', execBuild_node_eq hfreq h h', hroot, hnleaf, hnnode, ?_, ?_⟩
  · rw [execBuild_treeValid h, execBuild_treeValid h', hkeys]
  · rw [execBuild_frame h, execBuild_frame h']

/-! ### One symbol -/

theorem mem_presentSymbols {s : State} {x : Byte} : x ∈ presentSymbols s ↔ 0 < s.freqAt x := by
  refine ⟨pos_of_mem_presentSymbols, fun h => List.mem_filter.2 ⟨List.mem_map.2 ⟨x.toNat, ?_, ?_⟩, decide_eq_true h⟩⟩
  · exact List.mem_range.2 x.isLt
  · simp

theorem presentSymbols_of_one {s : State} {x : Byte} (hx : s.freqAt x ≠ 0) (hother : ∀ y, y ≠ x → s.freqAt y = 0) :
    presentSymbols s = [x] := by
  have hnodup : (presentSymbols s).Nodup := (presentSymbols_ascending s).imp BitVec.ne_of_lt
  refine List.perm_singleton.1 ((List.perm_ext_iff_of_nodup hnodup (List.nodup_singleton x)).2 fun y => ?_)
  rw [mem_presentSymbols, List.mem_singleton]
  constructor
  · intro hy
    by_contra hne
    rw [hother y hne] at hy
    exact absurd hy (by decide)
  · rintro rfl
    exact (BitVec.pos_iff_ne_zero _).2 hx

/-- With two members in the queue there is one merge. -/
theorem mergeLoop_of_pair {s : State} {a b : Idx} (n : Nat) (hpq : s.merge.pq.Perm [a, b])
    (hless : keyNum s.node a < keyNum s.node b) :
    mergeLoop (n + 1) s =
      newNode (s.extracted a b []) (joinEntry (nodeWeight s.node a + nodeWeight s.node b) a b) := by
  have hmem {i : Idx} : i ∈ s.merge.pq ↔ i = a ∨ i = b := by simpa using hpq.mem_iff
  have herase : s.merge.pq.erase a = [b] := List.perm_singleton.1 (by simpa using hpq.erase a)
  have ha : pqExtractMin s.node s.merge.pq = some (a, [b]) := by
    rw [← herase]
    refine pqExtractMin_eq (hmem.2 (.inl rfl)) fun i hi => ?_
    rcases hmem.1 hi with rfl | rfl
    · exact Nat.le_refl _
    · exact hless.le
  have hb : pqExtractMin s.node [b] = some (b, []) := by simp [pqExtractMin, pqLeast]
  rw [mergeLoop_succ n (by simp [hpq.length_eq]) (mergeOnce_of_extract ha hb)]
  exact mergeLoop_of_not (by simp [State.extracted])

theorem Row.queue_perm {es : List Node} {s : State} (h : Row es s) {pq : List Idx}
    (hpq : pq.map BitVec.toNat = List.range es.length) : s.merge.pq.Perm pq :=
  (List.map_perm_map_iff fun _ _ => BitVec.eq_of_toNat_eq).1 (h.queue.trans (hpq ▸ .rfl))

/-- The merge of two entries takes the second first if its weight is less. -/
theorem Row.entries_of_pair {e f : Node} {s : State} (h : Row [e, f] s) (hless : f.weight < e.weight) :
    Entries [e, f, joinEntry (f.weight + e.weight) 1 0] (mergeLoop s.merge.pq.length (setLeafCount s)).node := by
  have hent := h.made.entries
  have hw0 : nodeWeight s.node 0 = e.weight := BitVec.eq_of_toNat_eq (hent.nodeWeight 0)
  have hw1 : nodeWeight s.node 1 = f.weight := BitVec.eq_of_toNat_eq (hent.nodeWeight 1)
  have hperm : s.merge.pq.Perm [1, 0] := (h.queue_perm (pq := [0, 1]) rfl).trans (.swap _ _ _)
  have hkey : keyLess s.node 1 0 = true := keyLess_iff.2 (.inl (by rwa [hw0, hw1]))
  have hmade : Made [e, f] ((setLeafCount s).extracted 1 0 []) := ⟨hent, h.made.count⟩
  rw [hperm.length_eq, ← hw0, ← hw1]
  exact mergeLoop_of_pair (s := setLeafCount s) 1 hperm (keyLess_iff_keyNum.1 hkey) ▸
    (hmade.newNode (by simp) _).entries

/-- The three entries for one symbol: the placeholder has the lesser weight (R155). -/
theorem entries_of_one {s t : State} {x : Byte} (hx : s.freqAt x ≠ 0) (hkeys : presentSymbols s = [x])
    (h : execBuild s = .next t) :
    Entries [leafEntry s x, placeholderEntry, joinEntry ((s.freqAt x).zeroExtend 40) 1 0] t.node := by
  have hk : s.loaded.merge.k ≠ 0 := fun h0 => by simpa [h0, hkeys] using loaded_k s
  have hleaves : leavesOf s = [leafEntry s x, placeholderEntry] := by simp [leavesOf, hkeys]
  have hrow : Row (leavesOf s) (withPlaceholder s.loaded) := row_withPlaceholder s
  rw [hleaves] at hrow
  have hless : placeholderEntry.weight < (leafEntry s x).weight := by
    rw [BitVec.lt_def, leafEntry_weight, placeholderEntry]
    bv_omega
  have hsum : placeholderEntry.weight + (leafEntry s x).weight = (s.freqAt x).zeroExtend 40 := BitVec.zero_add _
  have hent := hrow.entries_of_pair hless
  obtain rfl := Host.Outcome.next.inj ((execBuild_loaded s).symm.trans h)
  rw [hsum] at hent
  rw [toIdle_node, buildFromLeaves_of_ne hk, mergeAndRoot_node]
  exact hent

/-- Settles O22: the registers are those of a tree with two leaves. -/
theorem buildOfOneSymbol : Obligations.BuildOfOneSymbol := by
  intro s x hx hother
  have hkeys := presentSymbols_of_one hx hother
  obtain ⟨t, h⟩ : ∃ t, execBuild s = .next t := ⟨_, execBuild_eq s⟩
  have hent := entries_of_one hx hkeys h
  obtain ⟨es, hbuilt⟩ := execBuild_built_leavesOf (by simp [hkeys]) h
  have hlen : (leavesOf s).length = 2 := by simp [length_leavesOf, hkeys]
  have hcount := hbuilt.forest.length_of_root
  have hroot : t.root = 2 := BitVec.eq_of_toNat_eq (by have := hbuilt.root_last; simp; omega)
  have hnleaf : t.nleaf = 2 := BitVec.eq_of_toNat_eq (by have := hbuilt.nleaf; simp; omega)
  have hnnode : t.nnode = 3 := BitVec.eq_of_toNat_eq (by have := hbuilt.nnode; simp; omega)
  have hnode : t.node = (((Vector.replicate 511 Node.unused).set 0 (leafEntry s x)).set 1 placeholderEntry).set 2
      (joinEntry ((s.freqAt x).zeroExtend 40) 1 0) := by
    refine Vector.ext fun i hi => ?_
    rw [hent.entry i hi]
    match i with
    | 0 | 1 | 2 => simp
    | i + 3 => simp
  have hframe := execBuild_frame h
  rw [hbuilt.valid, hroot, hnleaf, hnnode] at hframe
  refine ⟨t, h, hframe.trans (by rw [hnode]; rfl), ⟨0, ?_, ?_⟩, ?_⟩
  · simp [followPath, hroot, hnode, joinEntry]
  · exact ⟨leafEntry s x, by simp [hnode], rfl, rfl⟩
  · simp [followPath, hroot, hnode, joinEntry]

end Sys2Proof.Machine

/-! SUPPORT and the settling of O33 and O34. A code is a path to a leaf. In a tree of INV-T's shape the index gets
smaller with every bit of a path, so no path has more than `NLEAF - 1` bits, and a node has one path from the root. -/

namespace Sys2Proof.Machine

/-! ### Codes -/

@[simp] theorem CodeEntry.length_bitList (e : CodeEntry) : e.bitList.length = e.len.toNat := by simp [CodeEntry.bitList]

/-- A code that is a prefix of another is the code of the same symbol: the walk stops at its leaf. -/
theorem isCodeOf_prefix {s : State} {c d : List Bool} {x y : Byte} (hx : isCodeOf s c x) (hy : isCodeOf s d y)
    (h : c <+: d) : x = y := by
  obtain ⟨i, hc, n, hn, ht, rfl⟩ := hx
  obtain ⟨j, hd, hleaf⟩ := hy
  obtain rfl := eq_of_prefix_of_not_internal hc hn (by simp [ht]) hd h
  obtain ⟨-, hsym⟩ := (leafOf_iff hn y).1 hleaf
  exact hsym

/-- An entry of a Code Table that follows its tree holds the code of its symbol (R44). -/
theorem InvC.isCodeOf {s : State} (h : InvC s) {x : Byte} (hx : 0 < (s.codeAt x).len.toNat) :
    isCodeOf s (s.codeAt x).bitList x := by
  rcases h with hnone | ⟨-, htable⟩
  · simp [hnone x] at hx
  · obtain ⟨-, hcode, -⟩ := htable x
    exact hcode hx

/-- Settles O33: the entries are paths to different leaves. -/
theorem codesArePrefixFree : Obligations.CodesArePrefixFree := fun _ h _ _ hne hx hy hpre =>
  hne (isCodeOf_prefix (h.isCodeOf hx) (h.isCodeOf hy) hpre)

/-! ### The length of a path -/

/-- The last bit of a path. -/
theorem exists_parent_of_followPath_snoc {node : Vector Node 511} {p i : Idx} {c : List Bool} {b : Bool}
    (h : followPath node p (c ++ [b]) = some i) :
    ∃ q n, followPath node p c = some q ∧ node[q.toNat]? = some n ∧ n.tag = .internal ∧
      (if b then n.right else n.left) = i := by
  rw [followPath_append] at h
  obtain ⟨q, hc, hb⟩ := Option.bind_eq_some_iff.1 h
  obtain ⟨n, hn, ht⟩ := internal_of_followPath_cons hb
  exact ⟨q, n, hc, hn, ht, by simpa [followPath, hn, ht] using hb⟩

section Tree

variable {s : State}

/-- Where an internal node stands (R42). -/
theorem TreeShape.bounds_of_internal (h : TreeShape s) {i : Idx} {n : Node} (hn : s.node[i.toNat]? = some n)
    (ht : n.tag = .internal) : s.nleaf.toNat ≤ i.toNat ∧ i.toNat < s.nnode.toNat := by
  obtain ⟨hlt, rfl⟩ := Vector.getElem?_eq_some_iff.1 hn
  refine ⟨?_, ?_⟩
  · by_contra hleaf
    rcases (h.leaf _ hlt (by omega)).1 with htag | ⟨htag, -⟩ <;> simp [ht] at htag
  · by_contra hge
    simp [h.rest_empty _ hlt (by omega)] at ht

/-- The children of an internal node have smaller indices and differ (R42). -/
theorem TreeShape.children_of_internal (h : TreeShape s) {i : Idx} {n : Node} (hn : s.node[i.toNat]? = some n)
    (ht : n.tag = .internal) : n.left.toNat < i.toNat ∧ n.right.toNat < i.toNat ∧ n.left ≠ n.right := by
  obtain ⟨hge, hlt⟩ := h.bounds_of_internal hn ht
  obtain ⟨hi, rfl⟩ := Vector.getElem?_eq_some_iff.1 hn
  obtain ⟨-, -, hchildren⟩ := h.internal _ hi hge hlt
  exact hchildren

/-- With every bit of a path the index gets smaller. -/
theorem TreeShape.toNat_add_length_le (h : TreeShape s) {c : List Bool} {i : Idx}
    (hc : followPath s.node s.root c = some i) : i.toNat + c.length ≤ s.root.toNat := by
  induction c using List.reverseRecOn generalizing i with
  | nil => cases hc; exact Nat.le_refl _
  | append_singleton c b ih =>
    obtain ⟨q, n, hq, hn, ht, rfl⟩ := exists_parent_of_followPath_snoc hc
    obtain ⟨hleft, hright, -⟩ := h.children_of_internal hn ht
    have hle := ih hq
    rw [List.length_append, List.length_singleton]
    cases b <;> simp <;> omega

/-- A path to an internal node passes internal nodes only, of which there are `NLEAF - 1`. -/
theorem TreeShape.length_of_internal (h : TreeShape s) {c : List Bool} {i : Idx} {n : Node}
    (hc : followPath s.node s.root c = some i) (hn : s.node[i.toNat]? = some n) (ht : n.tag = .internal) :
    c.length + 2 ≤ s.nleaf.toNat := by
  obtain ⟨hge, -⟩ := h.bounds_of_internal hn ht
  have hle := h.toNat_add_length_le hc
  have hroot := h.root_last
  have hnodes := h.nodes
  omega

/-- Every path from the root has at most `NLEAF - 1` bits (R190). -/
theorem TreeShape.length_le (h : TreeShape s) {c : List Bool} {i : Idx} (hc : followPath s.node s.root c = some i) :
    c.length ≤ s.nleaf.toNat - 1 := by
  rcases c.eq_nil_or_concat' with rfl | ⟨c, b, rfl⟩
  · exact Nat.zero_le _
  · obtain ⟨q, n, hq, hn, ht, -⟩ := exists_parent_of_followPath_snoc hc
    have hlen := h.length_of_internal hq hn ht
    rw [List.length_append, List.length_singleton]
    omega

/-- The root is internal, so a path to any other kind of node has a bit. -/
theorem TreeShape.ne_nil_of_not_internal (h : TreeShape s) {c : List Bool} {i : Idx} {n : Node}
    (hc : followPath s.node s.root c = some i) (hn : s.nodeAt i = some n) (ht : n.tag ≠ .internal) : c ≠ [] := by
  rintro rfl
  cases hc
  have hroot := h.root_internal
  rw [hn] at hroot
  exact ht (Option.some.inj hroot)

/-- R190, for the path to a leaf. -/
theorem TreeShape.length_of_isCodeOf (h : TreeShape s) {c : List Bool} {x : Byte} (hc : isCodeOf s c x) :
    1 ≤ c.length ∧ c.length ≤ s.nleaf.toNat - 1 := by
  obtain ⟨i, hpath, n, hn, ht, -⟩ := hc
  exact ⟨List.length_pos_iff.2 (h.ne_nil_of_not_internal hpath hn (by simp [ht])), h.length_le hpath⟩

end Tree

/-- Settles O34: an entry is a path to a leaf. -/
theorem codeLengthsAreBounded : Obligations.CodeLengthsAreBounded := by
  intro s x h
  refine ⟨fun c => h.length_of_isCodeOf, fun hcodes hlen => ?_, Nat.sub_le_sub_right h.leaves_le 1⟩
  have hpos : 0 < (s.codeAt x).len.toNat := Nat.pos_of_ne_zero fun h0 => hlen (BitVec.eq_of_toNat_eq h0)
  simpa using h.length_of_isCodeOf (hcodes.isCodeOf hpos)

/-! ### A node has one path -/

section Tree

variable {s : State}

theorem mem_childList {node : Vector Node 511} {k : Nat} :
    k ∈ childList node ↔ ∃ n ∈ node.toList, n.tag = .internal ∧ (k = n.left.toNat ∨ k = n.right.toNat) := by
  refine List.mem_flatMap.trans (exists_congr fun n => and_congr_right fun _ => ?_)
  split <;> simp [*]

/-- No node is a child twice (R42). -/
theorem TreeShape.childList_nodup (h : TreeShape s) : (childList s.node).Nodup := by
  refine List.nodup_iff_count_le_one.2 fun k => ?_
  by_cases hk : k + 1 < s.nnode.toNat
  · exact (h.once k hk).le
  · refine (List.count_eq_zero.2 fun hmem => ?_).trans_le (Nat.zero_le 1)
    obtain ⟨n, hn, ht, hchild⟩ := mem_childList.1 hmem
    obtain ⟨p, hp, rfl⟩ := List.mem_iff_getElem.1 hn
    have hp : p < 511 := by simpa using hp
    have hidx : (BitVec.ofNat 9 p).toNat = p := by simp; omega
    have hat : s.node[(BitVec.ofNat 9 p).toNat]? = some s.node[p] := by rw [hidx, Vector.getElem?_eq_getElem hp]
    obtain ⟨-, hlt⟩ := h.bounds_of_internal hat (by simpa using ht)
    obtain ⟨hleft, hright, -⟩ := h.children_of_internal hat (by simpa using ht)
    simp only [Vector.getElem_toList] at hchild
    omega

/-- Two entries that have a child in common are one entry. -/
theorem index_eq_of_common_child {node : Vector Node 511} (h : (childList node).Nodup) {p q : Nat} {m n : Node}
    (hm : node[p]? = some m) (hmt : m.tag = .internal) (hn : node[q]? = some n) (hnt : n.tag = .internal) {k : Nat}
    (hmk : k = m.left.toNat ∨ k = m.right.toNat) (hnk : k = n.left.toNat ∨ k = n.right.toNat) : p = q := by
  obtain ⟨hp, rfl⟩ := Vector.getElem?_eq_some_iff.1 hm
  obtain ⟨hq, rfl⟩ := Vector.getElem?_eq_some_iff.1 hn
  obtain ⟨-, hpairs⟩ := List.nodup_flatMap.1 h
  have hdisj := List.pairwise_iff_getElem.1 hpairs
  by_contra hne
  rcases Nat.lt_or_gt_of_ne hne with hlt | hlt
  · exact hdisj p q (by simpa using hp) (by simpa using hq) hlt (by simpa [hmt] using hmk) (by simpa [hnt] using hnk)
  · exact hdisj q p (by simpa using hq) (by simpa using hp) hlt (by simpa [hnt] using hnk) (by simpa [hmt] using hmk)

/-- A node has one parent, and it is its left or its right child. -/
theorem TreeShape.parent_unique (h : TreeShape s) {p q : Idx} {m n : Node} {a b : Bool}
    (hm : s.node[p.toNat]? = some m) (hmt : m.tag = .internal) (hn : s.node[q.toNat]? = some n)
    (hnt : n.tag = .internal) (heq : (if a then m.right else m.left) = if b then n.right else n.left) :
    p = q ∧ a = b := by
  have hchild (n : Node) (b : Bool) : (if b then n.right else n.left).toNat = n.left.toNat ∨
      (if b then n.right else n.left).toNat = n.right.toNat := by cases b <;> simp
  obtain rfl := BitVec.eq_of_toNat_eq
    (index_eq_of_common_child h.childList_nodup hm hmt hn hnt (hchild m a) (heq ▸ hchild n b))
  cases hm.symm.trans hn
  obtain ⟨-, -, hne⟩ := h.children_of_internal hm hmt
  match a, b, heq with
  | false, false, _ | true, true, _ => exact ⟨rfl, rfl⟩
  | false, true, heq => exact absurd heq hne
  | true, false, heq => exact absurd heq.symm hne

/-- Two paths from the root to one node are equal. -/
theorem TreeShape.path_unique (h : TreeShape s) {c d : List Bool} {i : Idx}
    (hc : followPath s.node s.root c = some i) (hd : followPath s.node s.root d = some i) : c = d := by
  induction c using List.reverseRecOn generalizing d i with
  | nil =>
    cases hc
    have hle := h.toNat_add_length_le hd
    exact (List.length_eq_zero_iff.1 (by omega)).symm
  | append_singleton c a ih =>
    rcases d.eq_nil_or_concat' with rfl | ⟨d, b, rfl⟩
    · cases hd
      have hle := h.toNat_add_length_le hc
      simp at hle
    · obtain ⟨p, m, hp, hm, hmt, hpa⟩ := exists_parent_of_followPath_snoc hc
      obtain ⟨q, n, hq, hn, hnt, hqb⟩ := exists_parent_of_followPath_snoc hd
      obtain ⟨rfl, rfl⟩ := h.parent_unique hm hmt hn hnt (hpa.trans hqb.symm)
      rw [ih hp hq]

end Tree

end Sys2Proof.Machine

/-! SUPPORT and the settling of O31 and O32. GEN's walk of a tree does not stop, and it never comes back to where it
was, so it visits every node at most twice and ends within its bound. -/

namespace Sys2Proof.Machine

/-! ### The order of the walk -/

/-- Where a walk stands: on a path, on the way down (`false`) or up (`true`). -/
abbrev Position := List Bool × Bool

/-- The order in which a walk comes to its positions is that of these words: down to a node, then what is below its
left child, then what is below its right child, then up from it. -/
def Position.key (p : Position) : List Nat := p.1.map Bool.toNat ++ if p.2 then [2] else []

/-- Where the walker stands, as long as it walks. -/
def State.position (s : State) : Position := (walkPath s.walk, s.phase == .gAscend)

/-- The walk is done at `t`, or it stands further on than at `s`. -/
def Advances (s t : State) : Prop := t.phase = .idle ∨ s.position.key < t.position.key

theorem Position.key_lt {p q : Position} {c : List Bool} {x y : List Nat} (hp : p.key = c.map Bool.toNat ++ x)
    (hq : q.key = c.map Bool.toNat ++ y) (h : x < y) : p.key < q.key := by
  rw [hp, hq]
  exact List.Lex.append_left _ h _

theorem position_key_descend {s : State} (hp : s.phase = .gDescend) :
    s.position.key = (walkPath s.walk).map Bool.toNat := by
  simp [State.position, Position.key, hp]

theorem position_key_ascend {s : State} (hp : s.phase = .gAscend) :
    s.position.key = (walkPath s.walk).map Bool.toNat ++ [2] := by
  simp [State.position, Position.key, hp]

/-- The key on the way up, the last bit of the path apart. -/
theorem position_key_climb {s : State} (hp : s.phase = .gAscend) (hd : s.walk.depth ≠ 0) :
    s.position.key =
      (walkPath (climb s.walk)).map Bool.toNat ++ [(s.walk.path.getLsbD (s.walk.depth - 1).toNat).toNat, 2] := by
  simp [position_key_ascend hp, walkPath_eq_climb hd]

/-! ### A walk of a tree does not stop -/

/-- A part that neither stops nor ends the command goes on. -/
theorem Ctl.Reaches.exists_go {P : State → Prop} {c : Ctl} (h : c.Reaches P fun _ => False) :
    ∃ t, c = .go t ∧ P t := by
  cases c with
  | go t => exact ⟨t, rfl, h⟩
  | ended t => exact h.elim
  | stuck f => exact h.elim

/-- In a tree `G_DESCEND` finds a node, has room in `STK` at an internal one, and is below the root at any other. -/
theorem walkDescend_completes {s : State} {c : List Bool} (h : TreeShape s) (hon : OnPath s c)
    (hcur : followPath s.node s.root c = some s.walk.cur) : (walkDescend s).Completes := by
  have hle := h.toNat_add_length_le hcur
  have hroot := h.root_last
  obtain ⟨n, hn, hne⟩ := h.node_of_lt (i := s.walk.cur) (by omega)
  have hdepth := hon.depth_eq
  have hbelow : n.tag ≠ .internal → s.walk.depth ≠ 0 := fun ht h0 => by
    refine h.ne_nil_of_not_internal hcur hn ht (List.length_eq_zero_iff.1 ?_)
    rw [← hdepth, h0]
    rfl
  intro f hf
  unfold walkDescend at hf
  simp only [hn] at hf
  cases ht : n.tag with
  | internal =>
    have hlen := h.length_of_internal hcur hn ht
    have hleaves := h.leaves_le
    have hroom : s.walk.depth.toNat < 255 := by omega
    simp only [ht, dif_pos hroom, reduceCtorEq] at hf
  | leaf =>
    simp only [ht, if_neg (hbelow (by simp [ht])), reduceCtorEq] at hf
  | placeholder =>
    simp only [ht, if_neg (hbelow (by simp [ht])), reduceCtorEq] at hf
  | empty => exact hne ht

/-- `G_ASCEND` finds the node that the walk has passed. -/
theorem walkAscend_completes {s : State} {c : List Bool} (hon : OnPath s c) : (walkAscend s).Completes := by
  intro f hf
  rcases walkAscend_cases s with ⟨-, hgo⟩ | ⟨-, -, hgo⟩ | ⟨hd, -, -⟩
  · cases hgo.symm.trans hf
  · cases hgo.symm.trans hf
  · have hlt : (s.walk.depth - 1).toNat < c.length := by
      rw [← hon.depth_eq]
      bv_omega
    obtain ⟨-, n, hn, -⟩ := hon.above _ hlt
    simp only [walkAscend, if_neg hd] at hf
    split at hf
    · cases hf
    · rw [← passed, hn] at hf
      cases hf

/-- An iteration on the way down leads further on. -/
theorem walkDescend_advances {s : State} (hp : s.phase = .gDescend) :
    (walkDescend s).Ends (Advances s) fun _ => False := by
  have hkey := (position_key_descend hp).trans (List.append_nil _).symm
  rcases walkDescend_cases s with ⟨f, hf⟩ | ⟨n, -, ⟨-, hd, hgo⟩ | ⟨-, -, hgo⟩ | ⟨-, hgo⟩⟩
  · rw [hf]; trivial
  · rw [hgo]
    refine .inr (Position.key_lt (y := [0]) hkey ((position_key_descend (by exact hp)).trans ?_) (by decide))
    rw [walkPath_descendLeft]
    simp
  · rw [hgo]
    exact .inr (Position.key_lt hkey (position_key_ascend rfl) (by decide))
  · rw [hgo]
    exact .inr (Position.key_lt hkey (position_key_ascend rfl) (by decide))

/-- An iteration on the way up leads further on. -/
theorem walkAscend_advances {s : State} {c : List Bool} (hon : OnPath s c) (hp : s.phase = .gAscend) :
    (walkAscend s).Ends (Advances s) fun _ => False := by
  rcases walkAscend_cases s with ⟨-, hgo⟩ | ⟨hd, hb, hgo⟩ | ⟨hd, hb, ⟨f, hf⟩ | ⟨n, -, hgo⟩⟩
  · rw [hgo]
    exact .inl rfl
  · rw [hgo]
    have hkey := position_key_climb hp hd
    rw [hb] at hkey
    exact .inr (Position.key_lt hkey (position_key_ascend hp) (by decide))
  · rw [hf]; trivial
  · rw [hgo]
    have hkey := position_key_climb hp hd
    rw [hb] at hkey
    refine .inr (Position.key_lt (y := [1]) hkey ((position_key_descend rfl).trans ?_) (by decide))
    rw [walkPath_turnRight n hd (hon.depth_eq ▸ hon.le)]
    simp

/-! ### The length of a walk -/

/-- The node at a position, by its index, and the way. -/
def nodeAndWay (s : State) (p : Position) : Nat × Bool := (((followPath s.node s.root p.1).getD 0).toNat, p.2)

theorem nodeAndWay_of_path {s : State} {p : Position} {i : Idx} (h : followPath s.node s.root p.1 = some i) :
    nodeAndWay s p = (i.toNat, p.2) := by
  rw [nodeAndWay, h, Option.getD_some]

/-- The positions of a tree are at most two for each node. -/
theorem TreeShape.card_positions_le {s : State} (h : TreeShape s) {T : Finset Position}
    (hT : ∀ p ∈ T, ∃ i, followPath s.node s.root p.1 = some i) : T.card ≤ 2 * s.nnode.toNat := by
  have hmaps : ∀ p ∈ T, nodeAndWay s p ∈ Finset.range s.nnode.toNat ×ˢ (Finset.univ : Finset Bool) := fun p hp => by
    obtain ⟨i, hi⟩ := hT p hp
    have hle := h.toNat_add_length_le hi
    have hroot := h.root_last
    rw [nodeAndWay_of_path hi]
    exact Finset.mem_product.2 ⟨Finset.mem_range.2 (by omega), Finset.mem_univ _⟩
  have hinj : Set.InjOn (nodeAndWay s) T := fun p hp q hq heq => by
    obtain ⟨i, hi⟩ := hT p hp
    obtain ⟨j, hj⟩ := hT q hq
    rw [nodeAndWay_of_path hi, nodeAndWay_of_path hj] at heq
    obtain ⟨hij, hway⟩ := Prod.mk.inj heq
    obtain rfl := BitVec.eq_of_toNat_eq hij
    exact Prod.ext (h.path_unique hi hj) hway
  calc T.card ≤ (Finset.range s.nnode.toNat ×ˢ (Finset.univ : Finset Bool)).card :=
        Finset.card_le_card_of_injOn _ hmaps hinj
    _ = 2 * s.nnode.toNat := by simp [Nat.mul_comm]

/-- The path on which the walker stands is a path of the tree. -/
theorem OnPath.exists_node {s : State} {c : List Bool} (h : OnPath s c) : ∃ i, followPath s.node s.root c = some i := by
  rcases c.eq_nil_or_concat' with rfl | ⟨c, b, rfl⟩
  · exact ⟨s.root, rfl⟩
  · obtain ⟨hc, n, hn, ht⟩ := h.above c.length (by simp)
    rw [List.take_left] at hc
    exact ⟨_, followPath_snoc hc hn ht b⟩

/-- A walk of a tree that has come from the positions in `T`. -/
structure Touring (T : Finset Position) (s : State) : Prop where
  tree : TreeShape s
  walking : ∃ c, Walking s c
  positions : ∀ p ∈ T, ∃ i, followPath s.node s.root p.1 = some i
  passed : s.phase = .idle ∨ ∀ p ∈ T, p.key < s.position.key

section Touring

variable {T : Finset Position} {s : State}

/-- A walk that goes on is at a new position. -/
theorem Touring.not_mem (h : Touring T s) (hp : s.phase ≠ .idle) : s.position ∉ T := fun hmem =>
  lt_irrefl _ (h.passed.resolve_left hp _ hmem)

theorem Touring.insert_positions (h : Touring T s) :
    ∀ p ∈ insert s.position T, ∃ i, followPath s.node s.root p.1 = some i := by
  obtain ⟨c, hc⟩ := h.walking
  refine Finset.forall_mem_insert _ _ _ |>.2 ⟨?_, h.positions⟩
  rw [State.position, hc.onPath.path]
  exact hc.onPath.exists_node

/-- A walk that goes on has not been at every position yet. -/
theorem Touring.card_lt (h : Touring T s) (hp : s.phase ≠ .idle) : T.card < 2 * s.nnode.toNat := by
  have hle := h.tree.card_positions_le h.insert_positions
  rwa [Finset.card_insert_of_notMem (h.not_mem hp)] at hle

/-- After an iteration of the walk. -/
theorem Touring.step (h : Touring T s) (hp : s.phase ≠ .idle) {t : State} (hwalk : ∃ c, Walking t c)
    (hcodes : CodesOnly s t) (hadv : Advances s t) : Touring (insert s.position T) t ∧ t.nnode = s.nnode := by
  have htree : treeOf t = treeOf s := (congrArg treeOf hcodes :)
  have hshape := h.tree.congr htree
  have hpos := h.insert_positions
  simp only [treeOf, Prod.mk.injEq] at htree
  obtain ⟨hnode, hroot, -, hnnode, -⟩ := htree
  refine ⟨⟨hshape, hwalk, by rwa [hnode, hroot], hadv.imp_right fun hlt => ?_⟩, hnnode⟩
  exact Finset.forall_mem_insert _ _ _ |>.2 ⟨hlt, fun p hmem => (h.passed.resolve_left hp p hmem).trans hlt⟩

theorem Touring.iteration (h : Touring T s) (hp : s.phase ≠ .idle) {c : Ctl} (hc : c.Completes)
    (hwalk : c.Ends (fun t => ∃ c', Walking t c') fun _ => False) (hcodes : c.Keeps CodesOnly s)
    (hadv : c.Ends (Advances s) fun _ => False) :
    c.Reaches (fun t => Touring (insert s.position T) t ∧ t.nnode = s.nnode) fun _ => False := by
  cases c with
  | go t => exact h.step hp hwalk hcodes hadv
  | ended t => exact hwalk
  | stuck f => exact hc f rfl

theorem Touring.descend (h : Touring T s) (hp : s.phase = .gDescend) :
    (walkDescend s).Reaches (fun t => Touring (insert s.position T) t ∧ t.nnode = s.nnode) fun _ => False := by
  obtain ⟨c, hc⟩ := h.walking
  obtain ⟨hcur, -⟩ := hc.at_descend hp
  exact h.iteration (by simp [hp]) (walkDescend_completes h.tree hc.onPath hcur) (hc.descend hp)
    (walkDescend_codesOnly s) (walkDescend_advances hp)

theorem Touring.ascend (h : Touring T s) (hp : s.phase = .gAscend) :
    (walkAscend s).Reaches (fun t => Touring (insert s.position T) t ∧ t.nnode = s.nnode) fun _ => False := by
  obtain ⟨c, hc⟩ := h.walking
  exact h.iteration (by simp [hp]) (walkAscend_completes hc.onPath) (hc.ascend hp) (walkAscend_codesOnly s)
    (walkAscend_advances hc.onPath hp)

/-- A walk of a tree is done when its positions are used up (R187). -/
theorem Touring.walkLoop (n : Nat) (h : Touring T s) (hn : 2 * s.nnode.toNat ≤ n + T.card) :
    (walkLoop n s).Reaches (fun t => t.phase = .idle ∧ ∃ c, Walking t c) fun _ => False := by
  induction n generalizing s T with
  | zero =>
    rw [Machine.walkLoop]
    split
    · exact ⟨‹_›, h.walking⟩
    · have hlt := h.card_lt ‹_›
      omega
  | succ n ih =>
    have hleft (hp : s.phase ≠ .idle) {t : State} (ht : t.nnode = s.nnode) :
        2 * t.nnode.toNat ≤ n + (insert s.position T).card := by
      rw [Finset.card_insert_of_notMem (h.not_mem hp), ht]
      omega
    obtain ⟨c, hc⟩ := h.walking
    rw [Machine.walkLoop]
    rcases hc.covered with ⟨hp, -⟩ | ⟨hp, -⟩ | ⟨hp, -⟩
    · have hne : s.phase ≠ .idle := by simp [hp]
      rw [hp]
      exact (h.descend hp).andThen fun t ⟨ht, hnnode⟩ => ih ht (hleft hne hnnode)
    · have hne : s.phase ≠ .idle := by simp [hp]
      rw [hp]
      exact (h.ascend hp).andThen fun t ⟨ht, hnnode⟩ => ih ht (hleft hne hnnode)
    · rw [hp]
      exact ⟨hp, c, hc⟩

end Touring

/-! ### The whole command -/

/-- GEN with no tree (R182). -/
theorem execGen_of_noTree {s : State} (h : s.status.treeValid = false) :
    execGen s = .next (toIdle (clearCodes (clearError s))) := by
  rw [execGen_eq, if_neg (by simp [h]), beginCommand_eq]

/-- Settles O31. -/
theorem genWithoutATreeEmptiesTheTable : Obligations.GenWithoutATreeEmptiesTheTable := by
  intro s h
  rw [commandEnd_zero]
  exact execGen_of_noTree h

/-- GEN changes nothing but `CODE` and the error fields. -/
theorem execGen_frame {s t : State} (h : execGen s = .next t) : t = { s.commandEnd 0 0 0 0 with code := t.code } := by
  obtain ⟨u, hu, rfl⟩ := execGen_codesOnly h
  rw [commandEnd_zero]
  exact congrArg toIdle hu

/-- The walk of a tree ends within the bound of GEN. -/
theorem TreeShape.walk_ends {s : State} (h : TreeShape s) :
    ∃ u, walkLoop (2 * 511) (startWalk (clearCodes (beginCommand s))) = .go u ∧ u.phase = .idle ∧ ∃ c, Walking u c := by
  have hstart : Touring ∅ (startWalk (clearCodes (beginCommand s))) :=
    ⟨h.congr rfl, ⟨[], walking_startWalk (codeAt_clearCodes _)⟩, by simp, .inr (by simp)⟩
  have hnodes := h.nodes
  have hleaves := h.leaves_le
  have hbound : 2 * s.nnode.toNat ≤ 2 * 511 + (∅ : Finset Position).card := by omega
  exact (hstart.walkLoop (2 * 511) hbound).exists_go

/-- When the walk is done the entry of a leaf's symbol is its code, and no other symbol has one. -/
theorem Walking.entry {s : State} {c : List Bool} (h : Walking s c) (hp : s.phase = .idle) (htree : TreeShape s)
    (x : Byte) :
    ((∃ i, leafOf s.node i x) → 0 < (s.codeAt x).len.toNat ∧ isCodeOf s (s.codeAt x).bitList x ∧
      ∀ k, (s.codeAt x).len.toNat ≤ k → k < 256 → (s.codeAt x).bit k = false) ∧
    ((¬ ∃ i, leafOf s.node i x) → s.codeAt x = CodeEntry.none) := by
  refine ⟨fun ⟨i, hi⟩ => ?_, fun hno => (h.sound x).resolve_right ?_⟩
  · obtain ⟨q, hq⟩ := htree.leaf_reachable hi
    have hpos := h.at_idle hp q i x trivial hq hi
    exact (h.sound x).resolve_left fun hnone => by simp [hnone] at hpos
  · rintro ⟨-, ⟨i, -, hi⟩, -⟩
    exact hno ⟨i, hi⟩

/-- Settles O32: the walk of a tree ends, and when it is done every leaf has its path. -/
theorem genWritesThePaths : Obligations.GenWritesThePaths := by
  intro s h
  obtain ⟨u, hgo, hp, c, hc⟩ := h.walk_ends
  have hgen : execGen s = .next (toIdle u) := by
    rw [execGen_eq, if_pos h.valid, hgo, Ctl.finish_go]
  have htree : treeOf u = treeOf s := (exec_unchanged (i := .gen) hgen).tree (by simp)
  refine ⟨toIdle u, hgen, execGen_frame hgen, fun x => ?_⟩
  have hentry := hc.entry hp (h.congr htree) x
  simp only [treeOf, Prod.mk.injEq] at htree
  obtain ⟨hnode, hroot, -⟩ := htree
  rwa [isCodeOf, hnode, hroot] at hentry

end Sys2Proof.Machine

/-! SUPPORT. The packed stream (R76 to R78), bit by bit and byte by byte, and rows of bytes in `MEM`. -/

namespace Sys2Proof.Machine

/-! ### The bits of a byte -/

/-- Two bytes with the same stream bits are equal (R76). -/
theorem eq_of_streamBit {a b : Byte} (h : ∀ t < 8, streamBit a t = streamBit b t) : a = b := by
  refine BitVec.eq_of_getLsbD_eq fun j hj => ?_
  have hbit := h (7 - j) (by omega)
  rwa [streamBit, streamBit, show 7 - (7 - j) = j by omega] at hbit

@[simp] theorem streamBit_zero (t : Nat) : streamBit 0#8 t = false := BitVec.getLsbD_zero

theorem streamBit_putStreamBit (acc : Byte) {n t : Nat} (bit : Bool) (hn : n < 8) (ht : t < 8) :
    streamBit (putStreamBit acc n bit) t = if t = n then bit else streamBit acc t := by
  have hmask : streamBit (1#8 <<< (7 - n)) t = decide (t = n) := by
    rw [streamBit, ← BitVec.twoPow_eq, BitVec.getLsbD_twoPow]
    grind
  have hlt : 7 - t < 8 := by omega
  unfold putStreamBit
  unfold streamBit at hmask ⊢
  cases bit
  · rw [if_neg (by decide), BitVec.getLsbD_and, BitVec.getLsbD_not, hmask]
    by_cases h : t = n <;> simp [h, hlt]
  · rw [if_pos rfl, BitVec.getLsbD_or, hmask]
    by_cases h : t = n <;> simp [h]

/-- The stream bits of a byte that is filled bit by bit. -/
theorem streamBit_foldl_putStreamBit (f : Nat → Bool) {n t : Nat} (hn : n ≤ 8) (ht : t < 8) :
    streamBit ((List.range n).foldl (fun acc t => putStreamBit acc t (f t)) 0) t = (decide (t < n) && f t) := by
  induction n with
  | zero => simp
  | succ n ih =>
    rw [List.range_succ, List.foldl_append, List.foldl_cons, List.foldl_nil, streamBit_putStreamBit _ _ (by omega) ht,
      ih (by omega)]
    grind

/-- R77: bit `t` of byte `q` is bit `8q + t` of the sequence. -/
theorem streamBit_packByte (b : List Bool) (q : Nat) {t : Nat} (ht : t < 8) :
    streamBit (packByte b q) t = b.getD (8 * q + t) false := by
  rw [packByte, streamBit_foldl_putStreamBit (fun t => b.getD (8 * q + t) false) (Nat.le_refl 8) ht]
  simp [ht]

/-! ### The bytes of a bit sequence -/

/-- A byte past the end of the sequence has no bit set (R78). -/
theorem packByte_of_length_le {b : List Bool} {q : Nat} (h : b.length ≤ 8 * q) : packByte b q = 0 :=
  eq_of_streamBit fun t ht => by
    rw [streamBit_packByte b q ht, List.getD_eq_default _ _ (by omega)]
    exact (streamBit_zero t).symm

/-- What follows a full byte does not change it. -/
theorem packByte_append {b : List Bool} (c : List Bool) {q : Nat} (h : 8 * q + 8 ≤ b.length) :
    packByte (b ++ c) q = packByte b q :=
  eq_of_streamBit fun t ht => by
    rw [streamBit_packByte _ q ht, streamBit_packByte _ q ht, List.getD_append _ _ _ _ (by omega)]

/-- One more bit enters the byte that is being filled (R201). -/
theorem packByte_concat {b : List Bool} (bit : Bool) {q : Nat} (h : 8 * q ≤ b.length) (h' : b.length < 8 * q + 8) :
    packByte (b ++ [bit]) q = putStreamBit (packByte b q) (b.length - 8 * q) bit := by
  refine eq_of_streamBit fun t ht => ?_
  rw [streamBit_packByte _ q ht, streamBit_putStreamBit _ _ (by omega) ht, streamBit_packByte _ q ht]
  simp only [List.getD_eq_getElem?_getD]
  grind

/-- The first `n` bytes of the packing of `b`, zero bits following it. -/
def packBytes (b : List Bool) (n : Nat) : List Byte := (List.range n).map (packByte b)

@[simp] theorem length_packBytes (b : List Bool) (n : Nat) : (packBytes b n).length = n := by simp [packBytes]

theorem packBytes_succ (b : List Bool) (n : Nat) : packBytes b (n + 1) = packBytes b n ++ [packByte b n] := by
  simp [packBytes, List.range_succ]

theorem packBits_eq (b : List Bool) : packBits b = packBytes b ((b.length + 7) / 8) := rfl

theorem take_packBits {b : List Bool} {n : Nat} (h : n ≤ (b.length + 7) / 8) : (packBits b).take n = packBytes b n := by
  rw [packBits, ← List.map_take, List.take_range, Nat.min_eq_left h, packBytes]

/-- What follows full bytes does not change them. -/
theorem packBytes_append {b : List Bool} (c : List Bool) {n : Nat} (h : 8 * n ≤ b.length) :
    packBytes (b ++ c) n = packBytes b n :=
  List.map_congr_left fun q hq => packByte_append c (by have := List.mem_range.1 hq; omega)

theorem packBytes_take (b : List Bool) {m n : Nat} (h : 8 * n ≤ m) : packBytes (b.take m) n = packBytes b n := by
  rcases Nat.le_total b.length m with hle | hle
  · rw [List.take_of_length_le hle]
  · have happend := packBytes_append (b := b.take m) (b.drop m) (n := n) (by rwa [List.length_take_of_le hle])
    rw [← happend, List.take_append_drop]

/-! ### Rows of bytes -/

theorem Memory.writeAll_concat (m : Memory) (a : Nat) (bs : List Byte) (v : Byte) :
    m.writeAll a (bs ++ [v]) = (m.writeAll a bs).write (a + bs.length) v := by
  induction bs generalizing m a with
  | nil => rfl
  | cons w ws ih =>
    rw [List.cons_append, writeAll, ih, writeAll, List.length_cons, Nat.add_right_comm, Nat.add_assoc]

/-- A row of bytes is stored, and the rest reads as before. -/
theorem Memory.storedAt_writeAll (m : Memory) (a : Nat) (bs : List Byte) : m.storedAt (m.writeAll a bs) a bs := by
  induction bs using List.reverseRecOn with
  | nil => exact ⟨fun i h => absurd h (Nat.not_lt_zero i), fun _ _ => rfl⟩
  | append_singleton bs v ih =>
    obtain ⟨hrow, hrest⟩ := ih
    rw [writeAll_concat]
    refine ⟨fun i hi => ?_, fun x hx => ?_⟩
    · rw [List.length_append, List.length_singleton] at hi
      by_cases h : i = bs.length
      · subst h
        simp
      · rw [byte_write_other _ _ (by omega), hrow i (by omega), List.getElem_append_left]
    · rw [List.length_append, List.length_singleton] at hx
      rw [byte_write_other _ _ (by omega), hrest x (by omega)]

/-- A byte that the row does not cover reads as before. -/
theorem Memory.byte_writeAll_of_ne (m : Memory) {a x : Nat} {bs : List Byte}
    (h : ∀ k < bs.length, x ≠ a + k) : (m.writeAll a bs).byte x = m.byte x := by
  refine (storedAt_writeAll m a bs).2 x ?_
  by_contra hin
  exact h (x - a) (by omega) (by omega)

theorem Memory.take_bytesFrom (m : Memory) (a : Nat) {k n : Nat} (h : k ≤ n) :
    (m.bytesFrom a n).take k = m.bytesFrom a k := by
  rw [bytesFrom, ← List.map_take, List.take_range, Nat.min_eq_left h, bytesFrom]

end Sys2Proof.Machine

/-! SUPPORT and the settling of O35 and O37 to O40: ENCODE (R201). While it runs, the bits packed so far determine the
results, the packer and the bytes written: `State.packing`. A part of ENCODE takes one such state to the next, or raises
an error in it. -/

namespace Sys2Proof.Machine

/-! ### The state of a running ENCODE -/

/-- `s` with `n` bytes of the packed bits `b` written; the results count them, all of `b` and `i` symbols. -/
def State.output (s : State) (b : List Bool) (i n : Nat) : State :=
  { s with
    resBits := BitVec.ofNat 64 b.length, resSyms := BitVec.ofNat 32 i, resBytes := BitVec.ofNat 32 n
    mem := s.mem.writeAll s.dstAddr.toNat (packBytes b n) }

/-- The output, with the bits of `b` that follow its `n` bytes in the packer; `kbit` and `sym` belong to the symbol that
is being packed. -/
def State.packing (s : State) (b : List Bool) (n i : Nat) (kbit : BitVec 8) (sym : Byte) : State :=
  { s.output b i n with
    pack := {
      acc := packByte b n, nacc := BitVec.ofNat 4 (b.length - 8 * n), i := BitVec.ofNat 32 i, kbit := kbit
      sym := sym } }

theorem toIdle_packing (s : State) (b : List Bool) (n i : Nat) (kbit : BitVec 8) (sym : Byte) :
    toIdle (s.packing b n i kbit sym) = (toIdle s).output b i n := rfl

/-- The error registers are apart from the output and the packer. -/
theorem raise_packing (s : State) (e : Err) (b : List Bool) (n i : Nat) (kbit : BitVec 8) (sym : Byte) :
    raise (s.packing b n i kbit sym) e = (raise s e).packing b n i kbit sym := by
  by_cases h : s.status.err = 0 <;> simp only [raise, State.packing, State.output, h, if_true, if_false]

/-! ### The destination -/

/-- Destination byte `q` can be written (R204). -/
def State.takesByte (s : State) (q : Nat) : Prop :=
  q < s.dstCap.toNat ∧ s.platform.memValid (s.dstAddr.toNat + q) = true

/-- The error at a destination byte `q` that cannot be written: `CAPACITY` when the buffer ends there (R204). -/
def State.byteErr (s : State) (q : Nat) : Err :=
  if q = s.dstCap.toNat then .ioCapacity (s.dstAddr.toNat + q) else .ioWrite (s.dstAddr.toNat + q)

section Dest

variable {s : State} {b : List Bool} {n i : Nat} {kbit : BitVec 8} {sym : Byte}

theorem packing_resBytes_eq (hn : n ≤ s.dstCap.toNat) :
    (s.packing b n i kbit sym).resBytes = (s.packing b n i kbit sym).dstCap ↔ n = s.dstCap.toNat := by
  change BitVec.ofNat 32 n = s.dstCap ↔ _
  rw [← BitVec.toNat_inj, BitVec.toNat_ofNat, Nat.mod_eq_of_lt (hn.trans_lt s.dstCap.isLt)]

theorem packing_dstByteAddr (hn : n ≤ s.dstCap.toNat) :
    (s.packing b n i kbit sym).dstByteAddr = s.dstAddr.toNat + n :=
  congrArg (s.dstAddr.toNat + ·) (Nat.mod_eq_of_lt (hn.trans_lt s.dstCap.isLt))

/-- The byte in the packer is written, and the packer is empty (R201, R204). -/
theorem putAcc_packing (h : s.takesByte n) (hb : b.length ≤ 8 * n + 8) :
    putAcc (s.packing b n i kbit sym) = .go (s.packing b (n + 1) i kbit sym) := by
  obtain ⟨hcap, hvalid⟩ := h
  have hcases := putAcc_cases (s.packing b n i kbit sym)
  rw [packing_resBytes_eq hcap.le, packing_dstByteAddr hcap.le] at hcases
  rcases hcases with ⟨hfull, -⟩ | ⟨-, hinvalid, -⟩ | ⟨-, -, hgo⟩
  · omega
  · exact absurd (hvalid.symm.trans hinvalid) (by decide)
  · have hmem : s.mem.writeAll s.dstAddr.toNat (packBytes b (n + 1)) =
        (s.mem.writeAll s.dstAddr.toNat (packBytes b n)).write (s.dstAddr.toNat + n) (packByte b n) := by
      rw [packBytes_succ, Memory.writeAll_concat, length_packBytes]
    rw [hgo]
    simp only [State.packing, State.output]
    rw [hmem, packByte_of_length_le (by omega : b.length ≤ 8 * (n + 1)),
      Nat.sub_eq_zero_of_le (by omega : b.length ≤ 8 * (n + 1)), BitVec.ofNat_add]
    rfl

/-- The byte in the packer cannot be written (R204). -/
theorem putAcc_packing_fails (hn : n ≤ s.dstCap.toNat) (h : ¬ s.takesByte n) :
    putAcc (s.packing b n i kbit sym) = .ended (raise (s.packing b n i kbit sym) (s.byteErr n)) := by
  have hcases := putAcc_cases (s.packing b n i kbit sym)
  rw [Ne, packing_resBytes_eq hn, packing_dstByteAddr hn] at hcases
  rcases hcases with ⟨hfull, hend⟩ | ⟨hroom, -, hend⟩ | ⟨hroom, hvalid, -⟩
  · rw [hend, State.byteErr, if_pos hfull, hfull]
    rfl
  · rw [hend, State.byteErr, if_neg hroom]
  · exact absurd ⟨by omega, hvalid⟩ h

theorem packing_nacc_toNat (h : b.length ≤ 8 * n + 8) :
    (s.packing b n i kbit sym).pack.nacc.toNat = b.length - 8 * n := by
  change (BitVec.ofNat 4 (b.length - 8 * n)).toNat = _
  rw [BitVec.toNat_ofNat, Nat.mod_eq_of_lt (by omega)]

/-- The flush writes the partial byte, if there is one (R206). -/
theorem flushAcc_packing (h : b.length % 8 ≠ 0 → s.takesByte (b.length / 8)) :
    flushAcc (s.packing b (b.length / 8) i kbit sym) = .go (s.packing b ((b.length + 7) / 8) i kbit sym) := by
  have hnacc := packing_nacc_toNat (s := s) (b := b) (n := b.length / 8) (i := i) (kbit := kbit) (sym := sym) (by omega)
  rcases flushAcc_cases (s.packing b (b.length / 8) i kbit sym) with ⟨hnone, hf⟩ | ⟨hsome, hf⟩ <;> rw [hf]
  · rw [show (b.length + 7) / 8 = b.length / 8 by bv_omega]
  · rw [show (b.length + 7) / 8 = b.length / 8 + 1 by bv_omega]
    exact putAcc_packing (h (by bv_omega)) (by omega)

/-- The partial byte cannot be written (R209). -/
theorem flushAcc_packing_fails (hpart : b.length % 8 ≠ 0) (hn : b.length / 8 ≤ s.dstCap.toNat)
    (h : ¬ s.takesByte (b.length / 8)) :
    flushAcc (s.packing b (b.length / 8) i kbit sym) =
      .ended (raise (s.packing b (b.length / 8) i kbit sym) (s.byteErr (b.length / 8))) := by
  have hnacc := packing_nacc_toNat (s := s) (b := b) (n := b.length / 8) (i := i) (kbit := kbit) (sym := sym) (by omega)
  have hsome : (s.packing b (b.length / 8) i kbit sym).pack.nacc ≠ 0 := by bv_omega
  rw [flushAcc, if_neg hsome]
  exact putAcc_packing_fails hn h

/-! ### The bits of a code -/

/-- One bit enters the packer (R201). -/
theorem packBit_packing {bit : Bool} (hbit : (s.codeAt sym).bit kbit.toNat = bit) (h : 8 * n ≤ b.length)
    (h' : b.length < 8 * n + 8) :
    packBit (s.packing b n i kbit sym) = s.packing (b ++ [bit]) n i (kbit + 1) sym := by
  have hnacc : (BitVec.ofNat 4 (b.length - 8 * n)).toNat = b.length - 8 * n := by
    rw [BitVec.toNat_ofNat, Nat.mod_eq_of_lt (by omega)]
  have hbit : ((s.packing b n i kbit sym).codeAt sym).bit kbit.toNat = bit := hbit
  simp only [State.packing, State.output] at hbit
  simp only [packBit, State.packing, State.output, hbit, hnacc, packByte_concat _ h h', packBytes_append _ h,
    List.length_append, List.length_singleton, Nat.sub_add_comm h, BitVec.ofNat_add]
  rfl

/-- Eight bits are in the packer (R203). -/
theorem packing_nacc_eq_eight (h : b.length ≤ 8 * n + 8) :
    (s.packing b n i kbit sym).pack.nacc = 8 ↔ b.length = 8 * n + 8 := by
  have hnacc := packing_nacc_toNat (s := s) (i := i) (kbit := kbit) (sym := sym) h
  rw [← BitVec.toNat_inj, hnacc, show (8 : BitVec 4).toNat = 8 from rfl]
  omega

/-- A code bit is packed; if it is the eighth of its byte, the byte is written (R201, R203). -/
theorem shiftBit_packing {bit : Bool} (hbit : (s.codeAt sym).bit kbit.toNat = bit)
    (h : ∀ q < (b ++ [bit]).length / 8, s.takesByte q) :
    shiftBit (s.packing b (b.length / 8) i kbit sym) =
      .go (s.packing (b ++ [bit]) ((b ++ [bit]).length / 8) i (kbit + 1) sym) := by
  have hlen : (b ++ [bit]).length = b.length + 1 := by simp
  rw [shiftBit_eq, packBit_packing hbit (by omega) (by omega)]
  split_ifs with hfull <;> rw [packing_nacc_eq_eight (by omega)] at hfull
  · rw [show (b ++ [bit]).length / 8 = b.length / 8 + 1 by omega] at h ⊢
    exact putAcc_packing (h _ (by omega)) (by omega)
  · rw [show (b ++ [bit]).length / 8 = b.length / 8 by omega]

/-- The eighth bit of a byte that cannot be written (R209). -/
theorem shiftBit_packing_fails {bit : Bool} (hbit : (s.codeAt sym).bit kbit.toNat = bit)
    (hfull : b.length = 8 * n + 7) (hn : n ≤ s.dstCap.toNat) (h : ¬ s.takesByte n) :
    shiftBit (s.packing b n i kbit sym) =
      .ended (raise (s.packing (b ++ [bit]) n i (kbit + 1) sym) (s.byteErr n)) := by
  have hlen : (b ++ [bit]).length = b.length + 1 := by simp
  rw [shiftBit_eq, packBit_packing hbit (by omega) (by omega), if_pos ((packing_nacc_eq_eight (by omega)).2 (by omega))]
  exact putAcc_packing_fails hn h

theorem CodeEntry.bit_ofNat (e : CodeEntry) {m : Nat} (h : m < 256) : e.bit (BitVec.ofNat 8 m).toNat = e.bit m :=
  congrArg e.bit (Nat.mod_eq_of_lt h)

theorem CodeEntry.take_succ_bitList {e : CodeEntry} {m : Nat} (h : m < e.len.toNat) :
    e.bitList.take (m + 1) = e.bitList.take m ++ [e.bit m] := by
  rw [List.take_succ_eq_append_getElem (by simpa using h)]
  simp [bitList]

/-- The first `m` bits of a code are packed (R201). -/
theorem loop_shiftBit {m : Nat} (hm : m ≤ (s.codeAt sym).len.toNat) (h : ∀ q < (b.length + m) / 8, s.takesByte q) :
    Ctl.loop shiftBit m (s.packing b (b.length / 8) i 0 sym) =
      .go (s.packing (b ++ (s.codeAt sym).bitList.take m) ((b.length + m) / 8) i (BitVec.ofNat 8 m) sym) := by
  induction m with
  | zero => simp
  | succ m ih =>
    have hshift := shiftBit_packing (s := s) (b := b ++ (s.codeAt sym).bitList.take m) (i := i)
      ((s.codeAt sym).bit_ofNat (m := m) (by omega))
    rw [List.append_assoc, ← CodeEntry.take_succ_bitList hm] at hshift
    simp only [List.length_append, List.length_take_of_le, CodeEntry.length_bitList, hm, Nat.le_of_succ_le hm] at hshift
    rw [Ctl.loop_add, ih (by omega) fun q hq => h q (by omega), Ctl.andThen_go, Ctl.loop_succ, hshift h,
      Ctl.andThen_go, Ctl.loop_zero, BitVec.ofNat_add]
    rfl

end Dest

/-! ### Ending by an error -/

/-- The part ends the command, which leaves the idle engine in `t`. -/
def Ctl.EndsIn (c : Ctl) (t : State) : Prop := ∃ v, c = .ended v ∧ toIdle v = t

theorem Ctl.EndsIn.andThen {c : Ctl} {t : State} (h : c.EndsIn t) (f : State → Ctl) : (c.andThen f).EndsIn t := by
  obtain ⟨v, rfl, rfl⟩ := h
  exact ⟨v, rfl, rfl⟩

theorem Ctl.EndsIn.finish {c : Ctl} {t : State} (h : c.EndsIn t) : c.finish = .next t := by
  obtain ⟨v, rfl, rfl⟩ := h
  rfl

theorem raise_takesByte (s : State) (e : Err) (q : Nat) : (raise s e).takesByte q ↔ s.takesByte q := by
  simp [State.takesByte]

theorem raise_byteErr (s : State) (e : Err) (q : Nat) : (raise s e).byteErr q = s.byteErr q := by
  simp [State.byteErr]

section Exits

variable {s : State} {b : List Bool} {n i k : Nat} {kbit : BitVec 8} {sym : Byte} {e : Err}

theorem endsIn_raise_packing :
    (Ctl.ended (raise (s.packing b n i kbit sym) e)).EndsIn ((toIdle (raise s e)).output b i n) :=
  ⟨_, rfl, by rw [raise_packing, toIdle_packing]⟩

/-- The exit through a flush that writes the partial byte (R206). -/
theorem exitThroughFlush_packing (h : b.length % 8 ≠ 0 → s.takesByte (b.length / 8)) :
    (exitThroughFlush (.ended (raise (s.packing b (b.length / 8) i kbit sym) e))).EndsIn
      ((toIdle (raise s e)).output b i ((b.length + 7) / 8)) := by
  rw [exitThroughFlush, raise_packing, flushAcc_packing fun hpart => (raise_takesByte s e _).2 (h hpart)]
  exact ⟨_, rfl, rfl⟩

/-- The exit through a flush that fails: a second error in the same command (R209, R270). -/
theorem exitThroughFlush_packing_fails (hpart : b.length % 8 ≠ 0) (hn : b.length / 8 ≤ s.dstCap.toNat)
    (h : ¬ s.takesByte (b.length / 8)) :
    (exitThroughFlush (.ended (raise (s.packing b (b.length / 8) i kbit sym) e))).EndsIn
      ((toIdle (raise (raise s e) (s.byteErr (b.length / 8)))).output b i (b.length / 8)) := by
  rw [exitThroughFlush, raise_packing,
    flushAcc_packing_fails hpart (by rwa [raise_dstCap]) (by rwa [raise_takesByte]), raise_byteErr]
  exact endsIn_raise_packing

/-- A code with a bit that fills a byte which cannot be written (R209): the codes' bits up to that one are packed. -/
theorem loop_shiftBit_fails (hlt : b.length < 8 * k + 8) (hle : 8 * k + 8 ≤ (b ++ (s.codeAt sym).bitList).length)
    (hbefore : ∀ q < k, s.takesByte q) (hk : k ≤ s.dstCap.toNat) (h : ¬ s.takesByte k) :
    (Ctl.loop shiftBit (s.codeAt sym).len.toNat (s.packing b (b.length / 8) i 0 sym)).EndsIn
      ((toIdle (raise s (s.byteErr k))).output ((b ++ (s.codeAt sym).bitList).take (8 * k + 8)) i k) := by
  obtain ⟨m, hm⟩ : ∃ m, 8 * k + 8 = b.length + (m + 1) := ⟨8 * k + 7 - b.length, by omega⟩
  have hmlen : m < (s.codeAt sym).len.toNat := by
    rw [List.length_append, CodeEntry.length_bitList] at hle
    omega
  obtain ⟨r, hr⟩ : ∃ r, (s.codeAt sym).len.toNat = m + (r + 1) := ⟨(s.codeAt sym).len.toNat - m - 1, by omega⟩
  have hfull : (b.length + m) / 8 = k := by omega
  have hlen : (b ++ (s.codeAt sym).bitList.take m).length = 8 * k + 7 := by
    rw [List.length_append, List.length_take_of_le (by simpa using hmlen.le)]
    omega
  have htake : (b ++ (s.codeAt sym).bitList).take (8 * k + 8) =
      b ++ (s.codeAt sym).bitList.take m ++ [(s.codeAt sym).bit m] := by
    rw [hm, List.take_length_add_append, CodeEntry.take_succ_bitList hmlen, List.append_assoc]
  rw [htake]
  have hloop := loop_shiftBit (b := b) (i := i) hmlen.le (hfull ▸ hbefore)
  rw [hfull] at hloop
  rw [hr, Ctl.loop_add, hloop, Ctl.andThen_go, Ctl.loop_succ,
    shiftBit_packing_fails (CodeEntry.bit_ofNat _ (by omega)) hlen hk h]
  exact endsIn_raise_packing.andThen _

end Exits

/-! ### The source -/

/-- Source symbol `i` as it stands before the command. -/
def State.srcSym (s : State) (i : Nat) : Byte := s.mem.byte (s.srcByteAddr i)

/-- The Bitstream of the first `n` source symbols (R200). -/
def State.bitsBefore (s : State) (n : Nat) : List Bool := encodedBits s (s.srcBytes.take n)

theorem bitsBefore_zero (s : State) : s.bitsBefore 0 = [] := congrArg (encodedBits s) List.take_zero

theorem take_srcBytes (s : State) : s.srcBytes.take s.srcLen.toNat = s.srcBytes :=
  List.take_of_length_le (Memory.length_bytesFrom _ _ _).le

theorem bitsBefore_srcLen (s : State) : s.bitsBefore s.srcLen.toNat = encodedBits s s.srcBytes :=
  congrArg (encodedBits s) (take_srcBytes s)

theorem bitsBefore_succ {s : State} {n : Nat} (hn : n < s.srcLen.toNat) :
    s.bitsBefore (n + 1) = s.bitsBefore n ++ (s.codeAt (s.srcSym n)).bitList := by
  rw [State.bitsBefore, State.bitsBefore, State.srcBytes, Memory.take_bytesFrom _ _ hn, Memory.take_bytesFrom _ _ hn.le,
    Memory.bytesFrom_succ, encodedBits, encodedBits, List.flatMap_append, List.flatMap_singleton]
  rfl

/-- Which of the first symbols have a code. -/
theorem coded_iff {s : State} {n : Nat} (hn : n ≤ s.srcLen.toNat) :
    (∀ x ∈ s.srcBytes.take n, 0 < (s.codeAt x).len.toNat) ↔ ∀ j < n, (s.codeAt (s.srcSym j)).len ≠ 0 := by
  have hpos (x : Byte) : 0 < (s.codeAt x).len.toNat ↔ (s.codeAt x).len ≠ 0 := by
    rw [Nat.pos_iff_ne_zero, Ne, Ne, ← BitVec.toNat_inj]
    rfl
  rw [State.srcBytes, Memory.take_bytesFrom _ _ hn, Memory.bytesFrom, List.forall_mem_map]
  simp only [hpos, List.mem_range]
  rfl

section Source

variable {s : State} {b : List Bool} {n i : Nat} {kbit : BitVec 8} {sym : Byte}

/-- What `E_FETCH` and `E_LOOKUP` need of source symbol `i` after `n` bytes have been written. -/
structure State.Readable (s : State) (n i : Nat) : Prop where
  small : i < 2 ^ 32
  valid : s.platform.memValid (s.srcByteAddr i) = true
  apart : ∀ q < n, s.srcByteAddr i ≠ s.dstAddr.toNat + q

theorem packing_srcByteAddr (hi : i < 2 ^ 32) :
    (s.packing b n i kbit sym).srcByteAddr (s.packing b n i kbit sym).pack.i.toNat = s.srcByteAddr i :=
  congrArg s.srcByteAddr (Nat.mod_eq_of_lt hi)

/-- The bytes written before do not change the symbol that is read (R85). -/
theorem fetchSymbol_packing (h : s.Readable n i) :
    fetchSymbol (s.packing b n i kbit sym) = .go (s.packing b n i kbit (s.srcSym i)) := by
  obtain ⟨hi, hvalid, hapart⟩ := h
  have hbyte : (s.packing b n i kbit sym).mem.byte (s.srcByteAddr i) = s.srcSym i :=
    Memory.byte_writeAll_of_ne s.mem (by simpa using hapart)
  have hcases := fetchSymbol_cases (s.packing b n i kbit sym)
  simp only [packing_srcByteAddr hi, hbyte] at hcases
  rcases hcases with ⟨hinvalid, -⟩ | ⟨-, hgo⟩
  · exact absurd (hvalid.symm.trans hinvalid) (by decide)
  · exact hgo

theorem fetchSymbol_packing_invalid (hi : i < 2 ^ 32) (hinvalid : s.platform.memValid (s.srcByteAddr i) = false) :
    fetchSymbol (s.packing b n i kbit sym) =
      .ended (raise (s.packing b n i kbit sym) (.ioRead (s.srcByteAddr i))) := by
  have hcases := fetchSymbol_cases (s.packing b n i kbit sym)
  simp only [packing_srcByteAddr hi] at hcases
  rcases hcases with ⟨-, hend⟩ | ⟨hvalid, -⟩
  · exact hend
  · exact absurd (hvalid.symm.trans hinvalid) (by decide)

theorem lookupSymbol_packing (h : (s.codeAt sym).len ≠ 0) :
    lookupSymbol (s.packing b n i kbit sym) = .go (s.packing b n i 0 sym) := by
  rcases lookupSymbol_cases (s.packing b n i kbit sym) with ⟨hzero, -⟩ | ⟨-, hgo⟩
  · exact absurd hzero h
  · exact hgo

theorem lookupSymbol_packing_unknown (h : (s.codeAt sym).len = 0) :
    lookupSymbol (s.packing b n i kbit sym) = .ended (raise (s.packing b n i kbit sym) (.unknownSymbol sym)) := by
  rcases lookupSymbol_cases (s.packing b n i kbit sym) with ⟨-, hend⟩ | ⟨hne, -⟩
  · exact hend
  · exact absurd h hne

/-! ### A source symbol -/

theorem nextSymbol_packing : nextSymbol (s.packing b n i kbit sym) = s.packing b n (i + 1) kbit sym := by
  simp only [nextSymbol, State.packing, State.output, BitVec.ofNat_add]
  rfl

/-- A symbol that is read and has a code is packed bit by bit (R201). -/
theorem encodeSymbol_packing (h : s.Readable n i) (hcode : (s.codeAt (s.srcSym i)).len ≠ 0) :
    encodeSymbol (s.packing b n i kbit sym) =
      (Ctl.loop shiftBit (s.codeAt (s.srcSym i)).len.toNat (s.packing b n i 0 (s.srcSym i))).andThen fun t =>
        .go (nextSymbol t) := by
  rw [encodeSymbol, fetchSymbol_packing h, Ctl.andThen_go, lookupSymbol_packing hcode]
  rfl

/-- A symbol whose code fills a byte that cannot be written (R209). -/
theorem encodeSymbol_fails {k : Nat} (h : s.Readable (b.length / 8) i) (hcode : (s.codeAt (s.srcSym i)).len ≠ 0)
    (hlt : b.length < 8 * k + 8) (hle : 8 * k + 8 ≤ (b ++ (s.codeAt (s.srcSym i)).bitList).length)
    (hbefore : ∀ q < k, s.takesByte q) (hk : k ≤ s.dstCap.toNat) (hno : ¬ s.takesByte k) :
    (encodeSymbol (s.packing b (b.length / 8) i kbit sym)).EndsIn
      ((toIdle (raise s (s.byteErr k))).output
        ((b ++ (s.codeAt (s.srcSym i)).bitList).take (8 * k + 8)) i k) := by
  rw [encodeSymbol_packing h hcode]
  exact (loop_shiftBit_fails hlt hle hbefore hk hno).andThen _

/-- An unknown symbol (R205). -/
theorem encodeSymbol_unknown (h : s.Readable n i) (hcode : (s.codeAt (s.srcSym i)).len = 0) {t : State}
    (hexit : ∀ kbit sym,
      (exitThroughFlush (.ended (raise (s.packing b n i kbit sym) (.unknownSymbol (s.srcSym i))))).EndsIn t) :
    (encodeSymbol (s.packing b n i kbit sym)).EndsIn t := by
  rw [encodeSymbol, fetchSymbol_packing h, Ctl.andThen_go, lookupSymbol_packing_unknown hcode]
  exact (hexit _ _).andThen _

/-- A source byte at an invalid address (R209). -/
theorem encodeSymbol_invalid (hi : i < 2 ^ 32) (hinvalid : s.platform.memValid (s.srcByteAddr i) = false) {t : State}
    (hexit : ∀ kbit sym,
      (exitThroughFlush (.ended (raise (s.packing b n i kbit sym) (.ioRead (s.srcByteAddr i))))).EndsIn t) :
    (encodeSymbol (s.packing b n i kbit sym)).EndsIn t := by
  rw [encodeSymbol, fetchSymbol_packing_invalid hi hinvalid, Ctl.andThen_ended]
  exact (hexit _ _).andThen _

end Source

/-- ENCODE gets past the first `n` source symbols: they can be read and have codes, the full bytes of their Bitstream
can be written, and writing them does not change the symbols. -/
structure State.Packs (s : State) (n : Nat) : Prop where
  inside : n ≤ s.srcLen.toNat
  valid : s.srcValid n
  coded : ∀ j < n, (s.codeAt (s.srcSym j)).len ≠ 0
  room : ∀ q < (s.bitsBefore n).length / 8, s.takesByte q
  apart : s.disjointBuffers n ((s.bitsBefore n).length / 8)

/-- The first `n` symbols are packed (R201). -/
theorem State.Packs.loop_encodeSymbol {s : State} {n : Nat} (h : s.Packs n) :
    ∃ kbit sym, Ctl.loop encodeSymbol n (s.packing [] 0 0 0 0) =
      .go (s.packing (s.bitsBefore n) ((s.bitsBefore n).length / 8) n kbit sym) := by
  induction n with
  | zero => exact ⟨0, 0, by rw [bitsBefore_zero]; rfl⟩
  | succ n ih =>
    obtain ⟨hin, hvalid, hcoded, hroom, hapart⟩ := h
    have hbits := bitsBefore_succ hin
    have hlen : (s.bitsBefore (n + 1)).length = (s.bitsBefore n).length + (s.codeAt (s.srcSym n)).len.toNat := by
      rw [hbits, List.length_append, CodeEntry.length_bitList]
    obtain ⟨kbit, sym, hloop⟩ := ih ⟨by omega, fun j hj => hvalid j (by omega), fun j hj => hcoded j (by omega),
      fun q hq => hroom q (by omega), fun j hj q hq => hapart j (by omega) q (by omega)⟩
    have hread : s.Readable ((s.bitsBefore n).length / 8) n :=
      ⟨by omega, hvalid n (by omega), fun q hq => hapart n (by omega) q (by omega)⟩
    have hshift := loop_shiftBit (s := s) (b := s.bitsBefore n) (i := n) (sym := s.srcSym n) (Nat.le_refl _)
      (hlen ▸ hroom)
    rw [List.take_of_length_le (CodeEntry.length_bitList _).le, ← hbits, ← hlen] at hshift
    rw [Ctl.loop_add, hloop, Ctl.andThen_go, Ctl.loop_succ, encodeSymbol_packing hread (hcoded n (by omega)), hshift,
      Ctl.andThen_go, nextSymbol_packing]
    exact ⟨_, _, rfl⟩

/-! ### Errors of the command -/

section Errors

variable {s : State} {b : List Bool} {i : Nat} {kbit : BitVec 8} {sym : Byte}

/-- With an error recorded `raise` sets the sticky bit only (R270). -/
theorem raise_of_err (e : Err) (h : s.status.err ≠ 0) :
    raise s e = { s with errSticky := s.errSticky ||| e.stickyBit } := if_neg h

/-- The first error of the command is recorded (R266). -/
theorem toIdle_raise_clearError (s : State) (e : Err) :
    toIdle (raise (clearError s) e) = s.commandEnd e.code e.sub e.info e.stickyBit := rfl

theorem toIdle_raise_raise_clearError (s : State) (e e' : Err) :
    toIdle (raise (raise (clearError s) e) e') = s.commandEnd e.code e.sub e.info (e.stickyBit ||| e'.stickyBit) := by
  rw [raise_of_err e' (raise_err_ne_zero _ e), raise_errSticky, BitVec.or_assoc]
  rfl

theorem byteErr_stickyBit (s : State) (q : Nat) : (s.byteErr q).stickyBit = 0x02 := by
  unfold State.byteErr
  split <;> rfl

/-- What ENCODE records of a destination byte that cannot be written (R113, R114, R267). -/
theorem toIdle_raise_byteErr (s : State) (k : Nat) :
    toIdle (raise (clearError s) (s.byteErr k)) =
      s.commandEnd 1 (if k = s.dstCap.toNat then 3 else 2) (BitVec.ofNat 32 (s.dstAddr.toNat + k)) 0x02 := by
  rw [toIdle_raise_clearError, byteErr_stickyBit, State.byteErr]
  split <;> rfl

/-- An exit with an error whose flush fails (R209, R270). -/
theorem exitThroughFlush_clearError_fails (e : Err) {sticky : Word} (hsticky : e.stickyBit ||| 0x02 = sticky)
    (hpart : b.length % 8 ≠ 0) (hn : b.length / 8 ≤ s.dstCap.toNat) (h : ¬ s.takesByte (b.length / 8)) :
    (exitThroughFlush (.ended (raise ((clearError s).packing b (b.length / 8) i kbit sym) e))).EndsIn
      ((s.commandEnd e.code e.sub e.info sticky).output b i (b.length / 8)) := by
  rw [← hsticky, ← byteErr_stickyBit s (b.length / 8), ← toIdle_raise_raise_clearError]
  exact exitThroughFlush_packing_fails (s := clearError s) hpart hn h

end Errors

/-! ### The whole command -/

section Command

variable {s t : State} {i n : Nat}

theorem State.Packs.clearError (h : s.Packs n) : (clearError s).Packs n :=
  ⟨h.inside, h.valid, h.coded, h.room, h.apart⟩

theorem exec_encode_eq (s : State) :
    exec .encode s =
      ((Ctl.loop encodeSymbol s.srcLen.toNat ((clearError s).packing [] 0 0 0 0)).andThen flushAcc).finish := rfl

/-- The whole source is packed, and the flush ends the command. -/
theorem exec_encode_flush (h : s.Packs s.srcLen.toNat)
    (hflush : ∀ kbit sym, (flushAcc ((clearError s).packing (encodedBits s s.srcBytes)
      ((encodedBits s s.srcBytes).length / 8) s.srcLen.toNat kbit sym)).finish = .next t) :
    exec .encode s = .next t := by
  obtain ⟨kbit, sym, hloop⟩ := h.clearError.loop_encodeSymbol
  rw [exec_encode_eq, hloop, Ctl.andThen_go]
  exact bitsBefore_srcLen s ▸ hflush kbit sym

/-- The command ends in source symbol `i`. -/
theorem exec_encode_ends (h : s.Packs i) (hi : i < s.srcLen.toNat)
    (hend : ∀ kbit sym, (encodeSymbol ((clearError s).packing (s.bitsBefore i)
      ((s.bitsBefore i).length / 8) i kbit sym)).EndsIn t) : exec .encode s = .next t := by
  obtain ⟨m, hm⟩ : ∃ m, s.srcLen.toNat = i + (m + 1) := ⟨s.srcLen.toNat - i - 1, by omega⟩
  obtain ⟨kbit, sym, hloop⟩ := h.clearError.loop_encodeSymbol
  rw [exec_encode_eq, hm, Ctl.loop_add, hloop, Ctl.andThen_go, Ctl.loop_succ]
  exact (((hend kbit sym).andThen _).andThen _).finish

/-- The command ends at an unknown symbol. -/
theorem exec_encode_unknown (h : s.Packs i) (hi : i < s.srcLen.toNat)
    (hread : s.Readable ((s.bitsBefore i).length / 8) i) (hcode : (s.codeAt (s.srcSym i)).len = 0)
    (hexit : ∀ kbit sym, (exitThroughFlush (.ended (raise ((clearError s).packing (s.bitsBefore i)
      ((s.bitsBefore i).length / 8) i kbit sym) (.unknownSymbol (s.srcSym i))))).EndsIn t) :
    exec .encode s = .next t :=
  exec_encode_ends h hi fun _ _ =>
    encodeSymbol_unknown (s := clearError s) ⟨hread.small, hread.valid, hread.apart⟩ hcode hexit

/-- The command ends at an invalid source byte. -/
theorem exec_encode_invalid (h : s.Packs i) (hi : i < s.srcLen.toNat)
    (hinvalid : s.platform.memValid (s.srcByteAddr i) = false)
    (hexit : ∀ kbit sym, (exitThroughFlush (.ended (raise ((clearError s).packing (s.bitsBefore i)
      ((s.bitsBefore i).length / 8) i kbit sym) (.ioRead (s.srcByteAddr i))))).EndsIn t) :
    exec .encode s = .next t :=
  exec_encode_ends h hi fun _ _ =>
    encodeSymbol_invalid (s := clearError s) (hi.trans s.srcLen.isLt) hinvalid hexit

/-- The command ends in a symbol whose code fills destination byte `k`, which cannot be written. -/
theorem exec_encode_fails {k : Nat} (h : s.Packs i) (hi : i < s.srcLen.toNat)
    (hread : s.Readable ((s.bitsBefore i).length / 8) i) (hcode : (s.codeAt (s.srcSym i)).len ≠ 0)
    (hlt : (s.bitsBefore i).length < 8 * k + 8) (hle : 8 * k + 8 ≤ (s.bitsBefore (i + 1)).length)
    (hbefore : ∀ q < k, s.takesByte q) (hk : k ≤ s.dstCap.toNat) (hno : ¬ s.takesByte k) :
    exec .encode s =
      .next ((toIdle (raise (clearError s) (s.byteErr k))).output ((s.bitsBefore (i + 1)).take (8 * k + 8)) i k) := by
  rw [bitsBefore_succ hi] at hle ⊢
  exact exec_encode_ends h hi fun _ _ =>
    encodeSymbol_fails (s := clearError s) ⟨hread.small, hread.valid, hread.apart⟩ hcode hlt hle hbefore hk hno

end Command

/-! ### The statements about ENCODE -/

section Premises

variable {s : State} {i n : Nat}

theorem takesByte_of_dstValid (hn : n ≤ s.dstCap.toNat) (hdst : s.dstValid n) : ∀ q < n, s.takesByte q :=
  fun q hq => ⟨hq.trans_le hn, hdst q hq⟩

theorem not_takesByte (h : n = s.dstCap.toNat ∨ s.platform.memValid (s.dstAddr.toNat + n) = false) :
    ¬ s.takesByte n := by
  rintro ⟨hlt, hvalid⟩
  rcases h with hend | hinvalid
  · exact absurd hlt hend.not_lt
  · exact absurd (hvalid.symm.trans hinvalid) (by decide)

/-- The premises of the statements, with room for at least the full bytes. -/
theorem packs_of_premises (hi : i ≤ s.srcLen.toNat) (hvalid : s.srcValid i)
    (hcoded : ∀ x ∈ s.srcBytes.take i, 0 < (s.codeAt x).len.toNat) (hroom : ∀ q < n, s.takesByte q)
    (hapart : s.disjointBuffers i n) (hle : (s.bitsBefore i).length / 8 ≤ n) : s.Packs i where
  inside := hi
  valid := hvalid
  coded := (coded_iff hi).1 hcoded
  room q hq := hroom q (by omega)
  apart j hj q hq := hapart j hj q (by omega)

theorem State.srcValid.mono {j : Nat} (h : s.srcValid j) (hij : i ≤ j) : s.srcValid i := fun k hk => h k (by omega)

theorem State.disjointBuffers.mono {j m : Nat} (h : s.disjointBuffers j m) (hij : i ≤ j) (hnm : n ≤ m) :
    s.disjointBuffers i n := fun a ha q hq => h a (by omega) q (by omega)

/-- Source symbol `i` is among those that the premises call valid and apart from the output. -/
theorem readable_of_premises (hi : i < s.srcLen.toNat) (hvalid : s.platform.memValid (s.srcByteAddr i) = true)
    (hapart : s.disjointBuffers (i + 1) n) : s.Readable n i :=
  ⟨hi.trans s.srcLen.isLt, hvalid, hapart i (Nat.lt_succ_self i)⟩

end Premises

/-- Settles O35: the loop packs the whole source, and the flush writes the partial byte. -/
theorem encodePacksTheCodes : Obligations.EncodePacksTheCodes := by
  intro s b n hvalid hcoded hcap hdst hapart
  have hroom := takesByte_of_dstValid hcap hdst
  have hpacks : s.Packs s.srcLen.toNat :=
    packs_of_premises (Nat.le_refl _) hvalid ((take_srcBytes s).symm ▸ hcoded) hroom hapart
      (bitsBefore_srcLen s ▸ (by omega : b.length / 8 ≤ n))
  have hexec : exec .encode s = .next ((s.commandEnd 0 0 0 0).output b s.srcLen.toNat n) := by
    refine exec_encode_flush hpacks fun kbit sym => ?_
    rw [flushAcc_packing (s := clearError s) fun hpart => hroom (b.length / 8) (by omega), commandEnd_zero]
    rfl
  rw [State.output, BitVec.ofNat_toNat, BitVec.setWidth_eq] at hexec
  exact ⟨_, hexec, Memory.storedAt_writeAll _ _ _⟩

/-- Settles O37: the loop packs the symbols before the unknown one, and the exit flushes them. -/
theorem encodeStopsAtAnUnknownSymbol : Obligations.EncodeStopsAtAnUnknownSymbol := by
  intro s i b n x hi hvalid hcoded hunknown hcap hdst hapart
  have hroom := takesByte_of_dstValid hcap hdst
  have hle : b.length / 8 ≤ n := by omega
  have hpacks : s.Packs i :=
    packs_of_premises hi.le (hvalid.mono (Nat.le_succ i)) hcoded hroom (hapart.mono (Nat.le_succ i) (Nat.le_refl n)) hle
  have hread : s.Readable (b.length / 8) i :=
    readable_of_premises hi (hvalid i (Nat.lt_succ_self i)) (hapart.mono (Nat.le_refl _) hle)
  have hpartial (hpart : b.length % 8 ≠ 0) : s.takesByte (b.length / 8) := hroom _ (by omega)
  have hexec : exec .encode s = .next ((s.commandEnd 2 0 (x.zeroExtend 32) 0x04).output b i n) :=
    exec_encode_unknown hpacks hi hread hunknown fun _ _ =>
      exitThroughFlush_packing (s := clearError s) (e := .unknownSymbol x) hpartial
  exact ⟨_, hexec, Memory.storedAt_writeAll _ _ _⟩

/-- Settles O38: the loop packs the symbols before the invalid byte, and the exit flushes them. -/
theorem encodeStopsAtAnInvalidSourceByte : Obligations.EncodeStopsAtAnInvalidSourceByte := by
  intro s i b n hi hvalid hcoded hinvalid hcap hdst hapart
  have hroom := takesByte_of_dstValid hcap hdst
  have hpacks : s.Packs i := packs_of_premises hi.le hvalid hcoded hroom hapart (by omega : b.length / 8 ≤ n)
  have hpartial (hpart : b.length % 8 ≠ 0) : s.takesByte (b.length / 8) := hroom _ (by omega)
  have hexec : exec .encode s =
      .next ((s.commandEnd 1 1 (BitVec.ofNat 32 (s.srcAddr.toNat + i)) 0x02).output b i n) :=
    exec_encode_invalid hpacks hi hinvalid fun _ _ =>
      exitThroughFlush_packing (s := clearError s) (e := .ioRead (s.srcByteAddr i)) hpartial
  exact ⟨_, hexec, Memory.storedAt_writeAll _ _ _⟩

/-- Settles O39: the flush on the way out raises a second error, which leaves the first one recorded. -/
theorem encodeKeepsTheFirstError : Obligations.EncodeKeepsTheFirstError := by
  intro s i b n x hi hvalid hcoded hpart hcap hdst hfull
  have hroom := takesByte_of_dstValid hcap hdst
  have hno := not_takesByte hfull
  rw [take_packBits (by omega : n ≤ (b.length + 7) / 8)]
  refine ⟨fun hmem hunknown hapart => ?_, fun hinvalid hapart => ?_⟩
  · have hpacks : s.Packs i :=
      packs_of_premises hi.le hvalid hcoded hroom (hapart.mono (Nat.le_succ i) (Nat.le_refl n)) (Nat.le_refl n)
    have hexec : exec .encode s = .next ((s.commandEnd 2 0 (x.zeroExtend 32) 0x06).output b i n) :=
      exec_encode_unknown hpacks hi (readable_of_premises hi hmem hapart) hunknown fun _ _ =>
        exitThroughFlush_clearError_fails (.unknownSymbol x)
          (by decide : (0x04#32 ||| 0x02#32) = 0x06#32) hpart hcap hno
    exact ⟨_, hexec, Memory.storedAt_writeAll _ _ _⟩
  · have hpacks : s.Packs i := packs_of_premises hi.le hvalid hcoded hroom hapart (Nat.le_refl n)
    have hexec : exec .encode s =
        .next ((s.commandEnd 1 1 (BitVec.ofNat 32 (s.srcAddr.toNat + i)) 0x02).output b i n) :=
      exec_encode_invalid hpacks hi hinvalid fun _ _ =>
        exitThroughFlush_clearError_fails (.ioRead (s.srcByteAddr i))
          (by decide : (0x02#32 ||| 0x02#32) = 0x02#32) hpart hcap hno
    exact ⟨_, hexec, Memory.storedAt_writeAll _ _ _⟩

/-- Settles O40: the code that fills byte `k` is packed up to that bit, or the flush finds no place for byte `k`. -/
theorem encodeStopsAtTheDestination : Obligations.EncodeStopsAtTheDestination := by
  intro s k hdst hfail
  have hk : k ≤ s.dstCap.toNat := by omega
  have hroom := takesByte_of_dstValid hk hdst
  have hno := not_takesByte (hfail.imp_right And.right)
  constructor
  · intro n b hn hvalid hcoded hlt hle hapart
    have hall := (coded_iff hn).1 hcoded
    have hbefore : (s.bitsBefore n).length / 8 ≤ k := by
      have hlt : (s.bitsBefore n).length < 8 * k + 8 := hlt
      omega
    have hpacks : s.Packs n :=
      packs_of_premises hn.le (hvalid.mono (Nat.le_succ n)) ((coded_iff hn.le).2 fun j hj => hall j (by omega)) hroom
        (hapart.mono (Nat.le_succ n) (Nat.le_refl k)) hbefore
    have hread : s.Readable ((s.bitsBefore n).length / 8) n :=
      readable_of_premises hn (hvalid n (Nat.lt_succ_self n)) (hapart.mono (Nat.le_refl _) hbefore)
    have hle : 8 * k + 8 ≤ (s.bitsBefore (n + 1)).length := hle
    have hexec := exec_encode_fails hpacks hn hread (hall n (Nat.lt_succ_self n)) hlt hle hroom hk hno
    rw [toIdle_raise_byteErr, State.output, List.length_take_of_le hle,
      packBytes_take _ (Nat.le_add_right (8 * k) 8)] at hexec
    rw [take_packBits (by omega)]
    exact ⟨_, hexec, Memory.storedAt_writeAll _ _ _⟩
  · intro b hvalid hcoded hpart hk8 hapart
    subst hk8
    have hpacks : s.Packs s.srcLen.toNat :=
      packs_of_premises (Nat.le_refl _) hvalid ((take_srcBytes s).symm ▸ hcoded) hroom hapart
        (bitsBefore_srcLen s ▸ Nat.le_refl (b.length / 8))
    have hexec : exec .encode s =
        .next ((toIdle (raise (clearError s) (s.byteErr (b.length / 8)))).output b s.srcLen.toNat (b.length / 8)) := by
      refine exec_encode_flush hpacks fun kbit sym => ?_
      rw [flushAcc_packing_fails (s := clearError s) hpart hk hno]
      exact endsIn_raise_packing.finish
    rw [toIdle_raise_byteErr, State.output, BitVec.ofNat_toNat, BitVec.setWidth_eq] at hexec
    rw [take_packBits (by omega)]
    exact ⟨_, hexec, Memory.storedAt_writeAll _ _ _⟩

end Sys2Proof.Machine

/-! SUPPORT and the settling of O41 to O48: DECODE (R222 to R224). Where the walk stands after some bits of the source,
and with which symbols, is a relation on the tree and the source alone: `State.Reads`. A running DECODE follows it bit
by bit, until a bit raises an error or the command has what it wants. -/

namespace Sys2Proof.Machine

/-! ### Where the bits of the source lead -/

/-- Bit `j` of the source as it stands before the command (R76). -/
def State.srcBit (s : State) (j : Nat) : Bool := streamBit (s.srcSym (j / 8)) (j % 8)

theorem streamFrom_succ (s : State) (j : Nat) :
    streamFrom s.mem s.srcAddr.toNat (j + 1) = streamFrom s.mem s.srcAddr.toNat j ++ [s.srcBit j] := by
  simp [streamFrom, List.range_succ, State.srcBit, State.srcSym, State.srcByteAddr]

@[simp] theorem length_streamFrom (m : Memory) (a n : Nat) : (streamFrom m a n).length = n := by simp [streamFrom]

/-- The first `j` bits of the source are the codes of `xs` and a beginning of a code that leads to the internal node
`p`. -/
inductive State.Reads (s : State) : Nat → List Byte → Idx → Prop
  /-- Before the first bit the walk is at the root. -/
  | start : s.Reads 0 [] s.root
  /-- A bit inside a code. -/
  | inner {j : Nat} {xs : List Byte} {q p : Idx} : s.Reads j xs q → followPath s.node q [s.srcBit j] = some p →
      (s.nodeAt p).map Node.tag = some .internal → s.Reads (j + 1) xs p
  /-- The last bit of a code. -/
  | symbol {j : Nat} {xs : List Byte} {q i : Idx} {y : Byte} : s.Reads j xs q →
      followPath s.node q [s.srcBit j] = some i → leafOf s.node i y → s.Reads (j + 1) (xs ++ [y]) s.root

/-- The common start of a command touches neither the tree nor the source. -/
theorem State.Reads.clearError {s : State} {j : Nat} {xs : List Byte} {p : Idx} (h : s.Reads j xs p) :
    (clearError s).Reads j xs p := by
  induction h with
  | start => exact .start
  | inner _ hpath hint ih => exact .inner ih hpath hint
  | symbol _ hpath hleaf ih => exact .symbol ih hpath hleaf

/-- The last bit of a path at the end of the source bits. -/
theorem exists_last_bit {s : State} {k : Nat} {b c : List Bool} {i : Idx}
    (hbits : streamFrom s.mem s.srcAddr.toNat k = b ++ c) (hc : followPath s.node s.root c = some i) (hne : c ≠ []) :
    ∃ j d q, k = j + 1 ∧ streamFrom s.mem s.srcAddr.toNat j = b ++ d ∧ followPath s.node s.root d = some q ∧
      (s.nodeAt q).map Node.tag = some .internal ∧ followPath s.node q [s.srcBit j] = some i := by
  obtain ⟨d, bit, rfl⟩ := c.eq_nil_or_concat'.resolve_left hne
  obtain ⟨q, n, hq, hn, ht, hchild⟩ := exists_parent_of_followPath_snoc hc
  match k with
  | 0 => simp [streamFrom] at hbits
  | j + 1 =>
    rw [streamFrom_succ, ← List.append_assoc] at hbits
    obtain ⟨hinit, hlast⟩ := List.append_inj' hbits rfl
    obtain rfl := List.singleton_injective hlast
    exact ⟨j, d, q, rfl, hinit, hq, by simp [State.nodeAt, hn, ht], by simp [followPath, hn, ht, hchild]⟩

section Codes

variable {s : State} {code : Byte → List Bool}

theorem TreeShape.code_ne_nil (h : TreeShape s) {c : List Bool} {x : Byte} (hc : isCodeOf s c x) : c ≠ [] :=
  List.length_pos_iff.1 (h.length_of_isCodeOf hc).1

/-- The premises of the statements say where the walk stands. -/
theorem TreeShape.reads (h : TreeShape s) {k : Nat} {xs : List Byte} {r : List Bool} {p : Idx}
    (hcode : ∀ x ∈ xs, isCodeOf s (code x) x)
    (hbits : streamFrom s.mem s.srcAddr.toNat k = xs.flatMap code ++ r) (hr : followPath s.node s.root r = some p)
    (hint : (s.nodeAt p).map Node.tag = some .internal) : s.Reads k xs p := by
  induction k generalizing xs r p with
  | zero =>
    obtain ⟨hxs, rfl⟩ := List.append_eq_nil_iff.1 hbits.symm
    obtain rfl : xs = [] := List.eq_nil_iff_forall_not_mem.2 fun x hx =>
      h.code_ne_nil (hcode x hx) (List.flatMap_eq_nil_iff.1 hxs x hx)
    cases hr
    exact .start
  | succ k ih =>
    by_cases hnil : r = []
    · subst hnil
      cases hr
      rcases xs.eq_nil_or_concat' with rfl | ⟨ys, y, rfl⟩
      · exact absurd (congrArg List.length hbits) (by simp)
      · obtain ⟨i, hi, hleaf⟩ := hcode y (by simp)
        rw [List.append_nil, List.flatMap_append, List.flatMap_singleton] at hbits
        obtain ⟨j, d, q, hk, hinit, hd, hq, hstep⟩ := exists_last_bit hbits hi (h.code_ne_nil ⟨i, hi, hleaf⟩)
        cases hk
        exact .symbol (ih (fun x hx => hcode x (by simp [hx])) hinit hd hq) hstep hleaf
    · obtain ⟨j, d, q, hk, hinit, hd, hq, hstep⟩ := exists_last_bit hbits hr hnil
      cases hk
      exact .inner (ih hcode hinit hd hq) hstep hint

/-- What is read before the bit that leads to a node which is not internal. -/
theorem TreeShape.reads_before (h : TreeShape s) {k : Nat} {xs : List Byte} {c : List Bool} {i : Idx} {n : Node}
    (hcode : ∀ x ∈ xs, isCodeOf s (code x) x)
    (hbits : streamFrom s.mem s.srcAddr.toNat k = xs.flatMap code ++ c) (hc : followPath s.node s.root c = some i)
    (hn : s.nodeAt i = some n) (ht : n.tag ≠ .internal) :
    ∃ j q, k = j + 1 ∧ s.Reads j xs q ∧ followPath s.node q [s.srcBit j] = some i := by
  obtain ⟨j, d, q, hk, hinit, hd, hq, hstep⟩ := exists_last_bit hbits hc (h.ne_nil_of_not_internal hc hn ht)
  exact ⟨j, q, hk, h.reads hcode hinit hd hq, hstep⟩

/-- What is read before the last bit of the code of `y`. -/
theorem TreeShape.reads_before_symbol (h : TreeShape s) {k : Nat} {xs : List Byte} {y : Byte}
    (hcode : ∀ x ∈ xs ++ [y], isCodeOf s (code x) x)
    (hbits : streamFrom s.mem s.srcAddr.toNat k = (xs ++ [y]).flatMap code) :
    ∃ j q i, k = j + 1 ∧ s.Reads j xs q ∧ followPath s.node q [s.srcBit j] = some i ∧ leafOf s.node i y := by
  obtain ⟨i, hi, n, hn, ht, hy⟩ := hcode y (by simp)
  rw [List.flatMap_append, List.flatMap_singleton] at hbits
  obtain ⟨j, q, hk, hreads, hstep⟩ :=
    h.reads_before (fun x hx => hcode x (by simp [hx])) hbits hi hn (by simp [ht])
  exact ⟨j, q, i, hk, hreads, hstep, n, hn, ht, hy⟩

end Codes

/-! ### The state of a running DECODE -/

/-- `s` with the symbols `xs` written and `k` bits consumed, which the results count. -/
def State.decoded (s : State) (xs : List Byte) (k : Nat) : State :=
  { s with
    resBits := BitVec.ofNat 64 k, resSyms := BitVec.ofNat 32 xs.length, resBytes := BitVec.ofNat 32 xs.length
    mem := s.mem.writeAll s.dstAddr.toNat xs }

/-- The output, with the registers of U4. -/
def State.unpacking (s : State) (xs : List Byte) (k : Nat) (u : UnpackRegs) : State :=
  { s.decoded xs k with unpack := u }

/-- The source byte of the last bit before bit `j`, which `cur` holds (R225); 0 before the first bit. -/
def State.byteBefore (s : State) : Nat → Byte
  | 0 => 0
  | j + 1 => s.srcSym (j / 8)

/-- DECODE before bit `j`, the walk being at `p`. -/
def State.decoding (s : State) (xs : List Byte) (j : Nat) (p : Idx) : State :=
  s.unpacking xs j { cur := s.byteBefore j, j := BitVec.ofNat 64 j, pos := p }

/-- DECODE in bit `j`, whose byte is in `cur`; the walk is at `p`, and `k` bits count as consumed. -/
def State.inBit (s : State) (xs : List Byte) (j k : Nat) (p : Idx) : State :=
  s.unpacking xs k { cur := s.srcSym (j / 8), j := BitVec.ofNat 64 j, pos := p }

theorem toIdle_unpacking (s : State) (xs : List Byte) (k : Nat) (u : UnpackRegs) :
    toIdle (s.unpacking xs k u) = (toIdle s).decoded xs k := rfl

/-- The error registers are apart from the output and U4. -/
theorem raise_unpacking (s : State) (e : Err) (xs : List Byte) (k : Nat) (u : UnpackRegs) :
    raise (s.unpacking xs k u) e = (raise s e).unpacking xs k u := by
  by_cases h : s.status.err = 0 <;> simp only [raise, State.unpacking, State.decoded, h, if_true, if_false]

theorem endsIn_raise_unpacking {s : State} {e : Err} {xs : List Byte} {k : Nat} {u : UnpackRegs} :
    (Ctl.ended (raise (s.unpacking xs k u) e)).EndsIn ((toIdle (raise s e)).decoded xs k) :=
  ⟨_, rfl, by rw [raise_unpacking, toIdle_unpacking]⟩

section Bit

variable {s : State} {xs : List Byte} {j : Nat} {q i : Idx} {y : Byte}

/-! ### The parts of a bit -/

theorem toNat_bitIndex (hj : j / 8 < 2 ^ 32) : (BitVec.ofNat 64 j).toNat = j := by
  rw [BitVec.toNat_ofNat, Nat.mod_eq_of_lt (by omega)]

/-- With bit `j` in a byte that has been read, `cur` holds it already (R225). -/
theorem byteBefore_of_mod (h : j % 8 ≠ 0) : s.byteBefore j = s.srcSym (j / 8) := by
  match j with
  | j + 1 => exact congrArg s.srcSym (by omega)

/-- The symbols written before do not change the byte that is read (R85). -/
theorem fetchByte_decoding (h : s.Readable xs.length (j / 8)) :
    fetchByte (s.decoding xs j q) = .go (s.inBit xs j j q) := by
  obtain ⟨hj, hvalid, hapart⟩ := h
  have hnat : (s.decoding xs j q).unpack.j.toNat = j := toNat_bitIndex hj
  have hbyte : (s.decoding xs j q).mem.byte (s.srcByteAddr (j / 8)) = s.srcSym (j / 8) :=
    Memory.byte_writeAll_of_ne s.mem hapart
  have haddr : (s.decoding xs j q).srcByteAddr (j / 8) = s.srcByteAddr (j / 8) := rfl
  have hcases := fetchByte_cases (s.decoding xs j q)
  simp only [hnat, haddr, hbyte] at hcases
  rcases hcases with ⟨hmod, hgo⟩ | ⟨-, hinvalid, -⟩ | ⟨-, -, hgo⟩
  · rw [hgo, State.decoding, byteBefore_of_mod hmod, State.inBit]
  · exact absurd (hvalid.symm.trans hinvalid) (by decide)
  · exact hgo

/-- A source byte at an invalid address, when its first bit is due (R225). -/
theorem fetchByte_decoding_invalid {b : Nat} (hb : b < 2 ^ 32)
    (hinvalid : s.platform.memValid (s.srcByteAddr b) = false) :
    fetchByte (s.decoding xs (8 * b) q) = .ended (raise (s.decoding xs (8 * b) q) (.ioRead (s.srcByteAddr b))) := by
  have hnat : (s.decoding xs (8 * b) q).unpack.j.toNat = 8 * b := toNat_bitIndex (by omega)
  have haddr : (s.decoding xs (8 * b) q).srcByteAddr (8 * b / 8) = s.srcByteAddr b :=
    congrArg s.srcByteAddr (by omega)
  have hcases := fetchByte_cases (s.decoding xs (8 * b) q)
  simp only [hnat, haddr] at hcases
  rcases hcases with ⟨hmod, -⟩ | ⟨-, -, hend⟩ | ⟨-, hvalid, -⟩
  · omega
  · exact hend
  · exact absurd (hvalid.symm.trans hinvalid) (by decide)

/-- `D_WALK` along a path of one bit (R224, R228). -/
theorem walkBit_of_followPath {u : State} {c : Node}
    (hpath : followPath u.node u.unpack.pos [streamBit u.unpack.cur (u.unpack.j.toNat % 8)] = some i)
    (hc : u.nodeAt i = some c) :
    ((c.tag = .internal ∨ c.tag = .leaf) → walkBit u = .go (walkTo u i)) ∧
      (c.tag = .placeholder → walkBit u = .ended (raise (walkTo u i) (.placeholder i))) := by
  obtain ⟨n, hn, ht⟩ := internal_of_followPath_cons hpath
  have hchild := Option.some.inj (hpath.symm.trans (followPath_snoc (c := []) rfl hn ht _))
  subst hchild
  rw [walkBit_of_internal hn ht hc]
  refine ⟨fun htag => ?_, fun htag => ?_⟩
  · rcases htag with htag | htag <;> rw [htag] <;> rfl
  · rw [htag]
    rfl

/-- The walk in bit `j` arrives with `j + 1` bits consumed. -/
theorem walkTo_inBit : walkTo (s.inBit xs j j q) i = s.inBit xs j (j + 1) i :=
  congrArg (fun v => { s.inBit xs j (j + 1) i with resBits := v }) (BitVec.ofNat_add j 1).symm

/-- The last part of bit `j`. -/
theorem nextBit_inBit : nextBit (s.inBit xs j (j + 1) q) = s.decoding xs (j + 1) q :=
  congrArg (fun v => s.unpacking xs (j + 1) { cur := s.srcSym (j / 8), j := v, pos := q }) (BitVec.ofNat_add j 1).symm

/-- The next symbol goes after those written before, which fit the buffer (R226). -/
theorem inBit_dstByteAddr {k : Nat} (hn : xs.length ≤ s.dstCap.toNat) :
    (s.inBit xs j k q).dstByteAddr = s.dstAddr.toNat + xs.length :=
  congrArg (s.dstAddr.toNat + ·) (Nat.mod_eq_of_lt (hn.trans_lt s.dstCap.isLt))

theorem inBit_resBytes_eq {k : Nat} (hn : xs.length ≤ s.dstCap.toNat) :
    (s.inBit xs j k q).resBytes = (s.inBit xs j k q).dstCap ↔ xs.length = s.dstCap.toNat := by
  change BitVec.ofNat 32 xs.length = s.dstCap ↔ _
  rw [← BitVec.toNat_inj, BitVec.toNat_ofNat, Nat.mod_eq_of_lt (hn.trans_lt s.dstCap.isLt)]

/-- `D_EMIT` at the leaf of a symbol that can be written (R224, R226). -/
theorem emitSymbol_inBit (hleaf : leafOf s.node i y) (h : s.takesByte xs.length) :
    emitSymbol (s.inBit xs j (j + 1) i) = .go (s.inBit (xs ++ [y]) j (j + 1) s.root) := by
  obtain ⟨hcap, hvalid⟩ := h
  obtain ⟨n, hn, ht, rfl⟩ := hleaf
  have hcases := putByte_cases (s.inBit xs j (j + 1) i) n.sym
  rw [inBit_resBytes_eq hcap.le, inBit_dstByteAddr hcap.le] at hcases
  rw [emitSymbol_of_leaf (s := s.inBit xs j (j + 1) i) hn ht]
  rcases hcases with ⟨hfull, -⟩ | ⟨-, hinvalid, -⟩ | ⟨-, -, hgo⟩
  · omega
  · exact absurd (hvalid.symm.trans hinvalid) (by decide)
  · have hcount : BitVec.ofNat 32 (xs ++ [n.sym]).length = BitVec.ofNat 32 xs.length + 1 := by
      rw [List.length_append, BitVec.ofNat_add]
      rfl
    rw [hgo, Ctl.andThen_go]
    simp only [State.inBit, State.unpacking, State.decoded, hcount, Memory.writeAll_concat]
    rfl

/-- `D_EMIT` at the leaf of a symbol that cannot be written (R226). -/
theorem emitSymbol_inBit_fails (hleaf : leafOf s.node i y) (hn : xs.length ≤ s.dstCap.toNat)
    (h : ¬ s.takesByte xs.length) :
    emitSymbol (s.inBit xs j (j + 1) i) = .ended (raise (s.inBit xs j (j + 1) i) (s.byteErr xs.length)) := by
  obtain ⟨n, hnode, ht, rfl⟩ := hleaf
  have hcases := putByte_cases (s.inBit xs j (j + 1) i) n.sym
  rw [Ne, inBit_resBytes_eq hn, inBit_dstByteAddr hn] at hcases
  rw [emitSymbol_of_leaf (s := s.inBit xs j (j + 1) i) hnode ht]
  rcases hcases with ⟨hfull, hend⟩ | ⟨hroom, -, hend⟩ | ⟨hroom, hvalid, -⟩
  · rw [hend, State.byteErr, if_pos hfull, hfull]
    rfl
  · rw [hend, State.byteErr, if_neg hroom]
    rfl
  · exact absurd ⟨by omega, hvalid⟩ h

/-! ### A bit -/

/-- A bit whose byte can be read: the walk goes on from `q` (R224). -/
theorem decodeBit_decoding (hread : s.Readable xs.length (j / 8)) :
    decodeBit (s.decoding xs j q) =
      ((walkBit (s.inBit xs j j q)).andThen emitSymbol).andThen fun t => .go (nextBit t) := by
  rw [decodeBit, fetchByte_decoding hread, Ctl.andThen_go]

/-- Bit `j` as the walk reads it. -/
theorem followPath_inBit (hread : s.Readable xs.length (j / 8)) (hpath : followPath s.node q [s.srcBit j] = some i) :
    let u := s.inBit xs j j q
    followPath u.node u.unpack.pos [streamBit u.unpack.cur (u.unpack.j.toNat % 8)] = some i := by
  have hnat : (s.inBit xs j j q).unpack.j.toNat = j := toNat_bitIndex hread.small
  dsimp only
  rw [hnat]
  exact hpath

/-- A bit that leads to an internal node or a leaf (R224). -/
theorem decodeBit_walks (hread : s.Readable xs.length (j / 8)) (hpath : followPath s.node q [s.srcBit j] = some i)
    {c : Node} (hc : s.nodeAt i = some c) (ht : c.tag = .internal ∨ c.tag = .leaf) :
    decodeBit (s.decoding xs j q) =
      (emitSymbol (s.inBit xs j (j + 1) i)).andThen fun t => .go (nextBit t) := by
  have hwalk := (walkBit_of_followPath (followPath_inBit hread hpath) hc).1 ht
  rw [decodeBit_decoding hread, hwalk, Ctl.andThen_go, walkTo_inBit]

/-- A bit inside a code. -/
theorem decodeBit_internal (hread : s.Readable xs.length (j / 8)) (hpath : followPath s.node q [s.srcBit j] = some i)
    (hint : (s.nodeAt i).map Node.tag = some .internal) :
    decodeBit (s.decoding xs j q) = .go (s.decoding xs (j + 1) i) := by
  obtain ⟨c, hc, ht⟩ := Option.map_eq_some_iff.1 hint
  have hne : ¬ (s.inBit xs j (j + 1) i).atLeaf := fun hl => by cases hint.symm.trans hl
  rw [decodeBit_walks hread hpath hc (.inl ht), emitSymbol_of_not_leaf hne, Ctl.andThen_go, nextBit_inBit]

/-- The last bit of the code of a symbol that can be written. -/
theorem decodeBit_symbol (hread : s.Readable xs.length (j / 8)) (hpath : followPath s.node q [s.srcBit j] = some i)
    (hleaf : leafOf s.node i y) (h : s.takesByte xs.length) :
    decodeBit (s.decoding xs j q) = .go (s.decoding (xs ++ [y]) (j + 1) s.root) := by
  obtain ⟨c, hc, ht, -⟩ := id hleaf
  rw [decodeBit_walks hread hpath hc (.inr ht), emitSymbol_inBit hleaf h, Ctl.andThen_go, nextBit_inBit]

/-- The last bit of the code of a symbol that cannot be written (R226). -/
theorem decodeBit_fails (hread : s.Readable xs.length (j / 8)) (hpath : followPath s.node q [s.srcBit j] = some i)
    (hleaf : leafOf s.node i y) (hn : xs.length ≤ s.dstCap.toNat) (h : ¬ s.takesByte xs.length) :
    (decodeBit (s.decoding xs j q)).EndsIn ((toIdle (raise s (s.byteErr xs.length))).decoded xs (j + 1)) := by
  obtain ⟨c, hc, ht, -⟩ := id hleaf
  rw [decodeBit_walks hread hpath hc (.inr ht), emitSymbol_inBit_fails hleaf hn h]
  exact endsIn_raise_unpacking.andThen _

/-- A bit that leads to the placeholder (R228). -/
theorem decodeBit_placeholder (hread : s.Readable xs.length (j / 8))
    (hpath : followPath s.node q [s.srcBit j] = some i) (ht : (s.nodeAt i).map Node.tag = some .placeholder) :
    (decodeBit (s.decoding xs j q)).EndsIn ((toIdle (raise s (.placeholder i))).decoded xs (j + 1)) := by
  obtain ⟨c, hc, ht⟩ := Option.map_eq_some_iff.1 ht
  have hwalk := (walkBit_of_followPath (followPath_inBit hread hpath) hc).2 ht
  rw [decodeBit_decoding hread, hwalk, walkTo_inBit]
  exact (endsIn_raise_unpacking.andThen _).andThen _

/-- A bit that is the first of a source byte at an invalid address (R225). -/
theorem decodeBit_invalid {b : Nat} (hb : b < 2 ^ 32) (hinvalid : s.platform.memValid (s.srcByteAddr b) = false) :
    (decodeBit (s.decoding xs (8 * b) q)).EndsIn
      ((toIdle (raise s (.ioRead (s.srcByteAddr b)))).decoded xs (8 * b)) := by
  rw [decodeBit, fetchByte_decoding_invalid hb hinvalid]
  exact ((endsIn_raise_unpacking.andThen _).andThen _).andThen _

end Bit

/-! ### The bits of the source -/

/-- DECODE gets past the first `k` bits of the source with `n` symbols: the bits are in bytes that can be read, the
symbols can be written, and writing them does not change the bytes. -/
structure State.Supplies (s : State) (k n : Nat) : Prop where
  inside : k ≤ 8 * s.srcLen.toNat
  valid : s.srcValid ((k + 7) / 8)
  room : ∀ q < n, s.takesByte q
  apart : s.disjointBuffers ((k + 7) / 8) n

section Bits

variable {s : State} {k n : Nat} {xs : List Byte} {p : Idx}

theorem State.Supplies.mono {k' n' : Nat} (h : s.Supplies k' n') (hk : k ≤ k') (hn : n ≤ n') : s.Supplies k n where
  inside := hk.trans h.inside
  valid := h.valid.mono (by omega)
  room q hq := h.room q (hq.trans_le hn)
  apart := h.apart.mono (by omega) hn

theorem State.Supplies.clearError (h : s.Supplies k n) : (clearError s).Supplies k n :=
  ⟨h.inside, h.valid, h.room, h.apart⟩

/-- The last bit is in a byte that can be read. -/
theorem State.Supplies.readable (h : s.Supplies (k + 1) n) : s.Readable n (k / 8) where
  small := by have hin := h.inside; have hlt := s.srcLen.isLt; omega
  valid := h.valid (k / 8) (by omega)
  apart := h.apart (k / 8) (by omega)

/-- One bit of what DECODE gets past. -/
theorem State.Reads.exists_step (h : s.Reads (k + 1) xs p) (hs : s.Supplies (k + 1) xs.length) :
    ∃ ys q, s.Reads k ys q ∧ ys.length ≤ xs.length ∧
      decodeBit (s.decoding ys k q) = .go (s.decoding xs (k + 1) p) := by
  cases h with
  | inner hreads hpath hint => exact ⟨xs, _, hreads, Nat.le_refl _, decodeBit_internal hs.readable hpath hint⟩
  | @symbol _ ys q _ y hreads hpath hleaf =>
    have hlt : ys.length < (ys ++ [y]).length := by simp
    have hread := (hs.mono (Nat.le_refl _) hlt.le).readable
    exact ⟨ys, q, hreads, hlt.le, decodeBit_symbol hread hpath hleaf (hs.room _ hlt)⟩

/-- The first `k` bits, as DECODE.B reads them (R222). -/
theorem State.Reads.loop_decodeBit (h : s.Reads k xs p) (hs : s.Supplies k xs.length) :
    Ctl.loop decodeBit k (s.decoding [] 0 s.root) = .go (s.decoding xs k p) := by
  induction k generalizing xs p with
  | zero => cases h; rfl
  | succ k ih =>
    obtain ⟨ys, q, hreads, hle, hbit⟩ := h.exists_step hs
    rw [Ctl.loop_add, ih hreads (hs.mono (Nat.le_succ k) hle), Ctl.andThen_go, Ctl.loop_succ, hbit, Ctl.andThen_go,
      Ctl.loop_zero]

/-- `D_FINAL` (R227). -/
theorem checkAtRoot_decoding :
    checkAtRoot (s.decoding xs k p) =
      if p = s.root then .go (s.decoding xs k p) else .ended (raise (s.decoding xs k p) (.offRoot p)) := rfl

theorem decoding_resSyms_lt (hlen : xs.length < 2 ^ 32) :
    (s.decoding xs k p).resSyms < (s.decoding xs k p).opSyms ↔ xs.length < s.opSyms.toNat := by
  change BitVec.ofNat 32 xs.length < s.opSyms ↔ _
  rw [BitVec.lt_def, BitVec.toNat_ofNat, Nat.mod_eq_of_lt hlen]

/-- A bit of DECODE.S while symbols are due (R223). -/
theorem decodeUntilSyms_succ (m : Nat) (h : xs.length < s.opSyms.toNat) :
    decodeUntilSyms (m + 1) (s.decoding xs k p) = (decodeBit (s.decoding xs k p)).andThen (decodeUntilSyms m) := by
  rw [decodeUntilSyms, if_pos ((decoding_resSyms_lt (h.trans s.opSyms.isLt)).2 h)]

/-- DECODE.S with no symbol due (R223). -/
theorem decodeUntilSyms_done (m : Nat) (h : s.opSyms.toNat = xs.length) :
    decodeUntilSyms m (s.decoding xs k p) = .go (s.decoding xs k p) := by
  have hnot : ¬ (s.decoding xs k p).resSyms < (s.decoding xs k p).opSyms := fun hlt =>
    absurd ((decoding_resSyms_lt (h ▸ s.opSyms.isLt)).1 hlt) (by omega)
  cases m <;> rw [decodeUntilSyms, if_neg hnot]

/-- The first `k` bits, as DECODE.S reads them if symbols are still due after them (R223). -/
theorem State.Reads.decodeUntilSyms_add (h : s.Reads k xs p) (hs : s.Supplies k xs.length)
    (hdue : xs.length < s.opSyms.toNat) (m : Nat) :
    decodeUntilSyms (k + m) (s.decoding [] 0 s.root) = decodeUntilSyms m (s.decoding xs k p) := by
  induction k generalizing xs p m with
  | zero => cases h; rw [Nat.zero_add]
  | succ k ih =>
    obtain ⟨ys, q, hreads, hle, hbit⟩ := h.exists_step hs
    rw [Nat.add_assoc, Nat.add_comm 1, ih hreads (hs.mono (Nat.le_succ k) hle) (hle.trans_lt hdue),
      decodeUntilSyms_succ m (hle.trans_lt hdue), hbit, Ctl.andThen_go]

end Bits

/-! ### The whole commands -/

section Command

variable {s t : State} {k : Nat} {xs : List Byte} {p : Idx}

theorem exec_decodeB_eq (s : State) :
    exec .decodeB s =
      if !s.status.treeValid then .next (toIdle ((clearError s).decoding [] 0 s.root))
      else if 8 * s.srcLen.toNat < s.opBits then
        .next (toIdle (raise ((clearError s).decoding [] 0 s.root) .overrun))
      else ((Ctl.loop decodeBit s.opBits ((clearError s).decoding [] 0 s.root)).andThen checkAtRoot).finish := by
  refine (execDecodeB_eq s).trans ?_
  change (if !s.status.treeValid then _ else if 8 * s.srcLen.toNat < s.opBits then _ else _ : Ctl).finish = _
  split_ifs <;> rfl

theorem exec_decodeS_eq (s : State) :
    exec .decodeS s =
      if !s.status.treeValid then .next (toIdle ((clearError s).decoding [] 0 s.root))
      else (decodeUntilSyms (8 * s.srcLen.toNat) ((clearError s).decoding [] 0 s.root)).finish := by
  refine (execDecodeS_eq s).trans ?_
  change (if !s.status.treeValid then _ else _ : Ctl).finish = _
  split_ifs <;> rfl

/-- DECODE.B of a tree, past its tests, after the first `k` bits (R222). -/
theorem exec_decodeB_after (hvalid : s.status.treeValid = true) (hin : s.opBits ≤ 8 * s.srcLen.toNat)
    (h : s.Reads k xs p) (hs : s.Supplies k xs.length) {m : Nat} (hm : s.opBits = k + m) :
    exec .decodeB s = ((Ctl.loop decodeBit m ((clearError s).decoding xs k p)).andThen checkAtRoot).finish := by
  have hloop : Ctl.loop decodeBit k ((clearError s).decoding [] 0 s.root) = .go ((clearError s).decoding xs k p) :=
    h.clearError.loop_decodeBit hs.clearError
  rw [exec_decodeB_eq, if_neg (by simp [hvalid]), if_neg (Nat.not_lt.2 hin), hm, Ctl.loop_add, hloop, Ctl.andThen_go]

/-- DECODE.S of a tree after the first `k` bits, if symbols are still due (R223). -/
theorem exec_decodeS_after (hvalid : s.status.treeValid = true) (hdue : xs.length < s.opSyms.toNat)
    (h : s.Reads k xs p) (hs : s.Supplies k xs.length) {m : Nat} (hm : 8 * s.srcLen.toNat = k + m) :
    exec .decodeS s = (decodeUntilSyms m ((clearError s).decoding xs k p)).finish := by
  have hloop : decodeUntilSyms (k + m) ((clearError s).decoding [] 0 s.root) =
      decodeUntilSyms m ((clearError s).decoding xs k p) :=
    h.clearError.decodeUntilSyms_add hs.clearError hdue m
  rw [exec_decodeS_eq, if_neg (by simp [hvalid]), hm, hloop]

/-- Both commands end in bit `k`, if they need it. -/
theorem exec_decode_ends (hvalid : s.status.treeValid = true) (h : s.Reads k xs p) (hs : s.Supplies k xs.length)
    (hk : k < 8 * s.srcLen.toNat) (hend : (decodeBit ((clearError s).decoding xs k p)).EndsIn t) :
    (k < s.opBits → s.opBits ≤ 8 * s.srcLen.toNat → exec .decodeB s = .next t) ∧
      (xs.length < s.opSyms.toNat → exec .decodeS s = .next t) := by
  refine ⟨fun hbits hin => ?_, fun hdue => ?_⟩
  · obtain ⟨m, hm⟩ : ∃ m, s.opBits = k + (m + 1) := ⟨s.opBits - k - 1, by omega⟩
    rw [exec_decodeB_after hvalid hin h hs hm, Ctl.loop_succ]
    exact ((hend.andThen _).andThen _).finish
  · obtain ⟨m, hm⟩ : ∃ m, 8 * s.srcLen.toNat = k + (m + 1) := ⟨8 * s.srcLen.toNat - k - 1, by omega⟩
    rw [exec_decodeS_after hvalid hdue h hs hm, decodeUntilSyms_succ (s := clearError s) m hdue]
    exact (hend.andThen _).finish

end Command

/-! ### The statements about DECODE -/

section Premises

variable {s : State} {k : Nat} {xs : List Byte}

theorem supplies_of_premises (hin : k ≤ 8 * s.srcLen.toNat) (hvalid : s.srcValid ((k + 7) / 8))
    (hcap : xs.length ≤ s.dstCap.toNat) (hdst : s.dstValid xs.length)
    (hapart : s.disjointBuffers ((k + 7) / 8) xs.length) : s.Supplies k xs.length :=
  ⟨hin, hvalid, takesByte_of_dstValid hcap hdst, hapart⟩

/-- The placeholder is entry 1 (R42). -/
theorem TreeShape.placeholder_index (h : TreeShape s) {i : Idx}
    (ht : (s.nodeAt i).map Node.tag = some .placeholder) : i = 1 := by
  obtain ⟨n, hn, ht⟩ := Option.map_eq_some_iff.1 ht
  obtain ⟨hlt, rfl⟩ := Vector.getElem?_eq_some_iff.1 hn
  have hnode : i.toNat < s.nnode.toNat := by
    by_contra hge
    simp [h.rest_empty _ hlt (by omega)] at ht
  have hleaf : i.toNat < s.nleaf.toNat := by
    by_contra hge
    simp [(h.internal _ hlt (by omega) hnode).1] at ht
  rcases (h.leaf _ hlt hleaf).1 with htag | ⟨-, -, hone, -⟩
  · simp [ht] at htag
  · exact BitVec.eq_of_toNat_eq hone

end Premises

/-- Settles O41: the tests come before the loop. -/
theorem decodeTestsBeforeTheFirstBit : Obligations.DecodeTestsBeforeTheFirstBit := by
  intro s
  refine ⟨fun hno => ?_, fun hvalid hover => ?_⟩
  · rw [exec_decodeB_eq, exec_decodeS_eq, if_pos (by simp [hno]), if_pos (by simp [hno]), commandEnd_zero]
    exact ⟨rfl, rfl⟩
  · have hover : 8 * s.srcLen.toNat < s.opBits := hover
    rw [exec_decodeB_eq, if_neg (by simp [hvalid]), if_pos hover]
    rfl

/-- Settles O42: after the `OP_BITS` bits the walk is back at the root. -/
theorem decodeBInvertsTheCodes : Obligations.DecodeBInvertsTheCodes := by
  intro s xs code h hcode hin hbits hvalid hcap hdst hapart
  have hreads : s.Reads s.opBits xs s.root :=
    h.reads hcode (hbits.trans (List.append_nil _).symm) rfl h.root_internal
  have hs := supplies_of_premises hin hvalid hcap hdst hapart
  have hexec : exec .decodeB s = .next ((s.commandEnd 0 0 0 0).decoded xs s.opBits) := by
    rw [exec_decodeB_after h.valid hin hreads hs (Nat.add_zero _).symm, Ctl.loop_zero, Ctl.andThen_go,
      checkAtRoot_decoding (s := clearError s), if_pos (show s.root = (clearError s).root from rfl), commandEnd_zero]
    rfl
  exact ⟨_, hexec, Memory.storedAt_writeAll _ _ _⟩

/-- Settles O43: the last bit of the codes writes the last symbol, after which none is due. -/
theorem decodeSInvertsTheCodes : Obligations.DecodeSInvertsTheCodes := by
  intro s xs code h n hcode hsyms hin hbits hvalid hcap hdst hapart
  have hs : s.Supplies n xs.length := supplies_of_premises hin hvalid hcap hdst hapart
  have hexec : exec .decodeS s = .next ((s.commandEnd 0 0 0 0).decoded xs n) := by
    rcases xs.eq_nil_or_concat' with rfl | ⟨ys, y, rfl⟩
    · rw [exec_decodeS_eq, if_neg (by simp [h.valid]), decodeUntilSyms_done (s := clearError s) _ hsyms,
        commandEnd_zero]
      rfl
    · obtain ⟨j, q, i, hk, hreads, hstep, hleaf⟩ := h.reads_before_symbol hcode hbits
      have hlt : ys.length < (ys ++ [y]).length := by simp
      obtain ⟨m, hm⟩ : ∃ m, 8 * s.srcLen.toNat = j + (m + 1) := ⟨8 * s.srcLen.toNat - j - 1, by omega⟩
      have hbit := decodeBit_symbol (s := clearError s) (hs.mono hk.ge hlt.le).clearError.readable hstep hleaf
        (hs.room _ hlt)
      rw [exec_decodeS_after h.valid (hlt.trans_eq hsyms.symm) hreads (hs.mono (by omega) hlt.le) hm,
        decodeUntilSyms_succ (s := clearError s) m (hlt.trans_eq hsyms.symm), hbit, Ctl.andThen_go,
        decodeUntilSyms_done (s := clearError s) m hsyms, commandEnd_zero, hk]
      rfl
  have hcount : BitVec.ofNat 32 xs.length = s.opSyms := by rw [← hsyms, BitVec.ofNat_toNat, BitVec.setWidth_eq]
  rw [State.decoded, hcount] at hexec
  exact ⟨_, hexec, Memory.storedAt_writeAll _ _ _⟩

/-- Settles O44: after the `OP_BITS` bits the walk is below the root. -/
theorem decodeBEndsOffTheRoot : Obligations.DecodeBEndsOffTheRoot := by
  intro s xs code r p h hcode hin hbits hne hr hint hvalid hcap hdst hapart
  have hreads := h.reads hcode hbits hr hint
  have hs := supplies_of_premises hin hvalid hcap hdst hapart
  have hoff : p ≠ s.root := by
    rintro rfl
    have hle := h.toNat_add_length_le hr
    have hpos := List.length_pos_iff.2 hne
    omega
  have hexec : exec .decodeB s = .next ((s.commandEnd 3 1 (p.zeroExtend 32) 0x08).decoded xs s.opBits) := by
    rw [exec_decodeB_after h.valid hin hreads hs (Nat.add_zero _).symm, Ctl.loop_zero, Ctl.andThen_go,
      checkAtRoot_decoding (s := clearError s), if_neg (show p ≠ (clearError s).root from hoff)]
    exact endsIn_raise_unpacking.finish
  exact ⟨_, hexec, Memory.storedAt_writeAll _ _ _⟩

/-- Settles O45: after all the bits symbols are due. -/
theorem decodeSRunsOutOfBits : Obligations.DecodeSRunsOutOfBits := by
  intro s xs code r p h hcode hdue hbits hr hint hvalid hcap hdst hapart
  have hreads := h.reads hcode hbits hr hint
  have hbytes : (8 * s.srcLen.toNat + 7) / 8 = s.srcLen.toNat := by omega
  have hs : s.Supplies (8 * s.srcLen.toNat) xs.length :=
    supplies_of_premises (Nat.le_refl _) (hbytes.symm ▸ hvalid) hcap hdst (hbytes.symm ▸ hapart)
  have hexec : exec .decodeS s =
      .next ((s.commandEnd 3 2 (p.zeroExtend 32) 0x08).decoded xs (8 * s.srcLen.toNat)) := by
    rw [exec_decodeS_after h.valid hdue hreads hs (Nat.add_zero _).symm, decodeUntilSyms,
      if_pos ((decoding_resSyms_lt (s := clearError s) (hdue.trans s.opSyms.isLt)).2 hdue)]
    exact endsIn_raise_unpacking.finish
  exact ⟨_, hexec, Memory.storedAt_writeAll _ _ _⟩

/-- Settles O46: the last of the `k` bits leads to the placeholder. -/
theorem decodeStopsAtThePlaceholder : Obligations.DecodeStopsAtThePlaceholder := by
  intro s xs code r p k h hcode hbits hr ht hin hvalid hcap hdst hapart
  have hs := supplies_of_premises hin hvalid hcap hdst hapart
  obtain ⟨n, hn, htag⟩ := Option.map_eq_some_iff.1 ht
  obtain ⟨j, q, rfl, hreads, hstep⟩ := h.reads_before hcode hbits hr hn (by simp [htag])
  obtain rfl := h.placeholder_index ht
  have hend := decodeBit_placeholder (s := clearError s) hs.clearError.readable hstep ht
  exact ⟨_, Memory.storedAt_writeAll _ _ _,
    exec_decode_ends h.valid hreads (hs.mono (Nat.le_succ j) (Nat.le_refl _)) hin hend⟩

/-- Settles O47: the last of the `k` bits leads to the leaf of a symbol that cannot be written. -/
theorem decodeStopsAtTheDestination : Obligations.DecodeStopsAtTheDestination := by
  intro s xs y code h k hcode hbits hin hvalid hdst hapart hfull
  have hcap : xs.length ≤ s.dstCap.toNat := by omega
  have hs : s.Supplies k xs.length := supplies_of_premises hin hvalid hcap hdst hapart
  have hno := not_takesByte (hfull.imp_right And.right)
  obtain ⟨j, q, i, hk, hreads, hstep, hleaf⟩ := h.reads_before_symbol hcode hbits
  have hend : (decodeBit ((clearError s).decoding xs j q)).EndsIn
      ((toIdle (raise (clearError s) (s.byteErr xs.length))).decoded xs (j + 1)) :=
    decodeBit_fails (s := clearError s) (hs.mono hk.ge (Nat.le_refl _)).clearError.readable hstep hleaf hcap hno
  rw [toIdle_raise_byteErr] at hend
  rw [hk]
  exact ⟨_, Memory.storedAt_writeAll _ _ _,
    exec_decode_ends h.valid hreads (hs.mono (by omega) (Nat.le_refl _)) (by omega) hend⟩

/-- Settles O48: the bit after the `8 * q` bits is the first of the invalid byte. -/
theorem decodeStopsAtAnInvalidSourceByte : Obligations.DecodeStopsAtAnInvalidSourceByte := by
  intro s xs code r p q h hcode hbits hr hint hq hvalid hinvalid hcap hdst hapart
  have hreads := h.reads hcode hbits hr hint
  have hbytes : (8 * q + 7) / 8 = q := by omega
  have hs : s.Supplies (8 * q) xs.length :=
    supplies_of_premises (by omega) (hbytes.symm ▸ hvalid) hcap hdst (hbytes.symm ▸ hapart)
  exact ⟨_, Memory.storedAt_writeAll _ _ _, exec_decode_ends h.valid hreads hs (by omega)
    (decodeBit_invalid (s := clearError s) (hq.trans s.srcLen.isLt) hinvalid)⟩

end Sys2Proof.Machine

/-! SUPPORT and the settling of O50: the round trip (R234). COUNT, BUILD and GEN give every symbol of the source a code;
ENCODE writes the codes, and DECODE inverts them. -/

namespace Sys2Proof.Machine

/-! ### Bytes that have been stored -/

theorem Memory.getElem_bytesFrom (m : Memory) {a n i : Nat} (h : i < (m.bytesFrom a n).length) :
    (m.bytesFrom a n)[i] = m.byte (a + i) := by
  simp [Memory.bytesFrom]

theorem getElem_packBits {b : List Bool} {q : Nat} (h : q < (packBits b).length) : (packBits b)[q] = packByte b q := by
  simp [packBits]

theorem getElem_streamFrom {m : Memory} {a n j : Nat} (h : j < (streamFrom m a n).length) :
    (streamFrom m a n)[j] = streamBit (m.byte (a + j / 8)) (j % 8) := by
  simp [streamFrom]

section Stored

variable {m m' : Memory} {a : Nat}

theorem bytesFrom_of_storedAt {bs : List Byte} (h : m.storedAt m' a bs) : m'.bytesFrom a bs.length = bs := by
  obtain ⟨hrow, -⟩ := h
  refine List.ext_getElem (Memory.length_bytesFrom _ _ _) fun i hi hlt => ?_
  rw [Memory.getElem_bytesFrom]
  exact hrow i hlt

/-- The stream of a packed bit sequence begins with the sequence (R76, R77). -/
theorem streamFrom_of_storedAt {b : List Bool} (h : m.storedAt m' a (packBits b)) :
    streamFrom m' a b.length = b := by
  obtain ⟨hrow, -⟩ := h
  refine List.ext_getElem (length_streamFrom _ _ _) fun j _ hj => ?_
  have hlen : j / 8 < (packBits b).length := by
    rw [packBits_eq, length_packBytes]
    omega
  have hbit := streamBit_packByte b (j / 8) (Nat.mod_lt j (by decide : 0 < 8))
  rw [Nat.div_add_mod, List.getD_eq_getElem _ _ hj] at hbit
  rw [getElem_streamFrom, hrow _ hlen, getElem_packBits, hbit]

end Stored

/-! ### The tables of a source -/

/-- `t` has the buffers and the memory of `s`. -/
structure SameBuffers (s t : State) : Prop where
  srcAddr : t.srcAddr = s.srcAddr
  srcLen : t.srcLen = s.srcLen
  dstAddr : t.dstAddr = s.dstAddr
  dstCap : t.dstCap = s.dstCap
  platform : t.platform = s.platform
  mem : t.mem = s.mem

section SameBuffers

variable {s t u : State}

theorem SameBuffers.trans (h : SameBuffers s t) (h' : SameBuffers t u) : SameBuffers s u :=
  ⟨h'.srcAddr.trans h.srcAddr, h'.srcLen.trans h.srcLen, h'.dstAddr.trans h.dstAddr, h'.dstCap.trans h.dstCap,
    h'.platform.trans h.platform, h'.mem.trans h.mem⟩

/-- COUNT, BUILD and GEN keep the buffers (R53). -/
theorem Unchanged.sameBuffers {i : Instr} (h : Unchanged i s t) (hi : i = .count ∨ i = .build ∨ i = .gen) :
    SameBuffers s t := by
  have hop := h.operands
  simp only [operandsOf, Prod.mk.injEq] at hop
  obtain ⟨hsrc, hlen, hdst, hcap, -, -, -, hplat⟩ := hop
  have hmem : t.mem = s.mem := h.mem (by grind) (by grind) (by grind)
  exact ⟨hsrc, hlen, hdst, hcap, hplat, hmem⟩

theorem SameBuffers.srcBytes (h : SameBuffers s t) : t.srcBytes = s.srcBytes := by
  rw [State.srcBytes, State.srcBytes, h.srcAddr, h.srcLen, h.mem]

theorem SameBuffers.srcValid (h : SameBuffers s t) {n : Nat} (hn : s.srcValid n) : t.srcValid n := by
  simpa only [State.srcValid, State.srcByteAddr, h.srcAddr, h.platform] using hn

theorem SameBuffers.dstValid (h : SameBuffers s t) {n : Nat} (hn : s.dstValid n) : t.dstValid n := by
  simpa only [State.dstValid, h.dstAddr, h.platform] using hn

theorem SameBuffers.disjointBuffers (h : SameBuffers s t) {n m : Nat} (hn : s.disjointBuffers n m) :
    t.disjointBuffers n m := by
  simpa only [State.disjointBuffers, State.srcByteAddr, h.srcAddr, h.dstAddr] using hn

end SameBuffers

/-- The tables suit `xs`: there is a tree, and every symbol of `xs` has its code, or there is neither a tree nor a
symbol. -/
structure State.Codes (t : State) (xs : List Byte) : Prop where
  tree : TreeShape t ∨ (t.status.treeValid = false ∧ xs = [])
  coded : ∀ x ∈ xs, 0 < (t.codeAt x).len.toNat ∧ isCodeOf t (t.codeAt x).bitList x

/-- COUNT of a valid source (R141). -/
theorem exec_count_of_valid {s : State} (hvalid : s.srcValid s.srcLen.toNat) :
    ∃ t, exec .count s = .next t ∧ t.status.err = 0 ∧ isFreqOf t.freq s.srcBytes ∧ SameBuffers s t := by
  obtain ⟨f, hcount, hfreq, -⟩ := countCountsTheSource s hvalid
  exact ⟨_, hcount, rfl, hfreq, (exec_unchanged hcount).sameBuffers (by simp)⟩

/-- BUILD's tree has a leaf for every symbol with a count (R152). -/
theorem exists_leaf_of_exec_build {s t : State} (ht : exec .build s = .next t) {x : Byte}
    (hx : x ∈ presentSymbols s) : ∃ i, leafOf t.node i x := by
  obtain ⟨t', ht', hleaves, -⟩ := buildLeavesInSymbolOrder s (List.ne_nil_of_mem hx)
  cases Host.Outcome.next.inj (ht.symm.trans ht')
  obtain ⟨i, hi⟩ := List.mem_iff_getElem?.1 hx
  have hnode := hleaves i x hi
  obtain ⟨hlt, -⟩ := Vector.getElem?_eq_some_iff.1 hnode
  have hidx : (BitVec.ofNat 9 i).toNat = i := by rw [BitVec.toNat_ofNat, Nat.mod_eq_of_lt (by omega)]
  exact ⟨BitVec.ofNat 9 i, _, by rw [hidx]; exact hnode, rfl, rfl⟩

/-- BUILD for the counts of `xs` (R151 to R153). -/
theorem exec_build_of_freq {s : State} {xs : List Byte} (hfreq : isFreqOf s.freq xs) :
    ∃ t, exec .build s = .next t ∧ t.status.err = 0 ∧ SameBuffers s t ∧
      (TreeShape t ∨ (t.status.treeValid = false ∧ xs = [])) ∧ ∀ x ∈ xs, ∃ i, leafOf t.node i x := by
  obtain ⟨t, hbuild, hframe⟩ := buildWritesOnlyTheTree s
  have hpresent (x : Byte) (hx : x ∈ xs) : x ∈ presentSymbols s := by
    rw [mem_presentSymbols, BitVec.lt_def]
    exact (List.count_pos_iff.2 hx).trans_eq (hfreq x).symm
  refine ⟨t, hbuild, congrArg (·.status.err) hframe, (exec_unchanged hbuild).sameBuffers (by simp), ?_,
    fun x hx => exists_leaf_of_exec_build hbuild (hpresent x hx)⟩
  by_cases hkeys : presentSymbols s = []
  · have hempty : xs = [] := List.eq_nil_iff_forall_not_mem.2 fun x hx => List.not_mem_nil (hkeys ▸ hpresent x hx)
    exact .inr ⟨(execBuild_treeValid hbuild).trans (by simp [hkeys]), hempty⟩
  · obtain ⟨t', ht', htree⟩ := buildMakesATree s hkeys
    cases Host.Outcome.next.inj (hbuild.symm.trans ht')
    exact .inl htree

/-- GEN with a leaf for every symbol of `xs` (R182, R183). -/
theorem exec_gen_of_leaves {t : State} {xs : List Byte}
    (htree : TreeShape t ∨ (t.status.treeValid = false ∧ xs = []))
    (hleaves : ∀ x ∈ xs, ∃ i, leafOf t.node i x) :
    ∃ u, exec .gen t = .next u ∧ u.status.err = 0 ∧ SameBuffers t u ∧ u.Codes xs := by
  rcases htree with htree | ⟨hno, rfl⟩
  · obtain ⟨u, hgen, hframe, hcodes⟩ := genWritesThePaths t htree
    have hkept : treeOf u = treeOf t := (exec_unchanged hgen).tree (by simp)
    refine ⟨u, hgen, congrArg (·.status.err) hframe, (exec_unchanged hgen).sameBuffers (by simp),
      .inl (htree.congr hkept), fun x hx => ?_⟩
    obtain ⟨hlen, hcode, -⟩ := (hcodes x).1 (hleaves x hx)
    simp only [treeOf, Prod.mk.injEq] at hkept
    obtain ⟨hnode, hroot, -⟩ := hkept
    rw [isCodeOf, hnode, hroot]
    exact ⟨hlen, hcode⟩
  · have hgen := genWithoutATreeEmptiesTheTable t hno
    exact ⟨_, hgen, rfl, (exec_unchanged hgen).sameBuffers (by simp), .inr ⟨hno, rfl⟩, by simp⟩

/-! ### ENCODE and DECODE -/

/-- `t` is the state after an ENCODE without error of the source of `s` into `n` bytes (R200, R201). -/
structure State.Encoded (s : State) (n : Nat) (t : State) : Prop where
  noError : t.status.err = 0
  bits : (t.resBits.toNat + 7) / 8 = n
  symbols : t.resSyms = s.srcLen
  bytes : t.resBytes.toNat = n
  platform : t.platform = s.platform
  codes : t.Codes s.srcBytes
  stream : streamFrom t.mem s.dstAddr.toNat t.resBits.toNat = encodedBits t s.srcBytes

/-- ENCODE with the tables made. -/
theorem exec_encode_of_codes {s t : State} (hsame : SameBuffers s t) (hcodes : t.Codes s.srcBytes)
    (hvalid : s.srcValid s.srcLen.toNat) {n : Nat} (hn : ((encodedBits t s.srcBytes).length + 7) / 8 = n)
    (hroom : n ≤ s.dstCap.toNat) (hdst : s.dstValid n) (hapart : s.disjointBuffers s.srcLen.toNat n) :
    ∃ u, exec .encode t = .next u ∧ s.Encoded n u := by
  have hcap := s.dstCap.isLt
  have hencode := encodePacksTheCodes t
  simp only [hsame.srcBytes, hsame.srcLen, hsame.dstCap, hsame.dstAddr, hsame.mem, hn] at hencode
  obtain ⟨m, hexec, hstored⟩ := hencode (hsame.srcValid hvalid) (fun x hx => (hcodes.coded x hx).1) hroom
    (hsame.dstValid hdst) (hsame.disjointBuffers hapart)
  have hbits : (BitVec.ofNat 64 (encodedBits t s.srcBytes).length).toNat = (encodedBits t s.srcBytes).length := by
    rw [BitVec.toNat_ofNat, Nat.mod_eq_of_lt (by omega)]
  have hbytes : (BitVec.ofNat 32 n).toNat = n := by rw [BitVec.toNat_ofNat, Nat.mod_eq_of_lt (by omega)]
  exact ⟨_, hexec, rfl, by rw [hbits, hn], rfl, hbytes, hsame.platform,
    ⟨hcodes.tree.imp_left (·.congr rfl), hcodes.coded⟩, by rw [hbits]; exact streamFrom_of_storedAt hstored⟩

/-- Both DECODE commands of the codes of `xs`, with the counts that ENCODE leaves. -/
theorem exec_decode_of_codes {u : State} {xs : List Byte} (h : u.Codes xs) (hsyms : u.opSyms.toNat = xs.length)
    (hbits : streamFrom u.mem u.srcAddr.toNat u.opBits = encodedBits u xs) (hin : u.opBits ≤ 8 * u.srcLen.toNat)
    (hvalid : u.srcValid ((u.opBits + 7) / 8)) (hcap : xs.length ≤ u.dstCap.toNat) (hdst : u.dstValid xs.length)
    (hapart : u.disjointBuffers ((u.opBits + 7) / 8) xs.length) {i : Instr} (hi : i = .decodeB ∨ i = .decodeS) :
    ∃ t, exec i u = .next t ∧ t.status.err = 0 ∧ t.resSyms = u.opSyms ∧
      t.mem.bytesFrom u.dstAddr.toNat xs.length = xs := by
  have hcode (x : Byte) (hx : x ∈ xs) : isCodeOf u (u.codeAt x).bitList x := (h.coded x hx).2
  have hcount : BitVec.ofNat 32 xs.length = u.opSyms := by rw [← hsyms, BitVec.ofNat_toNat, BitVec.setWidth_eq]
  have hlen : (encodedBits u xs).length = u.opBits := by rw [← hbits, length_streamFrom]
  rcases h.tree with htree | ⟨hno, rfl⟩
  · rcases hi with rfl | rfl
    · obtain ⟨m, hexec, hstored⟩ := decodeBInvertsTheCodes u xs _ htree hcode hin hbits hvalid hcap hdst hapart
      exact ⟨_, hexec, rfl, hcount, bytesFrom_of_storedAt hstored⟩
    · obtain ⟨m, hexec, hstored⟩ := decodeSInvertsTheCodes u xs _ htree hcode hsyms (hlen.trans_le hin)
        (hlen.symm ▸ hbits) (hlen.symm ▸ hvalid) hcap hdst (hlen.symm ▸ hapart)
      exact ⟨_, hexec, rfl, rfl, bytesFrom_of_storedAt hstored⟩
  · obtain ⟨hB, hS⟩ := (decodeTestsBeforeTheFirstBit u).1 hno
    rcases hi with rfl | rfl
    · exact ⟨_, hB, rfl, hcount, rfl⟩
    · exact ⟨_, hS, rfl, hcount, rfl⟩

/-- Settles O50: COUNT, BUILD and GEN make the tables for the source and keep the buffers; what ENCODE then writes
begins with the codes of the source, which DECODE inverts. -/
theorem roundTripGivesTheSourceBack : Obligations.RoundTripGivesTheSourceBack := by
  intro s hvalid
  obtain ⟨t1, hcount, herr1, hfreq, hsame1⟩ := exec_count_of_valid hvalid
  obtain ⟨t2, hbuild, herr2, hsame2, htree, hleaves⟩ := exec_build_of_freq hfreq
  obtain ⟨t3, hgen, herr3, hsame3, hcodes⟩ := exec_gen_of_leaves htree hleaves
  have hsame := (hsame1.trans hsame2).trans hsame3
  refine ⟨t1, t2, t3, hcount, hbuild, hgen, herr1, herr2, herr3, fun hroom hdst hapart => ?_⟩
  generalize hn : ((encodedBits t3 s.srcBytes).length + 7) / 8 = n at hroom hdst hapart ⊢
  obtain ⟨t4, hencode, hdone⟩ := exec_encode_of_codes hsame hcodes hvalid hn hroom hdst hapart
  refine ⟨t4, hencode, hdone.noError, hdone.bytes, fun a cap => ?_⟩
  intro u hcap hdst' hapart' i hi
  have hlen : s.srcBytes.length = s.srcLen.toNat := Memory.length_bytesFrom _ _ _
  have hopBits : u.opBits = t4.resBits.toNat := toNat_halves t4.resBits
  have hpacked : (u.opBits + 7) / 8 = n := hopBits ▸ hdone.bits
  have hsrcLen : u.srcLen.toNat = n := hdone.bytes
  have hopSyms : u.opSyms = s.srcLen := hdone.symbols
  have hsrcValid : u.srcValid n := fun j hj =>
    (congrArg (·.memValid (s.dstAddr.toNat + j)) hdone.platform).trans (hdst j hj)
  have hbits : streamFrom u.mem u.srcAddr.toNat u.opBits = encodedBits u s.srcBytes := hopBits ▸ hdone.stream
  have hcodes' : u.Codes s.srcBytes := ⟨hdone.codes.tree.imp_left (·.congr rfl), hdone.codes.coded⟩
  have hdecode := exec_decode_of_codes hcodes' (by rw [hopSyms, hlen]) hbits (by omega)
  rw [hlen, hpacked, hopSyms] at hdecode
  exact hdecode hsrcValid hcap hdst' hapart' hi

end Sys2Proof.Machine

/-! SUPPORT and the settling of O4, O5, O7, O10 and O18. What the host's single accesses do: a write to `CMD`, a read of
a register and a write to one; and NOP. -/

namespace Sys2Proof.Machine

/-! ### Writes to `CMD` -/

/-- With the engine idle a command's word that the host writes to `CMD` runs the command (R250). -/
theorem step_command {s : State} {i : Instr} {rest : List HostOp} (hp : s.phase = .idle)
    (hhost : s.host = .write 0x0000 (encode i) :: rest) : step s = exec i { s with host := rest } := by
  rw [step_of_host hp hhost, hostAccess_command]

theorem decode_of_decodeTableWord {nbits w : Nat} {i : Instr} (h : decodeTableWord nbits w = some i) :
    decode (BitVec.ofNat 32 (w % 2 ^ nbits)) = .command i := by
  unfold decodeTableWord at h
  split at h
  · cases h
    assumption
  · cases h

/-- Settles O4: a word that decodes to a command is that command's word. -/
theorem stepRunsTheDecodedCommand : Obligations.StepRunsTheDecodedCommand := by
  refine ⟨fun s w i rest hp hhost hd _ => ?_, fun s nbits w i hp hd => ?_⟩
  · obtain rfl := decode_eq_command_iff.1 hd
    exact step_command hp hhost
  · have hw := decode_eq_command_iff.1 (decode_of_decodeTableWord hd)
    rw [State.withFetchWord, hw]
    exact step_command hp rfl

/-- A write to `CMD` of a word that is no command's (R250, R255). -/
theorem hostAccess_illegal (s : State) {w : Word} {cause : IllegalCause} (h : decode w = .illegal cause) :
    hostAccess s (.write 0x0000 w) = illegalCommand cause w s := by
  have hwf : (HostOp.write 0x0000 w).wellFormed = true := rfl
  have hcmd : WindowReg.ofOffset 0x0000 = .cmd := rfl
  simp only [hostAccess, hwf, if_true, hostWrite, hcmd, issueCommand, h]

/-- What an illegal word records (R255). -/
theorem illegalCommand_eq (cause : IllegalCause) (w : Word) (s : State) :
    illegalCommand cause w s = .next (s.commandEnd 4 (Err.illegalCommand cause w).sub w 0x10) :=
  congrArg Host.Outcome.next (toIdle_raise_clearError s (.illegalCommand cause w))

/-- R104, R114: `BAD_OPC` is 1 and `BAD_RSV` is 2. -/
theorem sub_of_decode {w : Word} {cause : IllegalCause} (h : decode w = .illegal cause) :
    (Err.illegalCommand cause w).sub = if 5 < w.toNat % 256 then 1 else 2 := by
  rw [cause_of_decode h]
  exact apply_ite (fun c => (Err.illegalCommand c w).sub) _ _ _

/-- Settles O5: the word has the cause that its low byte gives. -/
theorem illegalWordIsRecorded : Obligations.IllegalWordIsRecorded := by
  intro s w rest hp hhost hw
  cases hd : decode w with
  | command i => exact absurd (decode_eq_command_iff.1 hd) (hw i)
  | illegal cause => rw [step_of_host hp hhost, hostAccess_illegal _ hd, illegalCommand_eq, sub_of_decode hd]

/-! ### NOP -/

/-- Settles O18: NOP does nothing after the common start. -/
theorem nopClearsTheError : Obligations.NopClearsTheError := fun s =>
  congrArg Host.Outcome.next (commandEnd_zero s).symm

/-! ### Reads -/

/-- A read at a multiple of 4 inside the window (R252). -/
theorem hostAccess_read (s : State) {off : Nat} (halign : off % 4 = 0) (hlt : off < 0x8000) :
    hostAccess s (.read off) = .next (answer s (.word (hostRead s off))) :=
  if_pos (write_wellFormed 0 halign hlt)

/-- R109. -/
theorem hostRead_freq (s : State) (x : Byte) : hostRead s (0x0400 + 4 * x.toNat) = s.freqAt x :=
  congrArg (windowWord s) (ofOffset_freq x)

/-- R112: the three fields of `STATUS` do not meet. -/
theorem Status.toNat_word (st : Status) :
    st.word.toNat = st.err.toNat + 16 * st.treeValid.toNat + 256 * st.sub.toNat := by
  have hlt : st.err.toNat + 16 * st.treeValid.toNat < 2 ^ 8 := by
    have := st.err.isLt
    have := st.treeValid.toNat_le
    omega
  have hlow : st.err.zeroExtend 32 ||| ((BitVec.ofBool st.treeValid).zeroExtend 32 <<< 4) =
      (BitVec.ofNat 8 (st.err.toNat + 16 * st.treeValid.toNat)).zeroExtend 32 := by
    refine BitVec.eq_of_toNat_eq ?_
    rw [toNat_or_shiftLeft _ _ (by decide) (by decide), BitVec.toNat_setWidth_of_le (by decide), BitVec.toNat_ofNat,
      Nat.mod_eq_of_lt hlt, BitVec.toNat_ofBool]
    rfl
  rw [Status.word, hlow, toNat_or_shiftLeft _ _ (by decide) (by decide), BitVec.toNat_ofNat, Nat.mod_eq_of_lt hlt]
  rfl

/-- R24: the bits of `ERR_STICKY` in use. -/
theorem getLsbD_stickyMask (k : Nat) : stickyMask.getLsbD k = decide (1 ≤ k ∧ k ≤ 4) := by
  by_cases hk : k < 32
  · exact (by decide : ∀ k < 32, stickyMask.getLsbD k = decide (1 ≤ k ∧ k ≤ 4)) k hk
  · rw [BitVec.getLsbD_of_ge _ _ (by omega)]
    exact (decide_eq_false (by omega)).symm

/-- Settles O7, register by register. -/
theorem hostReadAnswersTheRegister : Obligations.HostReadAnswersTheRegister := by
  refine ⟨fun s off rest hp hhost halign hlt => ?_, fun s => ⟨rfl, s.status.toNat_word, rfl, fun k => ?_, rfl, rfl,
    rfl, rfl, rfl, rfl, rfl, toNat_halves s.resBits, rfl, rfl, ?_, ?_, ?_, hostRead_freq s⟩⟩
  · rw [step_of_host hp hhost, hostAccess_read _ halign hlt]
    rfl
  · exact (BitVec.getLsbD_and ..).trans (by rw [getLsbD_stickyMask, Bool.and_comm])
  · exact BitVec.toNat_setWidth_of_le (b := s.root) (by decide)
  · exact BitVec.toNat_setWidth_of_le (b := s.nleaf) (by decide)
  · exact BitVec.toNat_setWidth_of_le (b := s.nnode) (by decide)

/-! ### Writes to a register -/

/-- With the engine idle a write to a register other than `CMD` (R253). -/
theorem step_register {s : State} {off : Nat} {v : Word} {rest : List HostOp} (hp : s.phase = .idle)
    (hhost : s.host = .write off v :: rest) (hwf : (HostOp.write off v).wellFormed = true)
    (hcmd : WindowReg.ofOffset off ≠ .cmd) :
    step s = .next (windowWrite { s with host := rest } (WindowReg.ofOffset off) v) := by
  rw [step_of_host hp hhost, hostAccess_register _ v hwf hcmd]

/-- Settles O10, register by register. -/
theorem hostWriteSetsTheRegister : Obligations.HostWriteSetsTheRegister := by
  intro s v hp
  have hstep (off : Nat) (hwf : (HostOp.write off v).wellFormed = true) (hcmd : WindowReg.ofOffset off ≠ .cmd) :
      step { s with host := .write off v :: s.host } = .next (windowWrite s (WindowReg.ofOffset off) v) :=
    step_register (s := { s with host := .write off v :: s.host }) hp rfl hwf hcmd
  refine ⟨hstep 0x0010 rfl (by decide), hstep 0x0014 rfl (by decide), hstep 0x0018 rfl (by decide),
    hstep 0x001C rfl (by decide), hstep 0x0020 rfl (by decide), hstep 0x0024 rfl (by decide),
    hstep 0x0028 rfl (by decide), fun x => ?_⟩
  have hx := x.isLt
  rw [hstep _ (write_wellFormed v (by omega) (by omega)) (by simp [ofOffset_freq]), ofOffset_freq]
  rfl

end Sys2Proof.Machine

/-! SUPPORT and the settling of O11. A bit of `ERR_STICKY` that is set stays set through every part of a command. The
bits that are set are among what a part never looks at, so they can be put over the state before it or after it
(`Commutes`): before it they change nothing, and after it they are set. -/

namespace Sys2Proof.Machine

/-! ### Parts keep the bits that are set -/

/-- No bit of `ERR_STICKY` that is set in `s` is clear in `t`. -/
def StickyKept (s t : State) : Prop := ∀ k, s.errSticky.getLsbD k = true → t.errSticky.getLsbD k = true

theorem stickyKept_chains : Chains StickyKept where
  refl _ _ := id
  trans h h' k := h' k ∘ h k

theorem StickyKept.of_eq {s t : State} (h : t.errSticky = s.errSticky) : StickyKept s t := fun k hk => by rwa [h]

theorem StickyKept.of_or {s t : State} {x : Word} (h : t.errSticky = s.errSticky ||| x) : StickyKept s t :=
  fun k hk => by rw [h, BitVec.getLsbD_or, hk, Bool.true_or]

theorem raise_stickyKept (s : State) (e : Err) : StickyKept s (raise s e) := .of_or (raise_errSticky s e)

/-- The registers of `s` and the bits set in it, put over `s`, are `s` itself. -/
theorem withSticky_self (s : State) : withSticky s.errSticky s = s :=
  congrArg (fun x => { s with errSticky := x }) BitVec.or_self

/-- A part that does not look at the bits that are set leaves them set. -/
theorem Commutes.stickyKept {o : Overlay} {f : State → Ctl} (h : Commutes o.on f) {s : State}
    (hon : o.on s = withSticky s.errSticky s) (hsticky : o.sticky = s.errSticky) : (f s).Keeps StickyKept s := by
  have hmap : f s = (f s).map o.on := by rw [← h s, hon, withSticky_self]
  have hkept (t : State) : StickyKept s (o.on t) := .of_or (congrArg (· ||| t.errSticky) hsticky)
  rw [hmap]
  cases f s with
  | go t => exact hkept t
  | ended t => exact hkept t
  | stuck e => trivial

/-- A part that leaves `ERR_STICKY` alone. -/
theorem Ctl.Keeps.go_sticky {s t : State} (h : t.errSticky = s.errSticky) : (Ctl.go t).Keeps StickyKept s := .of_eq h

/-! ### The parts of the sequencer level -/

theorem EntriesOnly.errSticky {s t : State} (h : EntriesOnly s t) : t.errSticky = s.errSticky :=
  (congrArg State.errSticky h :)

theorem microLoad_stickyKept (s : State) : (microLoad s).Keeps StickyKept s := by
  have hload := (loadSymbol_entriesOnly s).errSticky
  unfold microLoad
  dsimp only
  repeat' split
  all_goals exact .go_sticky hload

/-- An extraction from the queue writes the tree and the registers of U1. -/
theorem needQueue_stickyKept {s : State} {α : Type} (x : Option α) (f : α → State)
    (h : ∀ a, (f a).errSticky = s.errSticky) : (needQueue (x.map f)).Keeps StickyKept s := by
  cases x with
  | none => trivial
  | some a => exact .go_sticky (h a)

theorem microClearCodes_stickyKept (s : State) : (microClearCodes s).Keeps StickyKept s := by
  unfold microClearCodes
  dsimp only
  split <;> exact .go_sticky rfl

theorem microShift_stickyKept (s : State) : (microShift s).Keeps StickyKept s := by
  refine ((shiftBit_commutes s.errSticky s).stickyKept rfl rfl).andThen stickyKept_chains fun t => ?_
  split <;> exact .go_sticky rfl

/-- Before a bit `EXHAUSTED` may be raised (R230). -/
theorem beforeBit_stickyKept (s : State) : (beforeBit s).Keeps StickyKept s := by
  unfold beforeBit
  dsimp only
  split
  · split
    · split
      · exact raise_stickyKept s _
      · exact .go_sticky rfl
    · exact .go_sticky rfl
  · split <;> exact .go_sticky rfl

theorem beforeBit_nextBit_stickyKept (s : State) : (beforeBit (nextBit s)).Keeps StickyKept s :=
  (beforeBit_stickyKept (nextBit s)).after stickyKept_chains (.of_eq rfl)

/-- `D_CHECK` may raise `OVERRUN` (R229). -/
theorem microCheck_stickyKept (s : State) : (microCheck s).Keeps StickyKept s := by
  unfold microCheck
  split
  · exact .go_sticky rfl
  · split
    · exact raise_stickyKept s _
    · exact beforeBit_stickyKept s

theorem microWalk_stickyKept (s : State) : (microWalk s).Keeps StickyKept s := by
  refine ((walkBit_commutes s.errSticky s).stickyKept rfl rfl).andThen stickyKept_chains fun t => ?_
  split
  · exact .go_sticky rfl
  · exact beforeBit_nextBit_stickyKept t

/-! ### A micro-step -/

theorem enterPhase_errSticky (s : State) (p : Phase) : (enterPhase s p).errSticky = s.errSticky := by
  unfold enterPhase
  split <;> rfl

section Enter

variable {s t : State} {c : Ctl} {next : State → Phase}

theorem StickyKept.enterPhase (h : StickyKept s t) (p : Phase) : StickyKept s (enterPhase t p) :=
  stickyKept_chains.trans h (.of_eq (enterPhase_errSticky t p))

theorem StickyKept.of_enter (ht : c.enter next = .next t) (hc : c.Keeps StickyKept s) : StickyKept s t := by
  cases c with
  | go u => cases ht; exact StickyKept.enterPhase hc _
  | ended u => cases ht; exact hc
  | stuck f => cases ht

theorem StickyKept.of_enterOrFlush (ht : c.enterOrFlush next = .next t) (hc : c.Keeps StickyKept s) :
    StickyKept s t := by
  cases c with
  | go u => cases ht; exact StickyKept.enterPhase hc _
  | ended u => cases ht; exact StickyKept.enterPhase hc _
  | stuck f => cases ht

end Enter

/-- A micro-step clears no bit of `ERR_STICKY`, phase by phase. -/
theorem microStep_stickyKept {s t : State} (ht : microStep s = .next t) : StickyKept s t := by
  cases hp : s.phase <;> rw [microStep, hp] at ht
  case idle => cases ht; exact stickyKept_chains.refl s
  case cClear | bClear | bPh | bMerge => exact .of_enter ht (.go_sticky rfl)
  case cScan => exact .of_enter ht ((countByte_commutes s.errSticky s).stickyKept rfl rfl)
  case bLoad => exact .of_enter ht (microLoad_stickyKept s)
  case bEx1 | bEx2 | bRoot => exact .of_enter ht (needQueue_stickyKept _ _ fun _ => rfl)
  case gClear => exact .of_enter ht (microClearCodes_stickyKept s)
  case gDescend => exact .of_enter ht ((walkDescend_commutes s.errSticky s).stickyKept rfl rfl)
  case gAscend => exact .of_enter ht ((walkAscend_commutes s.errSticky s).stickyKept rfl rfl)
  case eFetch => exact .of_enterOrFlush ht ((fetchSymbol_commutes s.errSticky s).stickyKept rfl rfl)
  case eLookup => exact .of_enterOrFlush ht ((lookupSymbol_commutes s.errSticky s).stickyKept rfl rfl)
  case eShift => exact .of_enter ht (microShift_stickyKept s)
  case eFlush => exact .of_enter ht ((flushAcc_commutes s.errSticky s).stickyKept rfl rfl)
  case dCheck => exact .of_enter ht (microCheck_stickyKept s)
  case dFetch => exact .of_enter ht ((fetchByte_commutes s.errSticky s).stickyKept rfl rfl)
  case dWalk => exact .of_enter ht (microWalk_stickyKept s)
  case dEmit =>
    have hemit := (emitSymbol_commutes s.errSticky s).stickyKept (s := s) rfl rfl
    exact .of_enter ht (hemit.andThen stickyKept_chains beforeBit_nextBit_stickyKept)
  case dFinal =>
    refine .of_enter ht ?_
    split
    · exact .go_sticky rfl
    · exact (checkAtRoot_commutes s.errSticky s).stickyKept rfl rfl

/-! ### A step of the idle engine -/

/-- A command clears no bit of `ERR_STICKY`: it does what it does with the bits put aside (R54). -/
theorem exec_stickyKept {i : Instr} {s t : State} (ht : exec i s = .next t) : StickyKept s t := by
  obtain ⟨new, hnew, -⟩ := commandsIgnoreEarlierErrors i s t 0 0 0 0 ht
  exact .of_or hnew

/-- R24: `ERR_STICKY` stands at `0x000C` only. -/
theorem eq_of_ofOffset_errSticky {off : Nat} (h : WindowReg.ofOffset off = .errSticky) : off = 0x000C := by
  by_cases hlow : off < 0x0049
  · exact (by decide : ∀ off < 0x0049, WindowReg.ofOffset off = .errSticky → off = 0x000C) off hlow h
  · rcases ofOffset_cases (off := off) (by omega) with ⟨-, -, hr⟩ | ⟨-, -, hr⟩ | ⟨_, -, -, hr⟩ | ⟨-, -, -, hr⟩
    all_goals rw [hr] at h; cases h

/-- R256. -/
theorem getLsbD_clearSticky (x v : Word) (k : Nat) :
    (clearSticky x v).getLsbD k = (x.getLsbD k && !(decide (1 ≤ k ∧ k ≤ 4) && v.getLsbD k)) := by
  by_cases hk : k < 32
  · rw [clearSticky, BitVec.getLsbD_and, BitVec.getLsbD_not, BitVec.getLsbD_and, getLsbD_stickyMask, decide_eq_true hk,
      Bool.true_and, Bool.and_comm (v.getLsbD k)]
  · rw [BitVec.getLsbD_of_ge _ _ (by omega), BitVec.getLsbD_of_ge x _ (by omega), Bool.false_and]

/-- Why the bit `k` of `ERR_STICKY` is cleared (R256). -/
def ClearedByHost (s : State) (k : Nat) : Prop :=
  1 ≤ k ∧ k ≤ 4 ∧ ∃ v rest, s.host = .write 0x000C v :: rest ∧ v.getLsbD k = true

/-- A write to a register clears a bit of `ERR_STICKY` only as R256 says. -/
theorem clearedByHost_of_register {s : State} {off k : Nat} {v : Word} {rest : List HostOp}
    (h : s.host = .write off v :: rest) (hset : s.errSticky.getLsbD k = true)
    (hclear : (windowWrite { s with host := rest } (WindowReg.ofOffset off) v).errSticky.getLsbD k = false) :
    ClearedByHost s k := by
  cases hr : WindowReg.ofOffset off with
  | errSticky =>
    rw [hr] at hclear
    have hbit := (getLsbD_clearSticky s.errSticky v k).symm.trans hclear
    simp only [hset, Bool.true_and, Bool.not_eq_false', Bool.and_eq_true, decide_eq_true_eq] at hbit
    obtain ⟨⟨hge, hle⟩, hv⟩ := hbit
    exact ⟨hge, hle, v, rest, eq_of_ofOffset_errSticky hr ▸ h, hv⟩
  | _ =>
    rw [hr] at hclear
    exact absurd (hset.symm.trans hclear) (by decide)

/-- With the engine idle a step clears a bit of `ERR_STICKY` only as R256 says. -/
theorem IdleStep.clearedByHost {s t : State} {k : Nat} (h : IdleStep s t) (hset : s.errSticky.getLsbD k = true)
    (hclear : t.errSticky.getLsbD k = false) : ClearedByHost s k := by
  have hnot (hkept : StickyKept s t) : ClearedByHost s k := by
    rw [hkept k hset] at hclear
    cases hclear
  cases h with
  | register h => exact clearedByHost_of_register h hset hclear
  | command h ht => exact hnot (exec_stickyKept ht :)
  | illegal cause w rest => exact hnot (raise_stickyKept (clearError { s with host := rest }) _)
  | store h ha => exact hnot (.of_eq rfl)
  | wait => exact hnot (.of_eq rfl)
  | reply r rest => exact hnot (.of_eq rfl)

theorem step_of_not_idle {s : State} (h : s.phase ≠ .idle) : step s = microStep s := by
  unfold step
  split
  · exact absurd ‹_› h
  · rfl

/-- Settles O11: the engine sets bits of `ERR_STICKY` only, in its commands and in its micro-steps. -/
theorem stickyBitsAreClearedOnlyByTheHost : Obligations.StickyBitsAreClearedOnlyByTheHost := by
  refine ⟨fun s v rest hp hhost => ⟨clearSticky s.errSticky v, ?_, getLsbD_clearSticky s.errSticky v⟩,
    fun s t k ht hset hclear => ?_⟩
  · exact step_register hp hhost rfl (by decide)
  · by_cases hp : s.phase = .idle
    · exact ⟨hp, (IdleStep.of_step hp ht).clearedByHost hset hclear⟩
    · rw [step_of_not_idle hp] at ht
      rw [microStep_stickyKept ht k hset] at hclear
      cases hclear

end Sys2Proof.Machine

/-! SUPPORT and the settling of O51 and O52. What a command reports is followed through its parts as one property of the
state, `Reports`: a part that raises nothing keeps it, and `raise` keeps it for the errors that the command may end with,
because it records the first of them and sets the sticky bit of every one. -/

namespace Sys2Proof.Machine

/-! ### One error -/

theorem Err.getLsbD_stickyBit (e : Err) (k : Nat) : e.stickyBit.getLsbD k = decide (k = e.code.toNat) := by
  have hcode := e.code.isLt
  rw [stickyBit, ← BitVec.twoPow_eq, BitVec.getLsbD_twoPow, decide_eq_true (by omega), Bool.true_and,
    decide_eq_decide, eq_comm]

theorem getLsbD_raise_errSticky (s : State) (e : Err) (k : Nat) :
    (raise s e).errSticky.getLsbD k = (s.errSticky.getLsbD k || decide (k = e.code.toNat)) := by
  rw [raise_errSticky, BitVec.getLsbD_or, e.getLsbD_stickyBit]

/-- With no error recorded `raise` records the error (R266). -/
theorem raise_of_no_err {s : State} (e : Err) (h : s.status.err = 0) :
    raise s e =
      { s with
        status := { s.status with err := e.code, sub := e.sub }, errInfo := e.info
        errSticky := s.errSticky ||| e.stickyBit } := if_pos h

/-- Settles O51: the two branches of `raise`, and the one bit of the error in both. -/
theorem raiseRecordsTheFirstError : Obligations.RaiseRecordsTheFirstError := by
  refine fun s e => ⟨fun h => ?_, fun h => ?_, getLsbD_raise_errSticky s e⟩
  · rw [raise_errSticky, raise_of_no_err e h]
  · rw [raise_errSticky, raise_of_err e h]

/-! ### What a command reports -/

/-- What the error `e` puts into `STATUS` (R113, R114). -/
def Err.pair (e : Err) : BitVec 4 × BitVec 3 := (e.code, e.sub)

/-- The (`ERR`, `SUB`) pair of `s` is one of `ps`, and the sticky bit of an error recorded is set (R24, R261). -/
structure Reports (ps : List (BitVec 4 × BitVec 3)) (s : State) : Prop where
  pair : (s.status.err, s.status.sub) ∈ ps
  sticky : s.status.err ≠ 0 → s.errSticky.getLsbD s.status.err.toNat = true

/-- On the way from `s` to `t` none but errors of `ps` are raised. -/
def RaisesOnly (ps : List (BitVec 4 × BitVec 3)) (s t : State) : Prop := Reports ps s → Reports ps t

theorem raisesOnly_chains {ps : List (BitVec 4 × BitVec 3)} : Chains (RaisesOnly ps) where
  refl _ := id
  trans h h' := h' ∘ h

/-- The pairs of `IoError` (R113, R114). -/
def ioPairs : List (BitVec 4 × BitVec 3) := [(1, 1), (1, 2), (1, 3)]

section Parts

variable {ps : List (BitVec 4 × BitVec 3)}

/-- The error fields after the common start of every command (R250). -/
theorem Reports.of_no_err {s : State} (hnone : (0, 0) ∈ ps) (herr : s.status.err = 0) (hsub : s.status.sub = 0) :
    Reports ps s :=
  ⟨by rwa [herr, hsub], absurd herr⟩

theorem RaisesOnly.of_eq {s t : State} (hstatus : t.status = s.status) (hsticky : t.errSticky = s.errSticky) :
    RaisesOnly ps s t :=
  fun ⟨hpair, hset⟩ => ⟨by rwa [hstatus], by rwa [hstatus, hsticky]⟩

theorem raise_raisesOnly (s : State) {e : Err} (he : e.pair ∈ ps) : RaisesOnly ps s (raise s e) := by
  intro h
  by_cases herr : s.status.err = 0
  · obtain ⟨hstatus, -⟩ := raise_status e herr
    refine ⟨by rw [hstatus]; exact he, fun _ => ?_⟩
    rw [hstatus, getLsbD_raise_errSticky, decide_eq_true rfl, Bool.or_true]
  · obtain ⟨hstatus, -⟩ := raise_status_kept e herr
    refine ⟨by rw [hstatus]; exact h.pair, fun _ => ?_⟩
    rw [hstatus]
    exact raise_stickyKept s e _ (h.sticky herr)

/-- The end of a command, started with no error, whose parts raise none but errors of `ps`. -/
theorem Ctl.Keeps.reports {c : Ctl} {s t : State} (hc : c.Keeps (RaisesOnly ps) s) (hnone : (0, 0) ∈ ps)
    (herr : s.status.err = 0) (hsub : s.status.sub = 0) (ht : c.finish = .next t) : Reports ps t := by
  obtain ⟨u, hu, rfl⟩ := hc.finish ht
  have hend : RaisesOnly ps u (toIdle u) := .of_eq rfl rfl
  exact hend (hu (.of_no_err hnone herr hsub))

/-! ### Parts that read -/

section Reads

variable (hread : (1, 1) ∈ ps)
include hread

theorem countByte_raisesOnly (s : State) : (countByte s).Keeps (RaisesOnly ps) s := by
  rcases countByte_cases s with ⟨-, hc⟩ | ⟨-, hc⟩ <;> rw [hc]
  · exact raise_raisesOnly s hread
  · exact .of_eq rfl rfl

theorem fetchSymbol_raisesOnly (s : State) : (fetchSymbol s).Keeps (RaisesOnly ps) s := by
  rcases fetchSymbol_cases s with ⟨-, hc⟩ | ⟨-, hc⟩ <;> rw [hc]
  · exact raise_raisesOnly s hread
  · exact .of_eq rfl rfl

theorem fetchByte_raisesOnly (s : State) : (fetchByte s).Keeps (RaisesOnly ps) s := by
  rcases fetchByte_cases s with ⟨-, hc⟩ | ⟨-, -, hc⟩ | ⟨-, -, hc⟩ <;> rw [hc]
  · exact raisesOnly_chains.refl s
  · exact raise_raisesOnly s hread
  · exact .of_eq rfl rfl

end Reads

theorem lookupSymbol_raisesOnly (hunknown : (2, 0) ∈ ps) (s : State) : (lookupSymbol s).Keeps (RaisesOnly ps) s := by
  rcases lookupSymbol_cases s with ⟨-, hc⟩ | ⟨-, hc⟩ <;> rw [hc]
  · exact raise_raisesOnly s hunknown
  · exact .of_eq rfl rfl

theorem walkBit_raisesOnly (hplaceholder : (3, 4) ∈ ps) (s : State) : (walkBit s).Keeps (RaisesOnly ps) s := by
  rcases walkBit_cases s with ⟨f, hf⟩ | ⟨pos, hc | hc⟩
  · rw [hf]; trivial
  · rw [hc]; exact .of_eq rfl rfl
  · rw [hc]; exact raisesOnly_chains.trans (t := walkTo s pos) (.of_eq rfl rfl) (raise_raisesOnly _ hplaceholder)

theorem checkAtRoot_raisesOnly (hoffRoot : (3, 1) ∈ ps) (s : State) : (checkAtRoot s).Keeps (RaisesOnly ps) s := by
  unfold checkAtRoot
  split
  · exact raisesOnly_chains.refl s
  · exact raise_raisesOnly s hoffRoot

/-! ### Parts that write (R204, R226), and the loops around them -/

variable (hio : ioPairs ⊆ ps)
include hio

theorem putByte_raisesOnly (s : State) (v : Byte) : (putByte s v).Keeps (RaisesOnly ps) s := by
  have hwrite : (1, 2) ∈ ps := hio (by decide)
  have hcap : (1, 3) ∈ ps := hio (by decide)
  rcases putByte_cases s v with ⟨-, hp⟩ | ⟨-, -, hp⟩ | ⟨-, -, hp⟩ <;> rw [hp]
  · exact raise_raisesOnly s hcap
  · exact raise_raisesOnly s hwrite
  · exact .of_eq rfl rfl

theorem putAcc_raisesOnly (s : State) : (putAcc s).Keeps (RaisesOnly ps) s :=
  (putByte_raisesOnly hio s _).andThen raisesOnly_chains fun _ => .of_eq rfl rfl

theorem flushAcc_raisesOnly (s : State) : (flushAcc s).Keeps (RaisesOnly ps) s := by
  rcases flushAcc_cases s with ⟨-, hf⟩ | ⟨-, hf⟩ <;> rw [hf]
  · exact raisesOnly_chains.refl s
  · exact putAcc_raisesOnly hio s

theorem shiftBit_raisesOnly (s : State) : (shiftBit s).Keeps (RaisesOnly ps) s := by
  have hpack : RaisesOnly ps s (packBit s) := .of_eq rfl rfl
  rw [shiftBit_eq]
  split
  · exact (putAcc_raisesOnly hio _).after raisesOnly_chains hpack
  · exact hpack

/-- R206, R270: the flush on the way out may raise a second error, which is not recorded. -/
theorem exitThroughFlush_raisesOnly {s : State} {c : Ctl} (h : c.Keeps (RaisesOnly ps) s) :
    (exitThroughFlush c).Keeps (RaisesOnly ps) s := by
  cases c with
  | go t => exact h
  | ended t =>
    have hflush : (flushAcc t).Keeps (RaisesOnly ps) s := (flushAcc_raisesOnly hio t).after raisesOnly_chains h
    exact hflush.andThen raisesOnly_chains raisesOnly_chains.refl
  | stuck e => trivial

theorem encodeSymbol_raisesOnly (hunknown : (2, 0) ∈ ps) (s : State) : (encodeSymbol s).Keeps (RaisesOnly ps) s := by
  have hlookup := (fetchSymbol_raisesOnly (hio (by decide)) s).andThen raisesOnly_chains
    (lookupSymbol_raisesOnly hunknown)
  refine (exitThroughFlush_raisesOnly hio hlookup).andThen raisesOnly_chains fun t => ?_
  exact (Ctl.Keeps.loop raisesOnly_chains (shiftBit_raisesOnly hio) _ t).andThen raisesOnly_chains
    fun _ => .of_eq rfl rfl

theorem emitSymbol_raisesOnly (s : State) : (emitSymbol s).Keeps (RaisesOnly ps) s := by
  unfold emitSymbol
  split
  · exact raisesOnly_chains.refl s
  · split
    · exact (putByte_raisesOnly hio s _).andThen raisesOnly_chains fun _ => .of_eq rfl rfl
    · exact raisesOnly_chains.refl s

theorem decodeBit_raisesOnly (hplaceholder : (3, 4) ∈ ps) (s : State) : (decodeBit s).Keeps (RaisesOnly ps) s :=
  (((fetchByte_raisesOnly (hio (by decide)) s).andThen raisesOnly_chains (walkBit_raisesOnly hplaceholder)).andThen
    raisesOnly_chains (emitSymbol_raisesOnly hio)).andThen raisesOnly_chains fun _ => .of_eq rfl rfl

theorem decodeUntilSyms_raisesOnly (hplaceholder : (3, 4) ∈ ps) (hexhausted : (3, 2) ∈ ps) (n : Nat) (s : State) :
    (decodeUntilSyms n s).Keeps (RaisesOnly ps) s := by
  induction n generalizing s with
  | zero =>
    rw [decodeUntilSyms]
    split
    · exact raise_raisesOnly s hexhausted
    · exact raisesOnly_chains.refl s
  | succ n ih =>
    rw [decodeUntilSyms]
    split
    · exact (decodeBit_raisesOnly hio hplaceholder s).andThen raisesOnly_chains ih
    · exact raisesOnly_chains.refl s

/-- DECODE.B after its start (R221, R222, R229). -/
theorem decodeBFrom_raisesOnly (hplaceholder : (3, 4) ∈ ps) (hoverrun : (3, 3) ∈ ps) (hoffRoot : (3, 1) ∈ ps)
    (s : State) : (decodeBFrom s).Keeps (RaisesOnly ps) s := by
  unfold decodeBFrom
  split
  · exact raisesOnly_chains.refl s
  · split
    · exact raise_raisesOnly s hoverrun
    · exact (Ctl.Keeps.loop raisesOnly_chains (decodeBit_raisesOnly hio hplaceholder) _ s).andThen
        raisesOnly_chains (checkAtRoot_raisesOnly hoffRoot)

/-- DECODE.S after its start (R221, R223). -/
theorem decodeSFrom_raisesOnly (hplaceholder : (3, 4) ∈ ps) (hexhausted : (3, 2) ∈ ps) (s : State) :
    (decodeSFrom s).Keeps (RaisesOnly ps) s := by
  unfold decodeSFrom
  split
  · exact raisesOnly_chains.refl s
  · exact decodeUntilSyms_raisesOnly hio hplaceholder hexhausted _ s

end Parts

/-! ### The whole commands -/

section Commands

variable {s t : State}

theorem execNop_reports (h : execNop s = .next t) : Reports [(0, 0)] t := by
  cases h
  exact .of_no_err (by decide) rfl rfl

theorem execBuild_reports (h : execBuild s = .next t) : Reports [(0, 0)] t := by
  obtain ⟨u, hu, rfl⟩ := execBuild_treeOnly h
  exact .of_no_err (by decide) (congrArg (·.status.err) hu :) (congrArg (·.status.sub) hu :)

theorem execGen_reports (h : execGen s = .next t) : Reports [(0, 0)] t := by
  obtain ⟨u, hu, rfl⟩ := execGen_codesOnly h
  exact .of_no_err (by decide) (congrArg (·.status.err) hu :) (congrArg (·.status.sub) hu :)

theorem execCount_reports (h : execCount s = .next t) : Reports [(0, 0), (1, 1)] t :=
  (Ctl.Keeps.loop raisesOnly_chains (countByte_raisesOnly (by decide)) _ _).reports (by decide) rfl rfl h

theorem execEncode_reports (h : execEncode s = .next t) :
    Reports [(0, 0), (1, 1), (1, 2), (1, 3), (2, 0)] t := by
  have hio : ioPairs ⊆ [(0, 0), (1, 1), (1, 2), (1, 3), (2, 0)] := by decide
  have hsymbols := Ctl.Keeps.loop raisesOnly_chains (encodeSymbol_raisesOnly hio (by decide))
    s.srcLen.toNat (startEncode (clearError s))
  exact (hsymbols.andThen raisesOnly_chains (flushAcc_raisesOnly hio)).reports (by decide) rfl rfl h

theorem execDecodeB_reports (h : execDecodeB s = .next t) :
    Reports [(0, 0), (1, 1), (1, 2), (1, 3), (3, 1), (3, 3), (3, 4)] t := by
  rw [execDecodeB_eq] at h
  exact (decodeBFrom_raisesOnly (by decide) (by decide) (by decide) (by decide) _).reports (by decide) rfl rfl h

theorem execDecodeS_reports (h : execDecodeS s = .next t) :
    Reports [(0, 0), (1, 1), (1, 2), (1, 3), (3, 2), (3, 4)] t := by
  rw [execDecodeS_eq] at h
  exact (decodeSFrom_raisesOnly (by decide) (by decide) (by decide) _).reports (by decide) rfl rfl h

end Commands

/-- Settles O52: the parts of each command raise only the errors that the table gives it, and a command keeps the sticky
bits that are set. -/
theorem commandsRaiseOnlyTheirErrors : Obligations.CommandsRaiseOnlyTheirErrors := by
  intro i s t h
  have hreports {ps : List (BitVec 4 × BitVec 3)} (hr : Reports ps t) :
      (t.status.err, t.status.sub) ∈ ps ∧
        (t.status.err ≠ 0 → t.errSticky.getLsbD t.status.err.toNat = true) ∧ StickyKept s t :=
    ⟨hr.pair, hr.sticky, exec_stickyKept h⟩
  cases i with
  | nop => exact hreports (execNop_reports h)
  | count => exact hreports (execCount_reports h)
  | build => exact hreports (execBuild_reports h)
  | gen => exact hreports (execGen_reports h)
  | encode => exact hreports (execEncode_reports h)
  | decodeB => exact hreports (execDecodeB_reports h)
  | decodeS => exact hreports (execDecodeS_reports h)

end Sys2Proof.Machine

/-! SUPPORT and the settling of O55. A command is the end of one `Ctl`, so it is never refused. No part of a command stops
but the two parts of GEN's walk and `D_WALK`, all three with the fault `brokenTree`; and on a tree, or with no tree, the
commands that walk end. -/

namespace Sys2Proof.Machine

/-! ### Why a part stops -/

/-- The part stops with the fault `brokenTree` if it stops. -/
def Ctl.StopsOnBrokenTree (c : Ctl) : Prop := ∀ f, c = .stuck f → f = .brokenTree

theorem Ctl.stopsOnBrokenTree_stuck : (Ctl.stuck .brokenTree).StopsOnBrokenTree := fun _ h => by cases h; rfl

theorem Ctl.Completes.stopsOnBrokenTree {c : Ctl} (h : c.Completes) : c.StopsOnBrokenTree :=
  fun f hf => absurd hf (h f)

theorem Ctl.stopsOnBrokenTree_go (s : State) : (Ctl.go s).StopsOnBrokenTree := (Ctl.completes_go s).stopsOnBrokenTree

theorem Ctl.stopsOnBrokenTree_ended (s : State) : (Ctl.ended s).StopsOnBrokenTree :=
  (Ctl.completes_ended s).stopsOnBrokenTree

theorem Ctl.StopsOnBrokenTree.andThen {c : Ctl} {f : State → Ctl} (hc : c.StopsOnBrokenTree)
    (hf : ∀ s, (f s).StopsOnBrokenTree) : (c.andThen f).StopsOnBrokenTree := by
  cases c with
  | go s => exact hf s
  | ended s => exact Ctl.stopsOnBrokenTree_ended s
  | stuck e => exact hc

theorem Ctl.StopsOnBrokenTree.loop {body : State → Ctl} (hb : ∀ s, (body s).StopsOnBrokenTree) (n : Nat) (s : State) :
    (Ctl.loop body n s).StopsOnBrokenTree := by
  induction n generalizing s with
  | zero => exact Ctl.stopsOnBrokenTree_go s
  | succ n ih => exact (hb s).andThen ih

/-! ### The walk of GEN -/

theorem walkDescend_stopsOnBrokenTree (s : State) : (walkDescend s).StopsOnBrokenTree := by
  unfold walkDescend
  split
  · exact Ctl.stopsOnBrokenTree_stuck
  · split
    · split
      · exact Ctl.stopsOnBrokenTree_go _
      · exact Ctl.stopsOnBrokenTree_stuck
    · split
      · exact Ctl.stopsOnBrokenTree_stuck
      · exact Ctl.stopsOnBrokenTree_go _
    · split
      · exact Ctl.stopsOnBrokenTree_stuck
      · exact Ctl.stopsOnBrokenTree_go _
    · exact Ctl.stopsOnBrokenTree_stuck

theorem walkAscend_stopsOnBrokenTree (s : State) : (walkAscend s).StopsOnBrokenTree := by
  unfold walkAscend
  split
  · exact Ctl.stopsOnBrokenTree_go _
  · dsimp only
    split
    · exact Ctl.stopsOnBrokenTree_go _
    · split
      · exact Ctl.stopsOnBrokenTree_stuck
      · exact Ctl.stopsOnBrokenTree_go _

theorem walkLoop_stopsOnBrokenTree (n : Nat) (s : State) : (walkLoop n s).StopsOnBrokenTree := by
  induction n generalizing s with
  | zero =>
    rw [walkLoop]
    split
    · exact Ctl.stopsOnBrokenTree_go s
    · exact Ctl.stopsOnBrokenTree_stuck
  | succ n ih =>
    rw [walkLoop]
    split
    · exact (walkDescend_stopsOnBrokenTree s).andThen ih
    · exact (walkAscend_stopsOnBrokenTree s).andThen ih
    · exact Ctl.stopsOnBrokenTree_go s

/-! ### The walk of DECODE -/

theorem walkBit_stopsOnBrokenTree (s : State) : (walkBit s).StopsOnBrokenTree := by
  unfold walkBit
  split
  · exact Ctl.stopsOnBrokenTree_stuck
  · split
    · dsimp only
      split
      · exact Ctl.stopsOnBrokenTree_stuck
      · split
        · exact Ctl.stopsOnBrokenTree_go _
        · exact Ctl.stopsOnBrokenTree_go _
        · exact Ctl.stopsOnBrokenTree_ended _
        · exact Ctl.stopsOnBrokenTree_stuck
    · exact Ctl.stopsOnBrokenTree_stuck

theorem fetchByte_completes (s : State) : (fetchByte s).Completes := by
  rcases fetchByte_cases s with ⟨-, hc⟩ | ⟨-, -, hc⟩ | ⟨-, -, hc⟩ <;> rw [hc]
  · exact Ctl.completes_go _
  · exact Ctl.completes_ended _
  · exact Ctl.completes_go _

theorem putByte_completes (s : State) (v : Byte) : (putByte s v).Completes := by
  rcases putByte_cases s v with ⟨-, hp⟩ | ⟨-, -, hp⟩ | ⟨-, -, hp⟩ <;> rw [hp]
  · exact Ctl.completes_ended _
  · exact Ctl.completes_ended _
  · exact Ctl.completes_go _

theorem emitSymbol_completes (s : State) : (emitSymbol s).Completes := by
  unfold emitSymbol
  split
  · exact Ctl.completes_go s
  · split
    · exact (putByte_completes s _).andThen fun _ => Ctl.completes_go _
    · exact Ctl.completes_go s

theorem checkAtRoot_completes (s : State) : (checkAtRoot s).Completes := by
  unfold checkAtRoot
  split
  · exact Ctl.completes_go s
  · exact Ctl.completes_ended _

theorem decodeBit_stopsOnBrokenTree (s : State) : (decodeBit s).StopsOnBrokenTree :=
  (((fetchByte_completes s).stopsOnBrokenTree.andThen walkBit_stopsOnBrokenTree).andThen
    fun t => (emitSymbol_completes t).stopsOnBrokenTree).andThen fun _ => Ctl.stopsOnBrokenTree_go _

theorem decodeUntilSyms_stopsOnBrokenTree (n : Nat) (s : State) : (decodeUntilSyms n s).StopsOnBrokenTree := by
  induction n generalizing s with
  | zero =>
    rw [decodeUntilSyms]
    split
    · exact Ctl.stopsOnBrokenTree_ended _
    · exact Ctl.stopsOnBrokenTree_go s
  | succ n ih =>
    rw [decodeUntilSyms]
    split
    · exact (decodeBit_stopsOnBrokenTree s).andThen ih
    · exact Ctl.stopsOnBrokenTree_go s

theorem decodeBFrom_stopsOnBrokenTree (s : State) : (decodeBFrom s).StopsOnBrokenTree := by
  unfold decodeBFrom
  split
  · exact Ctl.stopsOnBrokenTree_go s
  · split
    · exact Ctl.stopsOnBrokenTree_ended _
    · exact (Ctl.StopsOnBrokenTree.loop decodeBit_stopsOnBrokenTree _ s).andThen
        fun t => (checkAtRoot_completes t).stopsOnBrokenTree

theorem decodeSFrom_stopsOnBrokenTree (s : State) : (decodeSFrom s).StopsOnBrokenTree := by
  unfold decodeSFrom
  split
  · exact Ctl.stopsOnBrokenTree_go s
  · exact decodeUntilSyms_stopsOnBrokenTree _ s

/-! ### The whole commands -/

theorem countByte_completes (s : State) : (countByte s).Completes := by
  rcases countByte_cases s with ⟨-, hc⟩ | ⟨-, hc⟩ <;> rw [hc]
  · exact Ctl.completes_ended _
  · exact Ctl.completes_go _

theorem execCount_completes (s : State) : ∃ t, execCount s = .next t :=
  (Ctl.Completes.loop countByte_completes _ _).finish

/-- A command is the end of a part that stops only on a broken tree. -/
theorem exists_finish_of_exec (i : Instr) (s : State) : ∃ c : Ctl, exec i s = c.finish ∧ c.StopsOnBrokenTree := by
  cases i with
  | nop => exact ⟨_, rfl, Ctl.stopsOnBrokenTree_go _⟩
  | count => exact ⟨_, rfl, (Ctl.Completes.loop countByte_completes _ _).stopsOnBrokenTree⟩
  | build => exact ⟨_, rfl, Ctl.stopsOnBrokenTree_go _⟩
  | gen =>
    cases hv : s.status.treeValid
    · exact ⟨.go _, execGen_of_noTree hv, Ctl.stopsOnBrokenTree_go _⟩
    · exact ⟨_, (execGen_eq s).trans (if_pos hv), walkLoop_stopsOnBrokenTree _ _⟩
  | encode =>
    exact ⟨_, rfl, ((Ctl.Completes.loop encodeSymbol_completes _ _).andThen flushAcc_completes).stopsOnBrokenTree⟩
  | decodeB => exact ⟨_, execDecodeB_eq s, decodeBFrom_stopsOnBrokenTree _⟩
  | decodeS => exact ⟨_, execDecodeS_eq s, decodeSFrom_stopsOnBrokenTree _⟩

/-- The commands that walk the tree. -/
def Walks (i : Instr) : Prop := i = .gen ∨ i = .decodeB ∨ i = .decodeS

/-- A command that does not walk the tree ends. -/
theorem exec_completes_of_not_walks {i : Instr} (s : State) (h : ¬ Walks i) : ∃ t, exec i s = .next t := by
  cases i with
  | nop => exact ⟨_, nopClearsTheError s⟩
  | count => exact execCount_completes s
  | build => exact ⟨_, Ctl.finish_go _⟩
  | encode => exact execEncode_completes s
  | gen => exact absurd (.inl rfl) h
  | decodeB => exact absurd (.inr (.inl rfl)) h
  | decodeS => exact absurd (.inr (.inr rfl)) h

/-- With no tree the commands that walk do not begin to (R182, R221). -/
theorem exec_completes_of_noTree {i : Instr} {s : State} (hi : Walks i) (h : s.status.treeValid = false) :
    ∃ t, exec i s = .next t := by
  obtain ⟨hdecodeB, hdecodeS⟩ := (decodeTestsBeforeTheFirstBit s).1 h
  rcases hi with rfl | rfl | rfl
  · exact ⟨_, execGen_of_noTree h⟩
  · exact ⟨_, hdecodeB⟩
  · exact ⟨_, hdecodeS⟩

/-- On a tree the walks end (R187, R224). -/
theorem TreeShape.exec_completes {i : Instr} {s : State} (hi : Walks i) (h : TreeShape s) :
    ∃ t, exec i s = .next t := by
  rcases hi with rfl | hi
  · obtain ⟨t, ht, -⟩ := genWritesThePaths s h
    exact ⟨t, ht⟩
  · obtain ⟨t, ht, -⟩ := decodeCompletesInsideItsBuffer s i (.inr h) hi
    exact ⟨t, ht⟩

/-- Settles O55: the parts that stop are those of the walks, and the walks end on a tree and with no tree. -/
theorem commandsStopOnlyOnABrokenTree : Obligations.CommandsStopOnlyOnABrokenTree := by
  intro i s
  obtain ⟨c, hc, hstops⟩ := exists_finish_of_exec i s
  refine ⟨fun f hf => ?_, fun r => hc ▸ c.finish_ne_refused r⟩
  have hnever : ¬ ∃ t, exec i s = .next t := fun ⟨t, ht⟩ => by cases hf.symm.trans ht
  have hwalks : Walks i := by_contra fun hi => hnever (exec_completes_of_not_walks s hi)
  have hvalid : s.status.treeValid = true := by
    by_contra hno
    exact hnever (exec_completes_of_noTree hwalks (Bool.eq_false_iff.2 hno))
  have hbroken : f = .brokenTree := hstops f (Ctl.finish_eq_fault.1 (hc.symm.trans hf))
  exact ⟨hvalid, fun htree => hnever (htree.exec_completes hwalks), hbroken, hwalks⟩

end Sys2Proof.Machine

/-! SUPPORT and the settling of O12. What the host's own accesses to `MEM` do. -/

namespace Sys2Proof.Machine

/-- A store of bytes that exist (R70, R71). -/
theorem hostAccess_store (s : State) {a : Nat} {bs : List Byte} (h : a + bs.length ≤ Config.memSize) :
    hostAccess s (.store a bs) = .next { s with mem := s.mem.writeAll a bs } := if_pos (decide_eq_true h)

/-- A load of bytes that exist (R70, R71). -/
theorem hostAccess_load (s : State) {a n : Nat} (h : a + n ≤ Config.memSize) :
    hostAccess s (.load a n) = .next (answer s (.bytes (s.mem.bytesFrom a n))) := if_pos (decide_eq_true h)

/-- Settles O12: the store writes its row of bytes, and the load answers the row that stands there. -/
theorem hostStoresAndLoadsMem : Obligations.HostStoresAndLoadsMem := by
  refine ⟨fun s a bs rest hp hhost hin => ⟨s.mem.writeAll a bs, ?_, s.mem.storedAt_writeAll a bs⟩,
    fun s a n rest hp hhost hin => ⟨s.mem.bytesFrom a n, ?_, s.mem.length_bytesFrom a n,
      fun i hi => s.mem.getElem_bytesFrom hi⟩⟩
  · rw [step_of_host hp hhost, hostAccess_store _ hin]
  · rw [step_of_host hp hhost, hostAccess_load _ hin]
    rfl

end Sys2Proof.Machine
